-- ==== Sys2Proof/Word.lean ====
section
/-!
DEFINITION. The word types of the engine (00_scope.md R10, R11): the host register word, the byte, the 64-bit
ROM code, and the offset into the 64-byte register space (20_memory.md R81).
-/

namespace Sys2Proof

/-- A host register or command word (00_scope.md R10). -/
abbrev Word := BitVec 32

/-- A byte (00_scope.md R10). -/
abbrev Byte := BitVec 8

/-- A ROM code, an address, or a discrepancy mask (00_scope.md R10). -/
abbrev Rom := BitVec 64

/-- A byte offset in the register space, 0x00 to 0x3F (20_memory.md R81). -/
abbrev Offset := BitVec 6

end Sys2Proof
end

