-- ==== Sys2Proof/Syntax.lean ====
section
/-!
DEFINITION. The commands of the engine (30_encoding.md R109), one constructor for each row of
opcode_table.json, with the operand fields the row names. A command plays the part of an instruction
(00_scope.md R20). The illegal words are three constructors: the two rows of the table, by OP, and the words of
R107, which no row's mask takes in (log 17).
-/

namespace Sys2Proof

/-- The commands (30_encoding.md R109). -/
inductive Instr where
  /-- OP 0x1 (40_signal_primitives.md R131). -/
  | releaseBus
  /-- OP 0x2 (R132). -/
  | driveLow
  /-- OP 0x3 (R133). -/
  | senseHigh
  /-- OP 0x4 (R134). -/
  | senseLow
  /-- OP 0x5 (R136). -/
  | waitHigh
  /-- OP 0x6 (R139). -/
  | reset
  /-- OP 0x7 (41_bit_byte.md R171). -/
  | readBit
  /-- OP 0x8 (R173): the BIT field. -/
  | writeBit (b : Bool)
  /-- OP 0x9 (R175). -/
  | readByte
  /-- OP 0xA (R177): the BYTE field. -/
  | writeByte (byte : Byte)
  /-- OP 0xB (42_addressing.md R201). -/
  | matchRom
  /-- OP 0xC (R203). -/
  | skipRom
  /-- OP 0xD (R204): the BYTE and MATCH fields. -/
  | sendCommand (byte : Byte) (byMatch : Bool)
  /-- OP 0xE (43_search.md R240): the RESUME and ALARM fields. -/
  | search (resume alarm : Bool)
  /-- OP 0x0 (30_encoding.md R108): the table's field `ignored`, bits 31:4. -/
  | illegalOp0 (ignored : BitVec 28)
  /-- OP 0xF (R108): the table's field `ignored`, bits 31:4. -/
  | illegalOpF (ignored : BitVec 28)
  /-- RSVD nonzero with an OP other than 0x0 and 0xF (R107): bits 31:16, 15:4 and 3:0. -/
  | illegalRsvd (rsvd : BitVec 16) (low : BitVec 12) (op : BitVec 4)
  deriving DecidableEq, Repr

end Sys2Proof
end

