-- ==== Sys2Proof/WellFormed.lean ====
section
/-!
DEFINITION. Which terms of `Instr` are commands the decoder can give. Every operand field is a bit vector of the
field's own width, so only the words of 30_encoding.md R107 need a check: RSVD is not zero, and OP is neither
reserved opcode (those are the rows illegalOp0 and illegalOpF).
-/

namespace Sys2Proof

/-- The command is one that a command word stands for (30_encoding.md R107, R108). -/
def Instr.wf : Instr → Bool
  | .releaseBus => true
  | .driveLow => true
  | .senseHigh => true
  | .senseLow => true
  | .waitHigh => true
  | .reset => true
  | .readBit => true
  | .writeBit _ => true
  | .readByte => true
  | .writeByte _ => true
  | .matchRom => true
  | .skipRom => true
  | .sendCommand _ _ => true
  | .search _ _ => true
  | .illegalOp0 _ => true
  | .illegalOpF _ => true
  | .illegalRsvd rsvd _ op => rsvd != 0#16 && op != 0x0#4 && op != 0xF#4

/-- The command is ILLEGAL (30_encoding.md R107, R108). -/
def Instr.isIllegal : Instr → Bool
  | .releaseBus => false
  | .driveLow => false
  | .senseHigh => false
  | .senseLow => false
  | .waitHigh => false
  | .reset => false
  | .readBit => false
  | .writeBit _ => false
  | .readByte => false
  | .writeByte _ => false
  | .matchRom => false
  | .skipRom => false
  | .sendCommand _ _ => false
  | .search _ _ => false
  | .illegalOp0 _ => true
  | .illegalOpF _ => true
  | .illegalRsvd _ _ _ => true

end Sys2Proof
end

