-- ==== Sys2Proof/Decode.lean ====
section
/-!
DEFINITION. The decoder of 30_encoding.md R110, total on any 32-bit word, and the encoder, written from the
fields of R101 and the opcodes of R109. Words that are no command decode to an ILLEGAL command by name
(R107, R108); nothing is refused.
-/

namespace Sys2Proof

/-! ## The fields of a command word (30_encoding.md R101 to R105) -/

/-- OP, bits 3:0 (R102). -/
def Word.op (w : Word) : BitVec 4 := w.extractLsb' 0 4

/-- RESUME, bit 4 (R105). -/
def Word.resume (w : Word) : Bool := w.getLsbD 4

/-- ALARM, bit 5 (R105). -/
def Word.alarm (w : Word) : Bool := w.getLsbD 5

/-- MATCH, bit 6 (R105). -/
def Word.byMatch (w : Word) : Bool := w.getLsbD 6

/-- BIT, bit 7 (R104). -/
def Word.bit (w : Word) : Bool := w.getLsbD 7

/-- BYTE, bits 15:8 (R103). -/
def Word.byte (w : Word) : Byte := w.extractLsb' 8 8

/-- RSVD, bits 31:16 (R107). -/
def Word.rsvd (w : Word) : BitVec 16 := w.extractLsb' 16 16

/-- Decode a command word whose RSVD bits are zero (R110). -/
def decodeOp (w : Word) : Instr :=
  match w.op.toNat with
  | 0x1 => .releaseBus
  | 0x2 => .driveLow
  | 0x3 => .senseHigh
  | 0x4 => .senseLow
  | 0x5 => .waitHigh
  | 0x6 => .reset
  | 0x7 => .readBit
  | 0x8 => .writeBit (Word.bit w)
  | 0x9 => .readByte
  | 0xA => .writeByte (Word.byte w)
  | 0xB => .matchRom
  | 0xC => .skipRom
  | 0xD => .sendCommand (Word.byte w) (Word.byMatch w)
  | 0xE => .search (Word.resume w) (Word.alarm w)
  | 0xF => .illegalOpF (w.extractLsb' 4 28)
  | _ => .illegalOp0 (w.extractLsb' 4 28)

/-- Decode any command word (R110): RSVD nonzero is ILLEGAL whatever OP holds (R107). -/
def decode (w : Word) : Instr :=
  if Word.rsvd w = 0#16 then decodeOp w
  else if Word.op w = 0x0#4 then .illegalOp0 (w.extractLsb' 4 28)
  else if Word.op w = 0xF#4 then .illegalOpF (w.extractLsb' 4 28)
  else .illegalRsvd (Word.rsvd w) (w.extractLsb' 4 12) (Word.op w)

/-! ## The encoder (30_encoding.md R101, R109, R112) -/

/-- Lay out a command word from its fields, most significant first (R101); RSVD is zero. -/
def packWord (byte : Byte) (bit byMatch alarm resume : Bool) (op : BitVec 4) : Word :=
  0#16 ++ byte ++ BitVec.ofBool bit ++ BitVec.ofBool byMatch ++ BitVec.ofBool alarm ++
    BitVec.ofBool resume ++ op

/-- A command word with no operand field in use: those fields are zero. -/
def packOp (op : BitVec 4) : Word := packWord 0#8 false false false false op

/-- The command word of a command, with the fields its opcode ignores zero (R106, R112). -/
def encode : Instr → Word
  | .releaseBus => packOp 0x1#4
  | .driveLow => packOp 0x2#4
  | .senseHigh => packOp 0x3#4
  | .senseLow => packOp 0x4#4
  | .waitHigh => packOp 0x5#4
  | .reset => packOp 0x6#4
  | .readBit => packOp 0x7#4
  | .writeBit b => packWord 0#8 b false false false 0x8#4
  | .readByte => packOp 0x9#4
  | .writeByte byte => packWord byte false false false false 0xA#4
  | .matchRom => packOp 0xB#4
  | .skipRom => packOp 0xC#4
  | .sendCommand byte m => packWord byte false m false false 0xD#4
  | .search r a => packWord 0#8 false false a r 0xE#4
  | .illegalOp0 x => (x ++ 0x0#4 : BitVec 32)
  | .illegalOpF x => (x ++ 0xF#4 : BitVec 32)
  | .illegalRsvd rsvd low op => (rsvd ++ low ++ op : BitVec 32)

/-! ## The table's numbering -/

/-- The command the decoder reads from a word of the opcode table: one word of 32 bits (R111), of which the
table gives `nbits`; the bits above them are zero. A longer word is no command word. -/
def decodeTableWord (nbits w : Nat) : Option Instr :=
  if nbits ≤ 32 then some (decode (BitVec.ofNat 32 (w % 2 ^ nbits))) else none

end Sys2Proof
end

