-- ==== Sys2Proof/Config.lean ====
section
/-!
DEFINITION. The implementation parameters of 00_scope.md R9. The spec makes them arguments of a model; the
fixed signatures of the host have no such argument, so State carries one value of `Params` that no step writes
(log 4). The value the reset state carries is opaque: no parameter is picked.
-/

namespace Sys2Proof

/-- CRC_VALID as plain data (00_scope.md R9, 10_state.md R54; log 5): the spec's default function, or any other
function, given by the list of the ROM codes it accepts. -/
inductive CrcRule where
  | dallas
  | table (accepted : List Rom)
  deriving DecidableEq, Repr, Inhabited

/-- The parameters of 00_scope.md R9. -/
structure Params where
  /-- TICKS_PER_US less one, so that the parameter is at least 1. -/
  ticksLess1 : Nat
  /-- ACT_LAT, the clock cycles of one pin request outside any wait. -/
  actLat : Nat
  /-- PIN_ERR_W less one, so that the parameter is 1 to 32. -/
  pinErrWLess1 : Fin 32
  /-- PIN_CAN_FAIL. -/
  pinCanFail : Bool
  /-- CRC_VALID. -/
  crc : CrcRule
  /-- OWB_BASE (20_memory.md R81). -/
  owbBase : Nat
  deriving DecidableEq, Repr, Inhabited

namespace Params

/-- TICKS_PER_US, at least 1 (00_scope.md R9). -/
def ticksPerUs (p : Params) : Nat := p.ticksLess1 + 1

/-- PIN_ERR_W, 1 to 32 (00_scope.md R9). -/
def pinErrW (p : Params) : Nat := p.pinErrWLess1.val + 1

end Params

/-- The parameters of the implementation at hand: a free value. Nothing is known of it (00_scope.md R9,
93_implementation_defined.md U12; log 4). -/
opaque Config.params : Params

end Sys2Proof
end

