-- ==== Sys2Proof/Machine/State.lean ====
section
/-!
DEFINITION. The state of the engine as plain data: the host registers (10_state.md R31 to R47), the hidden
sequencer registers (R61 to R70), the step pointer (R61), and the environment the step reads: what the pin port
will answer, what the host will do, and the clock. Also the two kinds of stop, and the reset state (R75).
-/

namespace Sys2Proof.Machine

/-! ## Error kinds -/

/-- STATUS.ERR (10_state.md R40, 60_exceptions.md R270). Codes 6 and 7 are never written, so no constructor
stands for them. -/
inductive ErrCode where
  | none
  | pinFailure
  | busNotHigh
  | unexpectedResponse
  | checksumMismatch
  | illegalCommand
  deriving DecidableEq, Repr

/-- What `raise` carries (60_exceptions.md R270): the error kind and its information, the pin error code c. -/
inductive CmdError where
  | pinFailure (c : Word)
  | busNotHigh
  | unexpectedResponse
  | checksumMismatch
  | illegalCommand
  deriving DecidableEq, Repr

/-! ## The pin port -/

/-- A request on the pin port (00_scope.md R13, 10_state.md R50). -/
inductive PinReq where
  | driveLow
  | release
  | isHigh
  | isLow
  | waitHigh
  deriving DecidableEq, Repr

/-- The answer the engine takes to a request (00_scope.md R13). -/
inductive PinAns where
  /-- `ok`, to a drive request. -/
  | ok
  /-- `ok(b)`, to a sense request. -/
  | level (b : Bool)
  /-- `high`, to WAIT_HIGH. -/
  | high
  /-- `timeout`, to WAIT_HIGH. -/
  | timeout
  /-- `err(c)`, to any request; c is zero-extended to 32 bits. -/
  | err (c : Word)
  deriving DecidableEq, Repr

/-- What the environment puts behind one request: a draw of the bus agent and the pin port, with no law
(00_scope.md R18, 93_implementation_defined.md U5, U6, U7; logs 2 and 3). -/
structure PinDraw where
  /-- The port answers with an error, with this code. Only PIN_ERR_W bits of it reach the engine. -/
  err : Option Word
  /-- The level the pull-up and the devices give the line, the engine's own drive apart: at the sample for a
  sense request, within the wait for WAIT_HIGH. -/
  high : Bool
  /-- Read by WAIT_HIGH only: clock cycles from the request until the line is high, or until the error. -/
  delay : Nat
  deriving DecidableEq, Repr

/-! ## The sequencer's steps -/

/-- The registers that `finish` commits (60_exceptions.md R274), by the command that ends. -/
inductive Commit where
  /-- No result register. -/
  | nothing
  /-- x[RX].BIT <- bit (R133, R134, R171). -/
  | rxBit
  /-- x[RX].BYTE <- sh (R175). -/
  | rxByte
  /-- x[SADDR], x[SDISC], x[SLDI], x[STATUS].FOUND (R239). -/
  | searchState
  deriving DecidableEq, Repr

/-- The points of the procedures that take no bus time: assignments to hidden registers, loop heads and
conditions (00_scope.md R17). Machine/Acts.lean says what each does. -/
inductive Act where
  /-- pres_v <- 0 (R139, R204). -/
  | clearPresV
  /-- pres <- the sample, pres_v <- 1 (R138). -/
  | latchPresence
  /-- sh <- v, k <- 0 (R174 with v = 0, R176). -/
  | loadShift (v : Byte)
  /-- Loop head of WRITE_BYTE_SEQ (R176). -/
  | sendBits
  /-- Loop head of READ_BYTE_SEQ (R174). -/
  | recvBits
  /-- sh[k] <- the slot's bit (R174). -/
  | storeBit
  /-- k <- k + 1 (R115). -/
  | nextBit
  /-- j <- 0 (R200). -/
  | startMatch
  /-- Loop head of MATCH_SEQ (R200). -/
  | sendRom
  /-- j <- j + 1 (R115). -/
  | nextByte
  /-- r0 <- the complement of the slot's bit (R225). -/
  | latchR0
  /-- r1 <- the complement of the slot's bit (R225). -/
  | latchR1
  /-- SEARCH step 1 (R222), then RESET_SEQ (R223). -/
  | searchEnter (resume alarm : Bool)
  /-- SEARCH step 2, the presence test (R223), then the command byte (R224). -/
  | searchPresence (resume alarm : Bool)
  /-- SEARCH step 4, the starting point (R227, R228). -/
  | searchStart (resume : Bool)
  /-- Loop head of the replay below L (R228); at L, the read of R230. -/
  | replay
  /-- The replay's two assignments at one position (R228, R229). -/
  | replayWrite
  /-- The check at L (R230) and the flip (R231). -/
  | confirm
  /-- The discrepancy mask and the first position of step 5 (R231). -/
  | beginWalk
  /-- Loop head of step 5 (R232); after position 63, step 6. -/
  | walk
  /-- The choice at one position of step 5 (R226, R232 to R235). -/
  | choose
  /-- i <- i + 1 (R115). -/
  | nextPos
  /-- SEARCH steps 6 and 7 (R237 to R239). -/
  | validate
  deriving DecidableEq, Repr

/-- One step of a procedure (00_scope.md R17). -/
inductive Micro where
  /-- One request on the pin port (R13), with the failure propagation of R14. -/
  | pin (r : PinReq)
  /-- Wait(n), n microseconds (R15). -/
  | wait (us : Nat)
  /-- A point that takes no bus time. -/
  | act (a : Act)
  /-- `finish` (60_exceptions.md R274). -/
  | finish (c : Commit)
  /-- `raise` (60_exceptions.md R275). -/
  | raise (e : CmdError)
  deriving DecidableEq, Repr

/-- `seq` and `step` (10_state.md R61). IDLE has no step. While a command runs, the step pointer is written as
the list of the steps still to run, the next one first. An engine held by the pin port (R50) stands at the request r,
issued and never answered. -/
inductive Sequencer where
  | idle
  | run (step : List Micro)
  | await (r : PinReq) (rest : List Micro)
  deriving DecidableEq, Repr

/-! ## Observations -/

/-- One entry of the pin trace (00_scope.md R17): the requests and waits issued, with the answers received
(log 29). -/
inductive TraceEv where
  /-- A request with the answer it received. -/
  | pin (r : PinReq) (a : PinAns)
  /-- A request that has received no answer: the port never answers it (10_state.md R50), or a block reset cut it off
  (70_reset_and_hazards.md R300). -/
  | issued (r : PinReq)
  /-- A wait, in microseconds. -/
  | wait (us : Nat)
  /-- A block reset fell here (70_reset_and_hazards.md R300); the step it cut off, if a command ran. Not in
  R17: the model's own mark (log 15). -/
  | blockReset (cut : Option Micro)
  deriving DecidableEq, Repr

/-! ## The host's side -/

/-- What the host can do to the engine: one access to a register (20_memory.md R82). -/
inductive HostOp where
  | read (off : Offset)
  | write (off : Offset) (v : Word)
  deriving DecidableEq, Repr

/-- When an access falls due: at a clock cycle, or once the host has seen BUSY = 0 (`WAIT_DONE`,
30_encoding.md R112; log 9). -/
inductive Due where
  | atCycle (c : Nat)
  | whenIdle
  deriving DecidableEq, Repr

/-- One entry of the host's queue. -/
structure Input where
  due : Due
  op : HostOp
  deriving DecidableEq, Repr

/-! ## The parts of the state -/

/-- The host registers (10_state.md R31 to R47). STATUS.BUSY and STATUS.DRIVING are views of the sequencer's
state (R61, R39). -/
structure Regs where
  /-- CMD (R32). -/
  cmd : Word
  /-- STATUS.DONE (R35). -/
  done : Bool
  /-- STATUS.PRESENCE (R36). -/
  presence : Bool
  /-- STATUS.FOUND (R37). -/
  found : Bool
  /-- STATUS.REJ (R38). -/
  rej : Bool
  /-- STATUS.ERR (R40). -/
  err : ErrCode
  /-- IRQEN.DONE_IE (R41). -/
  doneIe : Bool
  /-- RX.BYTE (R42). -/
  rxByte : Byte
  /-- RX.BIT (R42). -/
  rxBit : Bool
  /-- PINERR (R43). -/
  pinerr : Word
  /-- ROMID (R44). -/
  romid : Rom
  /-- SADDR (R45). -/
  saddr : Rom
  /-- SDISC (R46). -/
  sdisc : Rom
  /-- SLDI.LDI (R47). -/
  sldi : BitVec 6
  deriving DecidableEq, Repr

/-- The hidden sequencer registers (10_state.md R62 to R70); `seq` and `step` stand beside them. -/
structure Hidden where
  /-- op_word (R62). -/
  opWord : Word
  /-- w_addr (R63). -/
  wAddr : Rom
  /-- w_disc (R64). -/
  wDisc : Rom
  /-- w_ldi (R65). -/
  wLdi : BitVec 6
  /-- i, 7 bits, 0 to 64 (R66; log 12). -/
  i : Nat
  /-- k, 4 bits, 0 to 8 (R66; log 12). -/
  k : Nat
  /-- j, 4 bits, 0 to 8 (R66; log 12). -/
  j : Nat
  /-- sh (R67). -/
  sh : Byte
  /-- r0 (R68). -/
  r0 : Bool
  /-- r1 (R68). -/
  r1 : Bool
  /-- drv (R69). -/
  drv : Bool
  /-- tmr, in clock cycles (R70, 60_exceptions.md R285; log 13). -/
  tmr : Nat
  /-- pres (R70). -/
  pres : Bool
  /-- pres_v (R70). -/
  presV : Bool
  /-- bit (R70). -/
  bit : Bool
  deriving DecidableEq, Repr

/-- The pin port's side: the draws still to come, oldest first, and the pin trace so far, oldest first
(logs 2 and 20). -/
structure Port where
  draws : List PinDraw
  trace : List TraceEv
  deriving DecidableEq, Repr

/-- The host's side: the accesses still to come, oldest first, and what its reads returned, oldest first
(logs 9 and 20). -/
structure HostSide where
  queue : List Input
  reads : List (Offset × Word)
  deriving DecidableEq, Repr

/-- The state of the engine and of what it is joined to. -/
structure State where
  /-- The host registers. -/
  regs : Regs
  /-- `seq` and `step` (R61). -/
  seq : Sequencer
  /-- The hidden registers. -/
  hid : Hidden
  /-- The pin port's side. -/
  port : Port
  /-- The host's side. -/
  host : HostSide
  /-- The block reset input (70_reset_and_hazards.md R300): the clock cycles in which it is asserted, still to
  come, first one first (log 15). -/
  resets : List Nat
  /-- Clock cycles so far: the model's own (log 6). -/
  now : Nat
  /-- The parameters of 00_scope.md R9. No step writes them (log 4). -/
  cfg : Params
  deriving DecidableEq, Repr

/-! ## Stops -/

/-- Why the machine stops with a fault. -/
inductive Fault where
  /-- Raised by `step` in a state whose step pointer names no step (a command runs and has nothing left to run).
  No run reaches such a state (log 28). Safe: the hardware has no such state. -/
  | noStep
  deriving DecidableEq, Repr

/-- Why an instruction has no meaning. -/
inductive Refusal where
  /-- Raised by an arm of `exec` that has no meaning yet. Safe. No arm of this model raises it. -/
  | notModelled (mnemonic : String)
  deriving DecidableEq, Repr

/-! ## Reset -/

/-- The host registers after a block reset (10_state.md R75). -/
def Regs.reset : Regs where
  cmd := 0x00000000#32
  done := false
  presence := false
  found := false
  rej := false
  err := .none
  doneIe := false
  rxByte := 0x00#8
  rxBit := false
  pinerr := 0x00000000#32
  romid := 0#64
  saddr := 0#64
  sdisc := 0#64
  sldi := 0#6

/-- The hidden registers after a block reset (10_state.md R75). -/
def Hidden.reset : Hidden where
  opWord := 0#32
  wAddr := 0#64
  wDisc := 0#64
  wLdi := 0#6
  i := 0
  k := 0
  j := 0
  sh := 0#8
  r0 := false
  r1 := false
  drv := false
  tmr := 0
  pres := false
  presV := false
  bit := false

/-- The machine right after reset (10_state.md R75, 70_reset_and_hazards.md R300): nothing drawn, nothing asked
by the host, an empty trace, cycle 0 (the model's own fields, log 20), and parameters of which nothing is known
(log 4). -/
def State.reset : State where
  regs := Regs.reset
  seq := .idle
  hid := Hidden.reset
  port := { draws := [], trace := [] }
  host := { queue := [], reads := [] }
  resets := []
  now := 0
  cfg := Config.params

end Sys2Proof.Machine
end

