-- ==== Sys2Proof/Machine/Timing.lean ====
section
/-!
DEFINITION. The fixed constants of 00_scope.md R7 (microseconds) and R8 (command bytes), and the cycle counts of
60_exceptions.md R285 and R313.
-/

namespace Sys2Proof.Machine

/-! ## Timing constants, in microseconds (00_scope.md R7) -/

/-- T_WAITHIGH_TIMEOUT. -/
def tWaitHighTimeout : Nat := 250
/-- T_RSTL. -/
def tRstl : Nat := 480
/-- T_PDS. -/
def tPds : Nat := 70
/-- T_RREC. -/
def tRrec : Nat := 410
/-- T_RD_LOW. -/
def tRdLow : Nat := 6
/-- T_RD_SAMPLE. -/
def tRdSample : Nat := 9
/-- T_RD_REC. -/
def tRdRec : Nat := 55
/-- T_W1_LOW. -/
def tW1Low : Nat := 6
/-- T_W1_REC. -/
def tW1Rec : Nat := 64
/-- T_W0_LOW. -/
def tW0Low : Nat := 60
/-- T_W0_REC. -/
def tW0Rec : Nat := 10

/-! ## Command bytes on the wire (00_scope.md R8) -/

/-- CMD_MATCH_ROM. -/
def cmdMatchRom : Byte := 0x55#8
/-- CMD_SKIP_ROM. -/
def cmdSkipRom : Byte := 0xCC#8
/-- CMD_SEARCH_NORMAL. -/
def cmdSearchNormal : Byte := 0xF0#8
/-- CMD_SEARCH_ALARM. -/
def cmdSearchAlarm : Byte := 0xEC#8

/-! ## Cycles -/

/-- Clock cycles of n microseconds (60_exceptions.md R285). -/
def usCycles (p : Params) (us : Nat) : Nat := us * p.ticksPerUs

/-- Clock cycles of the timeout of WAIT_HIGH (R285). -/
def timeoutCycles (p : Params) : Nat := usCycles p tWaitHighTimeout

/-- The cycle in which a CMD write is accepted (30_encoding.md R114; log 6). -/
def acceptCycles : Nat := 1

/-- The single cycle in which a command ends (60_exceptions.md R274, R275; log 6). -/
def endCycles : Nat := 1

end Sys2Proof.Machine
end

