-- ==== Sys2Proof/Machine/Operands.lean ====
section
/-!
DEFINITION. The operands a procedure takes from registers, and the bit-field helpers for them. The fields of
the command word (30_encoding.md R101 to R105) are read by the decoder; ROMID, SADDR, SDISC and SLDI are read
from their registers while the command runs (10_state.md R62).
-/

namespace Sys2Proof.Machine

/-! ## Bits and bytes of a ROM code -/

/-- Byte k of an address, `A[8k+7:8k]` (20_memory.md R86). -/
def romByte (a : Rom) (k : Nat) : Byte := a.extractLsb' (8 * k) 8

/-- Bit i of an address (20_memory.md R87). -/
def romBit (a : Rom) (i : Nat) : Bool := a.getLsbD i

/-- `v[i] <- c`: assign one bit, every other bit as before (43_search.md R233). -/
def assignBit {w : Nat} (v : BitVec w) (i : Nat) (c : Bool) : BitVec w :=
  if c then v ||| BitVec.twoPow w i else v &&& ~~~(BitVec.twoPow w i)

/-! ## The operands of a resumed SEARCH (43_search.md R221) -/

/-- L = x[SLDI][5:0], a bit position 0 to 63. -/
def State.resumeAt (s : State) : Nat := s.regs.sldi.toNat

/-- D[i], a bit of x[SDISC]. -/
def State.discAt (s : State) (i : Nat) : Bool := romBit s.regs.sdisc i

/-- A[i], a bit of x[SADDR]. -/
def State.addrAt (s : State) (i : Nat) : Bool := romBit s.regs.saddr i

/-- The command byte of step 3 (43_search.md R224). -/
def searchByte (alarm : Bool) : Byte := if alarm then cmdSearchAlarm else cmdSearchNormal

/-! ## The validator port (10_state.md R54, 43_search.md R241) -/

/-- One bit of the default CRC-8 (R241): `mix <- (crc ^ v)[0]`, shift, feed back 0x8C. -/
def crcBit (crc : Byte) (b : Bool) : Byte :=
  if crc.getLsbD 0 ^^ b then (crc >>> 1) ^^^ 0x8C#8 else crc >>> 1

/-- One byte of the default CRC-8, least-significant bit first (R241). -/
def crcByte (crc v : Byte) : Byte :=
  (List.range 8).foldl (fun c k => crcBit c (v.getLsbD k)) crc

/-- The default CRC-8 of a byte sequence (R241). -/
def crc8 (bytes : List Byte) : Byte := bytes.foldl crcByte 0x00#8

/-- The bytes b0 to b(n-1) of a ROM code, in order (R237). -/
def romBytes (a : Rom) (n : Nat) : List Byte := (List.range n).map (romByte a)

/-- CRC_VALID on the eight bytes of a ROM code (R241): for the default, crc8(b0..b6) = b7. -/
def crcValid (p : Params) (a : Rom) : Bool :=
  match p.crc with
  | .dallas => crc8 (romBytes a 7) == romByte a 7
  | .table accepted => accepted.contains a

end Sys2Proof.Machine
end

