-- ==== Sys2Proof/Machine/Flags.lean ====
section
/-!
DEFINITION. The STATUS flags (10_state.md R33 to R40, R57): the views BUSY and DRIVING, the STATUS word, the
interrupt output, and the flag writes of acceptance (30_encoding.md R114), of `finish` (60_exceptions.md R274), of
`raise` (R275), of a rejected write (10_state.md R38) and of a write to STATUS (R33).
-/

namespace Sys2Proof.Machine

/-! ## Codes -/

/-- The code of an error kind in STATUS.ERR (10_state.md R40). -/
def ErrCode.code : ErrCode → BitVec 3
  | .none => 0#3
  | .pinFailure => 1#3
  | .busNotHigh => 2#3
  | .unexpectedResponse => 3#3
  | .checksumMismatch => 4#3
  | .illegalCommand => 5#3

/-- The error kind that `raise` records (60_exceptions.md R270). -/
def CmdError.kind : CmdError → ErrCode
  | .pinFailure _ => .pinFailure
  | .busNotHigh => .busNotHigh
  | .unexpectedResponse => .unexpectedResponse
  | .checksumMismatch => .checksumMismatch
  | .illegalCommand => .illegalCommand

/-! ## Views -/

/-- STATUS.BUSY: a command runs (10_state.md R34, R61). -/
def State.busy (s : State) : Bool :=
  match s.seq with
  | .idle => false
  | .run _ => true
  | .await _ _ => true

/-- STATUS.DRIVING reads drv (10_state.md R39). -/
def State.driving (s : State) : Bool := s.hid.drv

/-- The interrupt output, a level (10_state.md R52). -/
def State.irq (s : State) : Bool := s.regs.done && s.regs.doneIe

/-- The STATUS word (10_state.md R33), most significant field first. -/
def State.statusWord (s : State) : Word :=
  0#21 ++ s.regs.err.code ++ 0#2 ++ BitVec.ofBool s.driving ++ BitVec.ofBool s.regs.rej ++
    BitVec.ofBool s.regs.found ++ BitVec.ofBool s.regs.presence ++ BitVec.ofBool s.regs.done ++
    BitVec.ofBool s.busy

/-! ## Flag writes -/

/-- The flags that the acceptance of a command clears (30_encoding.md R114). -/
def Regs.acceptFlags (r : Regs) : Regs :=
  { r with done := false, err := .none, found := false }

/-- `if pres_v = 1: x[STATUS].PRESENCE <- pres`, at either end of a command (60_exceptions.md R274, R275). -/
def Regs.latchPresence (r : Regs) (h : Hidden) : Regs :=
  { r with presence := if h.presV then h.pres else r.presence }

/-- The flags of `finish`: DONE, with ERR as it is (60_exceptions.md R274). -/
def Regs.finishFlags (r : Regs) : Regs :=
  { r with done := true }

/-- The flags of `raise`: ERR, FOUND cleared, DONE (60_exceptions.md R275). -/
def Regs.raiseFlags (r : Regs) (e : CmdError) : Regs :=
  { r with err := e.kind, found := false, done := true }

/-- A rejected host write: the sticky REJ (10_state.md R38). -/
def Regs.reject (r : Regs) : Regs :=
  { r with rej := true }

/-- A host write to STATUS: 1 clears DONE (bit 1) and REJ (bit 4); all else is ignored (10_state.md R33). -/
def Regs.writeStatus (r : Regs) (v : Word) : Regs :=
  { r with done := r.done && !v.getLsbD 1, rej := r.rej && !v.getLsbD 4 }

end Sys2Proof.Machine
end

