-- ==== Sys2Proof/Machine/Ops.lean ====
section
/-!
DEFINITION. The shared operations over the registers and the ports: the register map and host accesses
(20_memory.md), the passing of time with the host's accesses in it, the block reset (70_reset_and_hazards.md R300),
acceptance (30_encoding.md R114), and the two ends of a command: `finish` (60_exceptions.md R274) and `raise`
(R275), the engine's only way to take an exception.
-/

namespace Sys2Proof.Machine

/-! ## The register map (10_state.md R31, 20_memory.md R81, R82) -/

/-- The mapped registers. -/
inductive Reg where
  | cmd
  | status
  | irqen
  | rx
  | pinerr
  | romidLo
  | romidHi
  | saddrLo
  | saddrHi
  | sdiscLo
  | sdiscHi
  | sldi
  deriving DecidableEq, Repr

/-- The word a byte offset reaches: bits 5:2, with bits 1:0 ignored (20_memory.md R82). `none` is an unmapped
word (10_state.md R49). -/
def regAt (off : Offset) : Option Reg :=
  match (off.extractLsb' 2 4).toNat with
  | 0x0 => some .cmd
  | 0x1 => some .status
  | 0x2 => some .irqen
  | 0x3 => some .rx
  | 0x4 => some .pinerr
  | 0x5 => some .romidLo
  | 0x6 => some .romidHi
  | 0x7 => some .saddrLo
  | 0x8 => some .saddrHi
  | 0x9 => some .sdiscLo
  | 0xA => some .sdiscHi
  | 0xB => some .sldi
  | _ => none

/-- Where the platform places the register space (20_memory.md R81): the offset of a host address, if the
address lies in the 64 bytes from OWB_BASE. -/
def offsetOf (p : Params) (addr : Nat) : Option Offset :=
  if p.owbBase ≤ addr ∧ addr < p.owbBase + 64 then some (BitVec.ofNat 6 (addr - p.owbBase)) else none

/-- The registers whose write is rejected while a command runs (10_state.md R38). -/
def Reg.locked : Reg → Bool
  | .cmd => true
  | .status => false
  | .irqen => false
  | .rx => false
  | .pinerr => false
  | .romidLo => true
  | .romidHi => true
  | .saddrLo => true
  | .saddrHi => true
  | .sdiscLo => true
  | .sdiscHi => true
  | .sldi => true

/-- Bits 31:0 of a 64-bit register (20_memory.md R84). -/
def lowHalf (v : Rom) : Word := v.extractLsb' 0 32

/-- Bits 63:32 of a 64-bit register (20_memory.md R84). -/
def highHalf (v : Rom) : Word := v.extractLsb' 32 32

/-- Write bits 31:0 of a 64-bit register (20_memory.md R84). -/
def setLowHalf (v : Rom) (w : Word) : Rom := highHalf v ++ w

/-- Write bits 63:32 of a 64-bit register (20_memory.md R84). -/
def setHighHalf (v : Rom) (w : Word) : Rom := w ++ lowHalf v

/-- The value a mapped register reads (10_state.md R32, R33, R41 to R47); reserved bits read 0 (R49). -/
def State.readReg (s : State) : Reg → Word
  | .cmd => s.regs.cmd
  | .status => s.statusWord
  | .irqen => 0#31 ++ BitVec.ofBool s.regs.doneIe
  | .rx => 0#23 ++ BitVec.ofBool s.regs.rxBit ++ s.regs.rxByte
  | .pinerr => s.regs.pinerr
  | .romidLo => lowHalf s.regs.romid
  | .romidHi => highHalf s.regs.romid
  | .saddrLo => lowHalf s.regs.saddr
  | .saddrHi => highHalf s.regs.saddr
  | .sdiscLo => lowHalf s.regs.sdisc
  | .sdiscHi => highHalf s.regs.sdisc
  | .sldi => 0#26 ++ s.regs.sldi

/-- A host read of a word (20_memory.md R82): an unmapped word reads 0 (10_state.md R49). -/
def State.readWord (s : State) (off : Offset) : Word :=
  match regAt off with
  | some r => s.readReg r
  | none => 0#32

/-- Store a host write in a register, the rejection of R38 apart (20_memory.md R83). RX and PINERR are
read-only (10_state.md R42, R43). A write to CMD stores nothing here: its acceptance is `State.accept`. -/
def Regs.store (r : Regs) (v : Word) : Reg → Regs
  | .cmd => r
  | .status => r.writeStatus v
  | .irqen => { r with doneIe := v.getLsbD 0 }
  | .rx => r
  | .pinerr => r
  | .romidLo => { r with romid := setLowHalf r.romid v }
  | .romidHi => { r with romid := setHighHalf r.romid v }
  | .saddrLo => { r with saddr := setLowHalf r.saddr v }
  | .saddrHi => { r with saddr := setHighHalf r.saddr v }
  | .sdiscLo => { r with sdisc := setLowHalf r.sdisc v }
  | .sdiscHi => { r with sdisc := setHighHalf r.sdisc v }
  | .sldi => { r with sldi := v.extractLsb' 0 6 }

/-- A host write of a word: rejected while a command runs if the register is locked (10_state.md R38), ignored
if the word is unmapped (R49), else stored (20_memory.md R83). -/
def State.writeWord (s : State) (off : Offset) (v : Word) : State :=
  match regAt off with
  | some r => { s with regs := if s.busy && r.locked then s.regs.reject else s.regs.store v r }
  | none => s

/-- A host read, with its value recorded: no register changes (20_memory.md R83). -/
def State.hostRead (s : State) (off : Offset) : State :=
  { s with host := { s.host with reads := s.host.reads ++ [(off, s.readWord off)] } }

/-! ## Block reset (70_reset_and_hazards.md R300) -/

/-- The step a running command is at, if one runs. -/
def Sequencer.current : Sequencer → Option Micro
  | .idle => none
  | .run step => step.head?
  | .await r _ => some (.pin r)

/-- What a block reset cuts off, as the trace lists it: the request or the wait that had been issued (00_scope.md R17;
log 29). A request that is never answered is in the trace already, and the other steps issue nothing. -/
def Sequencer.begun : Sequencer → List TraceEv
  | .idle => []
  | .run [] => []
  | .run (.pin r :: _) => [.issued r]
  | .run (.wait us :: _) => [.wait us]
  | .run (.act _ :: _) => []
  | .run (.finish _ :: _) => []
  | .run (.raise _ :: _) => []
  | .await _ _ => []

/-- The block reset input: every register and hidden register takes its reset value, and a running command is
abandoned (R300). The environment goes on (log 15). -/
def State.blockReset (s : State) : State :=
  { s with
    regs := Regs.reset
    seq := .idle
    hid := Hidden.reset
    port := { s.port with trace := s.port.trace ++ s.seq.begun ++ [.blockReset s.seq.current] } }

/-! ## Time, and the host's accesses in it -/

/-- The access falls due before cycle t of a running command; `whenIdle` waits for its end (log 9). -/
def Due.before (t : Nat) : Due → Bool
  | .atCycle c => c < t
  | .whenIdle => false

/-- The cycle in which an access takes effect: its own, or this one if that is past (log 9). -/
def Due.cycle (now : Nat) : Due → Nat
  | .atCycle c => max now c
  | .whenIdle => now

/-- Take the head access from the host's queue, at its cycle. -/
def State.takeInput (s : State) (due : Due) (queue : List Input) : State :=
  { s with now := due.cycle s.now, host := { s.host with queue := queue } }

/-- An access of the host while a command runs, or one that starts no command while idle. -/
def State.access (s : State) : HostOp → State
  | .read off => s.hostRead off
  | .write off v => s.writeWord off v

/-- Let the clock reach cycle t: the accesses that fall due before t take effect one at a time, in order
(20_memory.md R89). -/
def elapseTo (t : Nat) : List Input → State → State
  | [], s => { s with now := t, host := { s.host with queue := [] } }
  | inp :: queue, s =>
    if inp.due.before t then elapseTo t queue ((s.takeInput inp.due queue).access inp.op)
    else { s with now := t, host := { s.host with queue := inp :: queue } }

/-- The block reset falls before cycle t (70_reset_and_hazards.md R300): the cycle it falls in. A step that takes no
cycle is never cut off: with ACT_LAT = 0 a request in the reset's own cycle comes before it. A request or a wait that
takes cycles and begins in the reset's own cycle has been issued, and is cut off (log 31). -/
def State.resetBefore (s : State) (t : Nat) : Option Nat :=
  match s.resets with
  | [] => none
  | r :: _ => if r < t then some (max s.now r) else none

/-- The next block reset happens, at cycle r. -/
def State.resetNow (s : State) (r : Nat) : State :=
  { ({ s with now := r } : State).blockReset with resets := s.resets.tail }

/-- Let n clock cycles pass while a command runs, then go on with f. A block reset in those cycles abandons the
command (R300), after the accesses that fall due before it. -/
def State.afterCycles (s : State) (n : Nat) (f : State → State) : State :=
  match s.resetBefore (s.now + n) with
  | some r => (elapseTo r s.host.queue s).resetNow r
  | none => f (elapseTo (s.now + n) s.host.queue s)

/-! ## Acceptance (30_encoding.md R114) -/

/-- A host write of w to CMD is accepted: CMD and op_word take the word, DONE, ERR, FOUND and pres_v are
cleared, and the cycle of the write passes (log 6). BUSY, seq and step follow when the procedure starts. -/
def State.accept (s : State) (w : Word) : State :=
  { s with
    regs := { s.regs.acceptFlags with cmd := w }
    hid := { s.hid with opWord := w, presV := false }
    now := s.now + acceptCycles }

/-! ## The two ends of a command -/

/-- The result registers that `finish` commits, in one cycle (60_exceptions.md R274): R133, R134, R171, R175, R239. -/
def Regs.commit (r : Regs) (h : Hidden) : Commit → Regs
  | .nothing => r
  | .rxBit => { r with rxBit := h.bit }
  | .rxByte => { r with rxByte := h.sh }
  | .searchState => { r with saddr := h.wAddr, sdisc := h.wDisc, sldi := h.wLdi, found := true }

/-- `finish`: commit, PRESENCE, DONE; seq <- IDLE (60_exceptions.md R274). -/
def State.endFinish (s : State) (c : Commit) : State :=
  { s with regs := ((s.regs.commit s.hid c).latchPresence s.hid).finishFlags, seq := .idle }

/-- x[PINERR] <- zext_32(c), for PinFailure only (60_exceptions.md R275, 10_state.md R43). -/
def Regs.recordPinErr (r : Regs) : CmdError → Regs
  | .pinFailure c => { r with pinerr := c }
  | .busNotHigh => r
  | .unexpectedResponse => r
  | .checksumMismatch => r
  | .illegalCommand => r

/-- `raise`: nothing committed, PRESENCE, PINERR, ERR, FOUND cleared, DONE; seq <- IDLE; drv as it is
(60_exceptions.md R275). This is the one way a command takes an exception. -/
def State.endRaise (s : State) (e : CmdError) : State :=
  { s with
    regs := ((s.regs.latchPresence s.hid).recordPinErr e).raiseFlags e
    seq := .idle }

/-! ## The pin port (00_scope.md R13, R14, 10_state.md R50, R51) -/

/-- A pin error code has PIN_ERR_W bits (00_scope.md R9; log 21). -/
def pinCode (p : Params) (c : Word) : Word := BitVec.ofNat 32 (c.toNat % 2 ^ p.pinErrW)

/-- The error the port answers with, if any: never when PIN_CAN_FAIL is false (10_state.md R50; log 21). -/
def PinDraw.fault (d : PinDraw) (p : Params) : Option Word :=
  match d.err with
  | none => none
  | some c => if p.pinCanFail then some (pinCode p c) else none

/-- The line's level: the bus agent's, and low while the engine drives it low (10_state.md R51). -/
def PinDraw.lineHigh (d : PinDraw) (drv : Bool) : Bool := d.high && !drv

/-- What the engine takes from WAIT_HIGH (40_signal_primitives.md R135): the port's answer if it comes by the
expiry, the cycle of the expiry included (R137, 60_exceptions.md R279), else `timeout`. -/
def PinDraw.waitAnswer (d : PinDraw) (p : Params) (drv : Bool) : PinAns :=
  match d.fault p with
  | some c => if d.delay ≤ timeoutCycles p then .err c else .timeout
  | none => if d.lineHigh drv && d.delay ≤ timeoutCycles p then .high else .timeout

/-- The answer to a request (00_scope.md R13). -/
def PinDraw.answer (d : PinDraw) (p : Params) (drv : Bool) (r : PinReq) : PinAns :=
  match r with
  | .waitHigh => d.waitAnswer p drv
  | .driveLow => (d.fault p).elim .ok .err
  | .release => (d.fault p).elim .ok .err
  | .isHigh => (d.fault p).elim (.level (d.lineHigh drv)) .err
  | .isLow => (d.fault p).elim (.level (!d.lineHigh drv)) .err

/-- Cycles of timebase in a request (70_reset_and_hazards.md R313): W for WAIT_HIGH, none for the others. -/
def PinDraw.waitCycles (d : PinDraw) (p : Params) (drv : Bool) (r : PinReq) : Nat :=
  match r with
  | .waitHigh =>
    match d.waitAnswer p drv with
    | .timeout => timeoutCycles p
    | _ => d.delay
  | _ => 0

/-- The draw of a port that stays silent: WAIT_HIGH then times out (40_signal_primitives.md R135). -/
def PinDraw.silent : PinDraw := { err := none, high := false, delay := 0 }

/-- The draw behind the next request. -/
def State.nextDraw (s : State) : PinDraw := s.port.draws.headD PinDraw.silent

/-- Append to the pin trace (00_scope.md R17). -/
def State.log (s : State) (e : TraceEv) : State :=
  { s with port := { s.port with trace := s.port.trace ++ [e] } }

/-- Set a hidden register or several. -/
def State.mapHid (s : State) (f : Hidden → Hidden) : State := { s with hid := f s.hid }

/-- drv after an answer (10_state.md R69): set by an acknowledged PinDriveLow, cleared by an acknowledged
PinRelease. -/
def drvAfter (r : PinReq) (a : PinAns) (drv : Bool) : Bool :=
  match r, a with
  | .driveLow, .ok => true
  | .release, .ok => false
  | _, _ => drv

/-- bit after an answer (10_state.md R70): the result of a sense request. -/
def bitAfter (a : PinAns) (bit : Bool) : Bool :=
  match a with
  | .level b => b
  | _ => bit

/-- Where the procedure goes after an answer: `err` and `timeout` raise at once, dropping the rest of the
procedure (00_scope.md R14, 40_signal_primitives.md R135). -/
def stepAfter (a : PinAns) (rest : List Micro) : List Micro :=
  match a with
  | .ok => rest
  | .level _ => rest
  | .high => rest
  | .timeout => [.raise .busNotHigh]
  | .err c => [.raise (.pinFailure c)]

/-- The engine takes an answer, and the trace lists the request with it (00_scope.md R17). -/
def State.takeAnswer (s : State) (r : PinReq) (a : PinAns) (rest : List Micro) : State :=
  { s with
    seq := .run (stepAfter a rest)
    hid := { s.hid with drv := drvAfter r a s.hid.drv, bit := bitAfter a s.hid.bit }
    port := { s.port with trace := s.port.trace ++ [.pin r a] } }

/-- The engine issues a request that the port never answers, and is held: the trace lists the request, with no answer
(00_scope.md R17, 10_state.md R50). No time passes in this. -/
def State.awaitAnswer (s : State) (r : PinReq) (rest : List Micro) : State :=
  { s with
    seq := .await r rest
    port := { s.port with trace := s.port.trace ++ [.issued r] } }

end Sys2Proof.Machine
end

