-- ==== Sys2Proof/Machine/Procedures.lean ====
section
/-!
DEFINITION. The sub-procedures the commands share, each the list of its steps in the order its rule writes:
WAIT_FOR_HIGH, RESET_SEQ, READ_SLOT, WRITE_SLOT, READ_BYTE_SEQ, WRITE_BYTE_SEQ, MATCH_SEQ, SKIP_SEQ, TWO_READ.
-/

namespace Sys2Proof.Machine

/-- WAIT_FOR_HIGH (40_signal_primitives.md R135). -/
def waitForHigh : List Micro := [.pin .waitHigh]

/-- RESET_SEQ (40_signal_primitives.md R138). -/
def resetSeq : List Micro :=
  waitForHigh ++
  [.pin .driveLow,
   .wait tRstl,
   .pin .release,
   .wait tPds,
   .pin .isLow,
   .act .latchPresence,
   .wait tRrec]

/-- READ_SLOT (41_bit_byte.md R170): the sample is left in `bit`. -/
def readSlot : List Micro :=
  [.pin .driveLow,
   .wait tRdLow,
   .pin .release,
   .wait tRdSample,
   .pin .isHigh,
   .wait tRdRec]

/-- The low time of a write slot (41_bit_byte.md R172). -/
def slotLow (b : Bool) : Nat := if b then tW1Low else tW0Low

/-- The released hold of a write slot (41_bit_byte.md R172). -/
def slotRec (b : Bool) : Nat := if b then tW1Rec else tW0Rec

/-- WRITE_SLOT(b) (41_bit_byte.md R172). -/
def writeSlot (b : Bool) : List Micro :=
  [.pin .driveLow,
   .wait (slotLow b),
   .pin .release,
   .wait (slotRec b)]

/-- READ_BYTE_SEQ (41_bit_byte.md R174): the byte is left in `sh`. -/
def readByteSeq : List Micro := [.act (.loadShift 0x00#8), .act .recvBits]

/-- WRITE_BYTE_SEQ(v) (41_bit_byte.md R176). -/
def writeByteSeq (v : Byte) : List Micro := [.act (.loadShift v), .act .sendBits]

/-- MATCH_SEQ on x[ROMID] (42_addressing.md R200, R201). -/
def matchSeq : List Micro := writeByteSeq cmdMatchRom ++ [.act .startMatch, .act .sendRom]

/-- SKIP_SEQ (42_addressing.md R202). -/
def skipSeq : List Micro := writeByteSeq cmdSkipRom

/-- TWO_READ (43_search.md R225). -/
def twoRead : List Micro := readSlot ++ [.act .latchR0] ++ readSlot ++ [.act .latchR1]

end Sys2Proof.Machine
end

