-- ==== Sys2Proof/Machine/Acts.lean ====
section
/-!
DEFINITION. What each point of a procedure that takes no bus time does (00_scope.md R17): the hidden registers
it leaves, and the steps it goes on with, both read from the state before it.
-/

namespace Sys2Proof.Machine

/-- The loop heads of SEARCH count positions 0 to 63 (43_search.md R232). -/
def lastPos : Nat := 63

/-- A loop counter's step by +1, which ends at the count of the loop (30_encoding.md R115; log 12). -/
def countUp (stop n : Nat) : Nat := min stop (n + 1)

/-- The chosen bit of step 5 (43_search.md R226): 1 only if there is a 1-response and no 0-response. -/
def chosenBit (h : Hidden) : Bool := h.r1 && !h.r0

/-- Both responses: a discrepancy (43_search.md R226). -/
def bothRespond (h : Hidden) : Bool := h.r0 && h.r1

/-- The hidden registers after an act. -/
def Act.hid (a : Act) (s : State) : Hidden :=
  match a with
  | .clearPresV => { s.hid with presV := false }
  | .latchPresence => { s.hid with pres := s.hid.bit, presV := true }
  | .loadShift v => { s.hid with sh := v, k := 0 }
  | .sendBits => s.hid
  | .recvBits => s.hid
  | .storeBit => { s.hid with sh := assignBit s.hid.sh s.hid.k s.hid.bit }
  | .nextBit => { s.hid with k := countUp 8 s.hid.k }
  | .startMatch => { s.hid with j := 0 }
  | .sendRom => s.hid
  | .nextByte => { s.hid with j := countUp 8 s.hid.j }
  | .latchR0 => { s.hid with r0 := !s.hid.bit }
  | .latchR1 => { s.hid with r1 := !s.hid.bit }
  | .searchEnter _ _ => s.hid
  | .searchPresence _ _ => s.hid
  | .searchStart resume =>
    if resume then { s.hid with wLdi := 0#6, i := 0 }
    else { s.hid with wLdi := 0#6, wAddr := 0#64, wDisc := 0#64, i := 0 }
  | .replay => if s.hid.i < s.resumeAt then s.hid else { s.hid with wAddr := s.regs.saddr }
  | .replayWrite =>
    { s.hid with wLdi := if s.discAt s.hid.i then BitVec.ofNat 6 s.hid.i else s.hid.wLdi }
  | .confirm =>
    if bothRespond s.hid then { s.hid with wAddr := assignBit s.hid.wAddr s.resumeAt true } else s.hid
  | .beginWalk => { s.hid with wDisc := assignBit s.regs.sdisc s.resumeAt false, i := s.resumeAt + 1 }
  | .walk => s.hid
  | .choose =>
    if !s.hid.r0 && !s.hid.r1 then s.hid
    else
      { s.hid with
        wAddr := assignBit s.hid.wAddr s.hid.i (chosenBit s.hid)
        wDisc := if bothRespond s.hid then assignBit s.hid.wDisc s.hid.i true else s.hid.wDisc
        wLdi := if bothRespond s.hid then BitVec.ofNat 6 s.hid.i else s.hid.wLdi }
  | .nextPos => { s.hid with i := countUp 64 s.hid.i }
  | .validate => s.hid

/-- The steps an act goes on with, before the rest of the procedure. -/
def Act.next (a : Act) (s : State) : List Micro :=
  match a with
  | .clearPresV => []
  | .latchPresence => []
  | .loadShift _ => []
  | .sendBits =>
    if s.hid.k < 8 then writeSlot (s.hid.sh.getLsbD s.hid.k) ++ [.act .nextBit, .act .sendBits] else []
  | .recvBits => if s.hid.k < 8 then readSlot ++ [.act .storeBit, .act .nextBit, .act .recvBits] else []
  | .storeBit => []
  | .nextBit => []
  | .startMatch => []
  | .sendRom =>
    if s.hid.j < 8 then
      writeByteSeq (romByte s.regs.romid s.hid.j) ++ [.act .nextByte, .act .sendRom]
    else []
  | .nextByte => []
  | .latchR0 => []
  | .latchR1 => []
  | .searchEnter resume alarm =>
    if resume && s.regs.sdisc == 0#64 then [.finish .nothing]
    else resetSeq ++ [.act (.searchPresence resume alarm)]
  | .searchPresence resume alarm =>
    if s.hid.pres then writeByteSeq (searchByte alarm) ++ [.act (.searchStart resume)]
    else [.finish .nothing]
  | .searchStart resume => if resume then [.act .replay] else [.act .walk]
  | .replay =>
    if s.hid.i < s.resumeAt then twoRead ++ [.act .replayWrite, .act .nextPos, .act .replay]
    else twoRead ++ [.act .confirm]
  | .replayWrite => writeSlot (s.addrAt s.hid.i)
  | .confirm =>
    if bothRespond s.hid then writeSlot true ++ [.act .beginWalk] else [.raise .unexpectedResponse]
  | .beginWalk => [.act .walk]
  | .walk => if s.hid.i ≤ lastPos then twoRead ++ [.act .choose] else [.act .validate]
  | .choose =>
    if !s.hid.r0 && !s.hid.r1 then [.raise .unexpectedResponse]
    else writeSlot (chosenBit s.hid) ++ [.act .nextPos, .act .walk]
  | .nextPos => []
  | .validate =>
    if crcValid s.cfg s.hid.wAddr then [.finish .searchState] else [.raise .checksumMismatch]

/-- Run an act: hidden registers and the step pointer, nothing else. -/
def State.runAct (s : State) (a : Act) (rest : List Micro) : State :=
  { s with hid := a.hid s, seq := .run (a.next s ++ rest) }

end Sys2Proof.Machine
end

