-- ==== Sys2Proof/Machine/Sequencer.lean ====
section
/-!
DEFINITION. The sequencer (10_state.md R56, R61): one step of the running command, and a run of steps until the
command ends, a block reset abandons it, or the pin port leaves it waiting (10_state.md R50).
-/

namespace Sys2Proof.Machine

/-- The request needs an answer of the pin port to go on. WAIT_HIGH does not: it times out (R135). -/
def PinReq.needsAnswer : PinReq → Bool
  | .driveLow => true
  | .release => true
  | .isHigh => true
  | .isLow => true
  | .waitHigh => false

/-- The engine is held: a request has been issued that the pin port never answers (10_state.md R50,
93_implementation_defined.md U2; log 2). -/
def State.held (s : State) : Bool :=
  match s.seq with
  | .idle => false
  | .run _ => false
  | .await _ _ => true

/-- The sequencer has no step to take: idle, held, or with no step left (a state no run reaches, log 28). -/
def State.stopped (s : State) : Bool :=
  match s.seq with
  | .idle => true
  | .run [] => true
  | .run (_ :: _) => false
  | .await _ _ => true

/-- The request is answered: there is a draw for it, or it needs none (log 2). A port that is silent
once stays silent: no request after a block reset is answered either (log 30). -/
def State.answers (s : State) (r : PinReq) : Bool := !(r.needsAnswer && s.port.draws.isEmpty)

/-- One pin request that is answered (00_scope.md R13, R14): ACT_LAT cycles, and W for WAIT_HIGH
(70_reset_and_hazards.md R313; log 7). `tmr` counts the wait of WAIT_HIGH only (10_state.md R70). -/
def State.answeredStep (s : State) (r : PinReq) (rest : List Micro) : State :=
  let d := s.nextDraw
  let a := d.answer s.cfg s.hid.drv r
  let w := d.waitCycles s.cfg s.hid.drv r
  let issued := { s with port := { s.port with draws := s.port.draws.tail } }
  issued.afterCycles (w + s.cfg.actLat) fun t =>
    (t.mapHid fun h => { h with tmr := if r = .waitHigh then w else h.tmr }).takeAnswer r a rest

/-- One pin request: answered, or issued with no answer ever to come (10_state.md R50). -/
def State.pinStep (s : State) (r : PinReq) (rest : List Micro) : State :=
  if s.answers r then s.answeredStep r rest else s.awaitAnswer r rest

/-- `Wait(n)`: n microseconds, no request (00_scope.md R15, 60_exceptions.md R285). -/
def State.waitStep (s : State) (us : Nat) (rest : List Micro) : State :=
  s.afterCycles (usCycles s.cfg us) fun t =>
    { (t.mapHid fun h => { h with tmr := usCycles s.cfg us }).log (.wait us) with seq := .run rest }

/-- One step of the running command; a held engine has none (10_state.md R50). -/
def seqStep (s : State) : State :=
  match s.seq with
  | .idle => s
  | .run [] => s
  | .run (.pin r :: rest) => s.pinStep r rest
  | .run (.wait us :: rest) => s.waitStep us rest
  | .run (.act a :: rest) => s.runAct a rest
  | .run (.finish c :: _) => s.afterCycles endCycles fun t => t.endFinish c
  | .run (.raise e :: _) => s.afterCycles endCycles fun t => t.endRaise e
  | .await _ _ => s

/-- At most n steps of the running command, until it ends or is held. -/
def runSeq : Nat → State → State
  | 0, s => s
  | n + 1, s => if s.stopped then s else runSeq n (seqStep s)

/-- More steps than any command takes (30_encoding.md R116: every loop is bounded; log 22). -/
def stepBound : Nat := 4096

/-- `seq <- RUN ; step <- first step`, and the run of the procedure (30_encoding.md R114). -/
def State.runCommand (s : State) (procedure : List Micro) : State :=
  runSeq stepBound { s with seq := .run procedure }

end Sys2Proof.Machine
end

