-- ==== Sys2Proof/Machine/Addressing.lean ====
section
/-!
DEFINITION. The addressing commands (42_addressing.md): MATCH_ROM, SKIP_ROM, SEND_COMMAND.
-/

namespace Sys2Proof.Machine

/-- MATCH_ROM (42_addressing.md R201). -/
def procMatchRom : List Micro := matchSeq ++ [.finish .nothing]

/-- MATCH_ROM (R201). -/
def execMatchRom (s : State) : Host.Outcome State Fault Refusal := .next (s.runCommand procMatchRom)

/-- SKIP_ROM (42_addressing.md R203). -/
def procSkipRom : List Micro := skipSeq ++ [.finish .nothing]

/-- SKIP_ROM (R203). -/
def execSkipRom (s : State) : Host.Outcome State Fault Refusal := .next (s.runCommand procSkipRom)

/-- SEND_COMMAND (42_addressing.md R204): the presence sample is not tested (R205). -/
def procSendCommand (byte : Byte) (byMatch : Bool) : List Micro :=
  [.act .clearPresV] ++ resetSeq ++ (if byMatch then matchSeq else skipSeq) ++ writeByteSeq byte ++
    [.finish .nothing]

/-- SEND_COMMAND (R204). -/
def execSendCommand (byte : Byte) (byMatch : Bool) (s : State) : Host.Outcome State Fault Refusal :=
  .next (s.runCommand (procSendCommand byte byMatch))

end Sys2Proof.Machine
end

