-- ==== Sys2Proof/Machine/BitByte.lean ====
section
/-!
DEFINITION. Bit time slots and the byte transceiver (41_bit_byte.md): READ_BIT, WRITE_BIT, READ_BYTE, WRITE_BYTE.
-/

namespace Sys2Proof.Machine

/-- READ_BIT (41_bit_byte.md R171). -/
def procReadBit : List Micro := readSlot ++ [.finish .rxBit]

/-- READ_BIT (R171). -/
def execReadBit (s : State) : Host.Outcome State Fault Refusal := .next (s.runCommand procReadBit)

/-- WRITE_BIT (41_bit_byte.md R173). -/
def procWriteBit (b : Bool) : List Micro := writeSlot b ++ [.finish .nothing]

/-- WRITE_BIT (R173). -/
def execWriteBit (b : Bool) (s : State) : Host.Outcome State Fault Refusal :=
  .next (s.runCommand (procWriteBit b))

/-- READ_BYTE (41_bit_byte.md R175). -/
def procReadByte : List Micro := readByteSeq ++ [.finish .rxByte]

/-- READ_BYTE (R175). -/
def execReadByte (s : State) : Host.Outcome State Fault Refusal := .next (s.runCommand procReadByte)

/-- WRITE_BYTE (41_bit_byte.md R177). -/
def procWriteByte (byte : Byte) : List Micro := writeByteSeq byte ++ [.finish .nothing]

/-- WRITE_BYTE (R177). -/
def execWriteByte (byte : Byte) (s : State) : Host.Outcome State Fault Refusal :=
  .next (s.runCommand (procWriteByte byte))

end Sys2Proof.Machine
end

