-- ==== Sys2Proof/Machine/Illegal.lean ====
section
/-!
DEFINITION. The illegal commands (30_encoding.md R107, R108, 60_exceptions.md R277): accepted, no pin request, and
at once `raise IllegalCommand()`. Every bit other than those that make the word illegal is ignored.
-/

namespace Sys2Proof.Machine

/-- ILLEGAL (30_encoding.md R108, 60_exceptions.md R277). -/
def procIllegal : List Micro := [.raise .illegalCommand]

/-- ILLEGAL by OP 0x0 (R108). -/
def execIllegalOp0 (_ignored : BitVec 28) (s : State) : Host.Outcome State Fault Refusal :=
  .next (s.runCommand procIllegal)

/-- ILLEGAL by OP 0xF (R108). -/
def execIllegalOpF (_ignored : BitVec 28) (s : State) : Host.Outcome State Fault Refusal :=
  .next (s.runCommand procIllegal)

/-- ILLEGAL by RSVD nonzero (R107). -/
def execIllegalRsvd (_rsvd : BitVec 16) (_low : BitVec 12) (_op : BitVec 4) (s : State) :
    Host.Outcome State Fault Refusal :=
  .next (s.runCommand procIllegal)

end Sys2Proof.Machine
end

