-- ==== Sys2Proof/Machine/Search.lean ====
section
/-!
DEFINITION. The ROM search (43_search.md R240). The procedure enters at step 1; each of its points goes on with
the next ones (Machine/Acts.lean: searchEnter, searchPresence, searchStart, replay, replayWrite, confirm,
beginWalk, walk, choose, nextPos, validate).
-/

namespace Sys2Proof.Machine

/-- SEARCH (43_search.md R240). -/
def procSearch (resume alarm : Bool) : List Micro := [.act (.searchEnter resume alarm)]

/-- SEARCH (R240). -/
def execSearch (resume alarm : Bool) (s : State) : Host.Outcome State Fault Refusal :=
  .next (s.runCommand (procSearch resume alarm))

end Sys2Proof.Machine
end

