-- ==== Sys2Proof/Machine/Signal.lean ====
section
/-!
DEFINITION. The signal primitives (40_signal_primitives.md): RELEASE_BUS, DRIVE_LOW, SENSE_HIGH, SENSE_LOW,
WAIT_HIGH, RESET. Each meaning is the run of the command's own procedure.
-/

namespace Sys2Proof.Machine

/-- RELEASE_BUS (40_signal_primitives.md R131). -/
def procReleaseBus : List Micro := [.pin .release, .finish .nothing]

/-- RELEASE_BUS (R131). -/
def execReleaseBus (s : State) : Host.Outcome State Fault Refusal := .next (s.runCommand procReleaseBus)

/-- DRIVE_LOW (40_signal_primitives.md R132). -/
def procDriveLow : List Micro := [.pin .driveLow, .finish .nothing]

/-- DRIVE_LOW (R132). -/
def execDriveLow (s : State) : Host.Outcome State Fault Refusal := .next (s.runCommand procDriveLow)

/-- SENSE_HIGH (40_signal_primitives.md R133). -/
def procSenseHigh : List Micro := [.pin .isHigh, .finish .rxBit]

/-- SENSE_HIGH (R133). -/
def execSenseHigh (s : State) : Host.Outcome State Fault Refusal := .next (s.runCommand procSenseHigh)

/-- SENSE_LOW (40_signal_primitives.md R134). -/
def procSenseLow : List Micro := [.pin .isLow, .finish .rxBit]

/-- SENSE_LOW (R134). -/
def execSenseLow (s : State) : Host.Outcome State Fault Refusal := .next (s.runCommand procSenseLow)

/-- WAIT_HIGH (40_signal_primitives.md R136). -/
def procWaitHigh : List Micro := waitForHigh ++ [.finish .nothing]

/-- WAIT_HIGH (R136). -/
def execWaitHigh (s : State) : Host.Outcome State Fault Refusal := .next (s.runCommand procWaitHigh)

/-- RESET (40_signal_primitives.md R139). -/
def procReset : List Micro := [.act .clearPresV] ++ resetSeq ++ [.finish .nothing]

/-- RESET (R139). -/
def execReset (s : State) : Host.Outcome State Fault Refusal := .next (s.runCommand procReset)

end Sys2Proof.Machine
end

