-- ==== Sys2Proof/Machine/Dispatch.lean ====
section
/-!
DEFINITION. One arm per command: its meaning.
-/

namespace Sys2Proof.Machine

def exec (i : Instr) (s : State) : Host.Outcome State Fault Refusal :=
  match i with
  | .releaseBus => Sys2Proof.Machine.execReleaseBus s
  | .driveLow => Sys2Proof.Machine.execDriveLow s
  | .senseHigh => Sys2Proof.Machine.execSenseHigh s
  | .senseLow => Sys2Proof.Machine.execSenseLow s
  | .waitHigh => Sys2Proof.Machine.execWaitHigh s
  | .reset => Sys2Proof.Machine.execReset s
  | .readBit => Sys2Proof.Machine.execReadBit s
  | .writeBit b => Sys2Proof.Machine.execWriteBit b s
  | .readByte => Sys2Proof.Machine.execReadByte s
  | .writeByte byte => Sys2Proof.Machine.execWriteByte byte s
  | .matchRom => Sys2Proof.Machine.execMatchRom s
  | .skipRom => Sys2Proof.Machine.execSkipRom s
  | .sendCommand byte byMatch => Sys2Proof.Machine.execSendCommand byte byMatch s
  | .search resume alarm => Sys2Proof.Machine.execSearch resume alarm s
  | .illegalOp0 ignored => Sys2Proof.Machine.execIllegalOp0 ignored s
  | .illegalOpF ignored => Sys2Proof.Machine.execIllegalOpF ignored s
  | .illegalRsvd rsvd low op => Sys2Proof.Machine.execIllegalRsvd rsvd low op s

end Sys2Proof.Machine
end

