-- ==== Sys2Proof/Machine/Boundary.lean ====
section
/-!
DEFINITION. The steps of the machine at its boundary: while idle, the next input of the host's side, which may
start a command; while held by the pin port, the next input that may come before an answer. Machine/Step.lean
calls these.
-/

namespace Sys2Proof.Machine

/-- A clock cycle in which nothing happens (60_exceptions.md R289). -/
def State.tick (s : State) : State := { s with now := s.now + 1 }

/-- Start the command of an accepted word: the operands are read from op_word (10_state.md R62). -/
def State.startCommand (s : State) : Host.Outcome State Fault Refusal := exec (decode s.hid.opWord) s

/-- A host write while the engine is idle: a write to CMD is accepted and starts its command (30_encoding.md
R114), any other is stored (20_memory.md R83). -/
def State.idleWrite (s : State) (off : Offset) (v : Word) : Host.Outcome State Fault Refusal :=
  if regAt off = some .cmd then (s.accept v).startCommand else .next (s.writeWord off v)

/-- The block reset comes no later than cycle c, before anything the host does in that cycle (R300; log 15): the
cycle it falls in. -/
def State.resetBy (s : State) (c : Nat) : Option Nat :=
  match s.resets with
  | [] => none
  | r :: _ => if r ≤ c then some (max s.now r) else none

/-- The next block reset, whenever it comes, or else a clock cycle of waiting. -/
def State.resetOrTick (s : State) : State :=
  match s.resets with
  | [] => s.tick
  | r :: _ => s.resetNow (max s.now r)

/-- One step of an idle engine: the next access of the host or block reset, at its cycle, or an idle cycle
(R289). -/
def State.idleStep (s : State) : Host.Outcome State Fault Refusal :=
  match s.host.queue with
  | [] => .next s.resetOrTick
  | inp :: queue =>
    match s.resetBy (inp.due.cycle s.now) with
    | some r => .next (s.resetNow r)
    | none =>
      match inp.op with
      | .write off v => (s.takeInput inp.due queue).idleWrite off v
      | .read off => .next ((s.takeInput inp.due queue).hostRead off)

/-- One step of an engine held by the pin port (10_state.md R50): the next access of the host or block reset, or
a cycle of waiting. An access that waits for the command's end does not come (log 9). -/
def State.heldStep (s : State) : State :=
  match s.host.queue with
  | [] => s.resetOrTick
  | ⟨.whenIdle, _⟩ :: _ => s.resetOrTick
  | ⟨.atCycle c, op⟩ :: queue =>
    match s.resetBy (max s.now c) with
    | some r => s.resetNow r
    | none => (s.takeInput (.atCycle c) queue).access op

/-- One step of an engine whose command can go on: the rest of the command. -/
def State.resumeStep (s : State) : State := runSeq stepBound s

end Sys2Proof.Machine
end

