-- ==== Sys2Proof/Machine/Step.lean ====
section
/-!
DEFINITION. The step of the machine, and how a command word is placed to be the next one run. Nothing is fetched
(20_memory.md R80): a command runs because the host writes its word to CMD (30_encoding.md R114; log 19).
-/

namespace Sys2Proof.Machine

/-- One step. Idle: the next input of the host's side; a CMD write runs its whole command, with the host's
accesses at their cycles in it (log 1). Held by the pin port: the next input. Otherwise the running command goes
on. A step pointer that names no step is a fault (log 28). -/
def step (s : State) : Host.Outcome State Fault Refusal :=
  match s.seq with
  | .idle => s.idleStep
  | .run [] => .fault .noStep
  | .run (_ :: _) => .next s.resumeStep
  | .await _ _ => .next s.heldStep

/-- The host's write of a word to CMD (offset 0x00), once BUSY = 0. -/
def cmdWrite (w : Word) : Input := { due := .whenIdle, op := .write 0x00#6 w }

/-- The state in which the next step accepts and runs the command word of the table's `w`: the host's next access
is its write to CMD, no command runs, and no block reset is overdue (log 19). -/
def State.withFetchWord (s : State) (nbits w : Nat) : State :=
  { s with
    seq := .idle
    resets := s.resets.dropWhile (· ≤ s.now)
    host := { s.host with queue := cmdWrite (BitVec.ofNat 32 (w % 2 ^ nbits)) :: s.host.queue } }

end Sys2Proof.Machine
end

