-- ==== Sys2Proof/Machine/HostSeq.lean ====
section
/-!
DEFINITION. The host's pseudo-instructions (30_encoding.md R113): sequences of engine commands and register reads,
run by the host, which waits for each command's end as WAIT_DONE does (R112). WRITE1 and WRITE0 are `writeBit true` and
`writeBit false`. None of them is an engine command (log 26).
-/

namespace Sys2Proof.Machine

/-- The offset of RX (10_state.md R31). -/
def rxOffset : Offset := 0x0C#6

/-- The offset of SADDR_LO (10_state.md R31). -/
def saddrLoOffset : Offset := 0x1C#6

/-- The offset of SADDR_HI (10_state.md R31). -/
def saddrHiOffset : Offset := 0x20#6

/-! ## A command line of a host program (30_encoding.md R112) -/

/-- Go on from a next state. A stop stays a stop. -/
def andThen (o : Host.Outcome State Fault Refusal) (f : State → Host.Outcome State Fault Refusal) :
    Host.Outcome State Fault Refusal :=
  match o with
  | .next s => f s
  | .fault r => .fault r
  | .refused r => .refused r

/-- The host waits in vain: the engine is held by the pin port and no block reset is to come (10_state.md R50). -/
def State.stuck (s : State) : Bool := s.held && s.resets.isEmpty

/-- Steps in which every input there is comes, with one for a running command and one for the host's own write. -/
def State.waitBound (s : State) : Nat := s.host.queue.length + s.resets.length + 2

/-- At most n steps of the machine, until what the host waits for holds, or it waits in vain. -/
def waitUntil (p : State → Bool) : Nat → State → Host.Outcome State Fault Refusal
  | 0, s => .next s
  | n + 1, s => if p s || s.stuck then .next s else andThen (step s) (waitUntil p n)

/-- WAIT_DONE (R112): until BUSY = 0. -/
def waitDone (s : State) : Host.Outcome State Fault Refusal := waitUntil (fun t => !t.busy) s.waitBound s

/-- The engine takes the host's write of w to CMD, once BUSY = 0, and after the block resets that come first. -/
def writeCmd (w : Word) (s : State) : Host.Outcome State Fault Refusal :=
  let asked : State := { s with host := { s.host with queue := cmdWrite w :: s.host.queue } }
  waitUntil (fun t => t.host.queue.length ≤ s.host.queue.length) asked.waitBound asked

/-- A command line: write its word to CMD, then wait for completion (R112). -/
def issue (i : Instr) (s : State) : Host.Outcome State Fault Refusal := andThen (writeCmd (encode i) s) waitDone

/-- The command succeeded: it has ended, with DONE = 1 and ERR = 0 (10_state.md R35). One that a block reset abandoned
has DONE = 0 (log 26). The host looks once the command has ended, before a block reset that is due in the next cycle
(log 32). -/
def State.succeeded (s : State) : Bool := !s.busy && s.regs.done && s.regs.err == .none

/-! ## The pseudo-instructions (30_encoding.md R113) -/

/-- WRITE_BYTES (R113): the first failure aborts the remaining elements. -/
def writeBytes : List Byte → State → Host.Outcome State Fault Refusal
  | [], s => .next s
  | v :: vs, s => andThen (issue (.writeByte v) s) fun t => if t.succeeded then writeBytes vs t else .next t

/-- READ_BYTES (R113): each byte is read from RX; the first failure aborts the rest, and the bytes of the successful
reads are kept. The host's look at DONE and ERR and its read of RX come before a block reset that is due in the cycle
just after the command's end (log 32). -/
def readBytes : Nat → State → List Byte × Host.Outcome State Fault Refusal
  | 0, s => ([], .next s)
  | n + 1, s =>
    match issue .readByte s with
    | .next t =>
      if t.succeeded then
        ((t.readWord rxOffset).extractLsb' 0 8 :: (readBytes n (t.hostRead rxOffset)).1,
          (readBytes n (t.hostRead rxOffset)).2)
      else ([], .next t)
    | .fault r => ([], .fault r)
    | .refused r => ([], .refused r)

/-- The address of a Found outcome, as the host reads it (43_search.md R239). -/
def State.readSaddr (s : State) : Rom := s.readWord saddrHiOffset ++ s.readWord saddrLoOffset

/-- SEARCH_ALL (30_encoding.md R113), at most n passes: a pass, then resumed passes, until FOUND = 0 or ERR is not
0. The host's look at the flags and its reads of SADDR come before a block reset that is due in the cycle just after the
command's end (log 32). -/
def searchAll (alarm : Bool) : Nat → Bool → State → List Rom × Host.Outcome State Fault Refusal
  | 0, _, s => ([], .next s)
  | n + 1, resume, s =>
    match issue (.search resume alarm) s with
    | .next t =>
      if t.succeeded && t.regs.found then
        (t.readSaddr :: (searchAll alarm n true ((t.hostRead saddrLoOffset).hostRead saddrHiOffset)).1,
          (searchAll alarm n true ((t.hostRead saddrLoOffset).hostRead saddrHiOffset)).2)
      else ([], .next t)
    | .fault r => ([], .fault r)
    | .refused r => ([], .refused r)

end Sys2Proof.Machine
end

