-- ==== Sys2Proof/Safety.lean ====
section
/-!
DEFINITION. The terms the claims are stated in: what a state must meet for a command to run undisturbed, how a
command ends, the shapes of the pin trace (written out from the rules, in microseconds, not from the model's
constants), the search pass as a function of the responses, the reference bus, and the invariant of the machine.
-/

namespace Sys2Proof.Machine

/-! ## Runs -/

/-- Neither the host nor the block reset has anything to come. -/
def State.quiet (s : State) : Prop := s.host.queue = [] ∧ s.resets = []

/-- The flags as the acceptance of a command leaves them (30_encoding.md R114). -/
def State.accepted (s : State) : Prop :=
  s.regs.done = false ∧ s.regs.err = .none ∧ s.regs.found = false ∧ s.hid.presV = false

/-- A command has just been accepted, and nothing disturbs its run. -/
def State.ready (s : State) : Prop := s.quiet ∧ s.accepted

/-- No draw of the list is an error of the pin port. -/
def allOk (p : Params) (ds : List PinDraw) : Prop := ∀ d ∈ ds, d.fault p = none

/-- The draw answers a WAIT_HIGH of an engine that does not drive the line: high within the 250 µs window, its end
included (40_signal_primitives.md R137). -/
def PinDraw.idlesHigh (d : PinDraw) (p : Params) : Prop :=
  d.high = true ∧ d.delay ≤ 250 * p.ticksPerUs

/-- The line is not sensed high within the window, and no error comes in it (40_signal_primitives.md R135): no draw at
all, or one that comes late, or one of a line that stays low. -/
def State.missesHigh (s : State) : Prop :=
  s.port.draws = [] ∨ ∃ d ds, s.port.draws = d :: ds ∧
    (250 * s.cfg.ticksPerUs < d.delay ∨ d.fault s.cfg = none ∧ (d.high = false ∨ s.hid.drv = true))

/-- The command i, run from s, ends after `cycles` clock cycles with the host registers `regs`, drive request
`drv` and the trace `evs`, leaving the draws `rest`. Nothing else of the state changes but hidden registers, which no
later command reads (10_state.md R71). -/
def endsWith (i : Instr) (s : State) (regs : Regs) (drv : Bool) (evs : List TraceEv) (rest : List PinDraw)
    (cycles : Nat) : Prop :=
  ∃ t, exec i s = .next t ∧ t.seq = .idle ∧ t.regs = regs ∧ t.hid.drv = drv ∧
    t.port = { draws := rest, trace := s.port.trace ++ evs } ∧ t.now = s.now + cycles ∧
    t.host = s.host ∧ t.resets = s.resets ∧ t.cfg = s.cfg

/-- t is s after the block reset at cycle r (10_state.md R75, 70_reset_and_hazards.md R300): the reset values, no command,
and a trace that adds evs, what had been issued by then (00_scope.md R17), and no further pin request, with the draws ds
left and the resets rs still to come. The mark in the trace is the model's own (log 15). -/
def State.wasReset (s t : State) (r : Nat) (rs : List Nat) (evs : List TraceEv) (ds : List PinDraw) : Prop :=
  t.regs = State.reset.regs ∧ t.hid = State.reset.hid ∧ t.seq = .idle ∧
    t.port = { draws := ds, trace := s.port.trace ++ evs ++ [.blockReset s.seq.current] } ∧
    t.resets = rs ∧ t.now = max s.now r ∧ t.cfg = s.cfg

/-- The next step of the running command, which had issued evs, is cut off by the block reset at cycle r. The host's
accesses due before r have come, and the others are still to come. -/
def State.cutOff (s : State) (r : Nat) (rs : List Nat) (evs : List TraceEv) (ds : List PinDraw) : Prop :=
  s.wasReset (seqStep s) r rs evs ds ∧
    (seqStep s).host.queue = s.host.queue.dropWhile fun inp => inp.due.before (max s.now r)

/-- Clock cycles of a command that waits `us` microseconds and `extra` cycles, and issues n pin requests
(70_reset_and_hazards.md R313; one cycle for the end, log 6). -/
def cycles (p : Params) (us extra n : Nat) : Nat := us * p.ticksPerUs + extra + n * p.actLat + 1

/-! ## Shapes of the pin trace (40_signal_primitives.md R138, 41_bit_byte.md R170, R172) -/

/-- A read slot that samples b (R170). -/
def readSlotEvs (b : Bool) : List TraceEv :=
  [.pin .driveLow .ok, .wait 6, .pin .release .ok, .wait 9, .pin .isHigh (.level b), .wait 55]

/-- A write slot of b (R172). -/
def writeSlotEvs (b : Bool) : List TraceEv :=
  if b then [.pin .driveLow .ok, .wait 6, .pin .release .ok, .wait 64]
  else [.pin .driveLow .ok, .wait 60, .pin .release .ok, .wait 10]

/-- A reset sequence with the presence sample p (R138). -/
def resetEvs (p : Bool) : List TraceEv :=
  [.pin .waitHigh .high, .pin .driveLow .ok, .wait 480, .pin .release .ok, .wait 70,
    .pin .isLow (.level p), .wait 410]

/-- The write slots of the n low bits of v, least-significant bit first (20_memory.md R85, R87). -/
def bitsEvs {w : Nat} (v : BitVec w) (n : Nat) : List TraceEv :=
  (List.range n).flatMap fun k => writeSlotEvs (v.getLsbD k)

/-- A byte on the wire (20_memory.md R85). -/
def byteEvs (v : Byte) : List TraceEv := bitsEvs v 8

/-- A match: 0x55, then the 64 address bits in order (42_addressing.md R200, 20_memory.md R87). -/
def matchEvs (a : Rom) : List TraceEv := byteEvs 0x55#8 ++ bitsEvs a 64

/-- The draw at index n. -/
def drawAt (ds : List PinDraw) (n : Nat) : PinDraw := ds.getD n PinDraw.silent

/-- The read slots of n bits, from the draws ds, three a slot, the third the sample. -/
def readEvs (ds : List PinDraw) (n : Nat) : List TraceEv :=
  (List.range n).flatMap fun k => readSlotEvs (drawAt ds (3 * k + 2)).high

/-- The bits a trace of write slots sends, told by the low time of each slot (41_bit_byte.md R172). -/
def slotBits : List TraceEv → List Bool
  | .pin .driveLow .ok :: .wait 6 :: .pin .release .ok :: .wait 64 :: evs => true :: slotBits evs
  | .pin .driveLow .ok :: .wait 60 :: .pin .release .ok :: .wait 10 :: evs => false :: slotBits evs
  | _ => []

/-- The draws of a fixture that answers each read slot with the next bit of the list. -/
def echoDraws (bits : List Bool) : List PinDraw :=
  bits.flatMap fun b => [⟨none, true, 0⟩, ⟨none, true, 0⟩, ⟨none, b, 0⟩]

/-! ## The search pass (43_search.md) -/

/-- The working values of a pass: w_addr, w_disc, w_ldi. -/
structure Pass where
  addr : Rom
  disc : Rom
  ldi : BitVec 6
  deriving DecidableEq, Repr

/-- Step 5 (R232) on n positions from position i: the truth table of R226 on the responses (r0, r1). -/
def walkPass (resp : Nat → Bool × Bool) : Nat → Nat → Pass → Option Pass
  | 0, _, p => some p
  | n + 1, i, p =>
    match resp i with
    | (false, false) => none
    | (true, false) => walkPass resp n (i + 1) { p with addr := assignBit p.addr i false }
    | (false, true) => walkPass resp n (i + 1) { p with addr := assignBit p.addr i true }
    | (true, true) =>
      walkPass resp n (i + 1)
        { addr := assignBit p.addr i false, disc := assignBit p.disc i true, ldi := BitVec.ofNat 6 i }

/-- The re-derived last-discrepancy index (R229): the highest i below L with D[i] = 1, or 0. -/
def rederive (disc : Rom) : Nat → BitVec 6
  | 0 => 0#6
  | l + 1 => if disc.getLsbD l then BitVec.ofNat 6 l else rederive disc l

/-- Steps 4 to 5 of a pass (R227 to R235); `none` is UnexpectedResponse. -/
def searchPass (resume : Bool) (a d : Rom) (l : Nat) (resp : Nat → Bool × Bool) : Option Pass :=
  if resume then
    if resp l = (true, true) then
      walkPass resp (63 - l) (l + 1)
        { addr := assignBit a l true, disc := assignBit d l false, ldi := rederive d l }
    else none
  else walkPass resp 64 0 { addr := 0#64, disc := 0#64, ldi := 0#6 }

/-- The responses at position i, from the draws of a whole pass: RESET_SEQ takes 4 requests, the command byte 16,
a position 8, with the samples at the third and the sixth; a response is a slot sampled low (R225). -/
def respAt (ds : List PinDraw) (i : Nat) : Bool × Bool :=
  (!(drawAt ds (20 + 8 * i + 2)).high, !(drawAt ds (20 + 8 * i + 5)).high)

/-- The two read slots of position i (R225). -/
def twoReadEvs (ds : List PinDraw) (i : Nat) : List TraceEv :=
  readSlotEvs (!(respAt ds i).1) ++ readSlotEvs (!(respAt ds i).2)

/-- The trace of the first n positions of a pass that writes the bits of addr (R248). -/
def passEvsTo (ds : List PinDraw) (addr : Rom) (n : Nat) : List TraceEv :=
  (List.range n).flatMap fun i => twoReadEvs ds i ++ writeSlotEvs (addr.getLsbD i)

/-- The trace of the 64 positions of a pass. -/
def passEvs (ds : List PinDraw) (addr : Rom) : List TraceEv := passEvsTo ds addr 64

/-- The bits that a pass which comes to position i writes below it (R228, R231 to R235); `none` if an unexpected
response ends the pass before i. -/
def bitsUpTo (resume : Bool) (a d : Rom) (l : Nat) (resp : Nat → Bool × Bool) (i : Nat) : Option Rom :=
  if resume then
    if i ≤ l then some a
    else if resp l = (true, true) then
      (walkPass resp (i - (l + 1)) (l + 1)
        { addr := assignBit a l true, disc := assignBit d l false, ldi := rederive d l }).map Pass.addr
    else none
  else (walkPass resp i 0 { addr := 0#64, disc := 0#64, ldi := 0#6 }).map Pass.addr

/-- Position i is where a pass that has come to it meets an unexpected response: at L of a resumed pass, any but both
responses (R230); in the walk, no response (R232). -/
def unexpectedAt (resume : Bool) (l : Nat) (resp : Nat → Bool × Bool) (i : Nat) : Prop :=
  if resume then i = l ∧ resp l ≠ (true, true) ∨ l < i ∧ resp i = (false, false)
  else resp i = (false, false)

/-- 10_state.md R48 (a) and (b): SLDI is the highest set bit of SDISC, and 0 if there is none. -/
def searchStateOk (disc : Rom) (ldi : BitVec 6) : Prop :=
  (disc ≠ 0#64 → disc.getLsbD ldi.toNat = true ∧ ∀ j, ldi.toNat < j → disc.getLsbD j = false) ∧
    (disc = 0#64 → ldi = 0#6)

/-! ## The reference bus (95_test_vectors.md section 2, 43_search.md R243) -/

/-- The two addresses have the same bits below position i. -/
def agreeBelow (i : Nat) (a b : Rom) : Bool := (List.range i).all fun j => a.getLsbD j == b.getLsbD j

/-- a comes before b in transmission order: at the first bit in which they differ, a has 0 (R243). -/
def txBefore (a b : Rom) : Prop :=
  ∃ i, i < 64 ∧ agreeBelow i a b = true ∧ a.getLsbD i = false ∧ b.getLsbD i = true

/-- The devices still live at position i of a pass that writes the bits of a (43_search.md R236). -/
def liveAt (devs : List Rom) (a : Rom) (i : Nat) : List Rom := devs.filter (agreeBelow i a)

/-- A live device has bit v at position i: it pulls the line low in that read slot. -/
def responds (devs : List Rom) (a : Rom) (i : Nat) (v : Bool) : Bool :=
  (liveAt devs a i).any fun d => d.getLsbD i == v

/-- A draw with no error and the given level. -/
def PinDraw.level (b : Bool) : PinDraw := { err := none, high := b, delay := 0 }

/-- The draws of the 64 positions of a pass over the devices, that writes the bits of a. -/
def busDraws (devs : List Rom) (a : Rom) : List PinDraw :=
  (List.range 64).flatMap fun i =>
    [.level true, .level true, .level (!responds devs a i false),
     .level true, .level true, .level (!responds devs a i true),
     .level true, .level true]

/-- The draws of a whole pass over a bus that is not empty: the line idles high, presence is sampled low, and the
command byte is sent. -/
def busPass (devs : List Rom) (a : Rom) : List PinDraw :=
  [.level true, .level true, .level true, .level false] ++ List.replicate 16 (.level true) ++
    busDraws devs a

/-- Position i is a branch of the devices left unexplored by the pass that wrote a: a took 0, and a device that
agrees below i has 1 (10_state.md R46). -/
def branchLeft (devs : List Rom) (a : Rom) (i : Nat) : Bool := !a.getLsbD i && responds devs a i true

/-- SDISC is the set of the branches left by the pass that wrote a. -/
def discOf (devs : List Rom) (a disc : Rom) : Prop := ∀ i, i < 64 → disc.getLsbD i = branchLeft devs a i

/-! ## The invariant -/

/-- drv as a pin trace tells it: the last acknowledged drive request since the last block reset (10_state.md R39,
R69, R75). -/
def lastDrive (evs : List TraceEv) : Bool :=
  evs.foldl
    (fun acc e =>
      match e with
      | .pin .driveLow .ok => true
      | .pin .release .ok => false
      | .blockReset _ => false
      | _ => acc)
    false

/-- The step ends a procedure, or goes on with steps that do. -/
def Micro.endsProcedure : Micro → Bool
  | .pin _ => false
  | .wait _ => false
  | .act a =>
    match a with
    | .searchEnter _ _ => true
    | .searchPresence _ _ => true
    | .searchStart _ => true
    | .replay => true
    | .confirm => true
    | .beginWalk => true
    | .walk => true
    | .choose => true
    | .validate => true
    | _ => false
  | .finish _ => true
  | .raise _ => true

/-- A pin error code of PIN_ERR_W bits (00_scope.md R9). -/
def codeFits (p : Params) (c : Word) : Prop := c.toNat < 2 ^ p.pinErrW

/-- The step raises no pin error code wider than PIN_ERR_W. -/
def Micro.fits (p : Params) : Micro → Prop
  | .raise (.pinFailure c) => codeFits p c
  | _ => True

/-- The step pointer names a step, the procedure has an end, and its codes fit. A held engine waits on a request that can
hold it (40_signal_primitives.md R135). -/
def Sequencer.sound (p : Params) : Sequencer → Prop
  | .idle => True
  | .run step => (∃ m ∈ step.getLast?, m.endsProcedure = true) ∧ ∀ m ∈ step, m.fits p
  | .await r _ => r ≠ .waitHigh

/-- The invariant of the machine: drv follows the trace (R39); the counters stay in their ranges (R66); PINERR fits
PIN_ERR_W (R43); a running command has DONE, ERR and FOUND clear (R114), with a sound step pointer (R61); the
trace of a held engine ends with the request it waits on, issued and not answered (00_scope.md R17, 10_state.md R50). -/
structure State.Inv (s : State) : Prop where
  drive : s.hid.drv = lastDrive s.port.trace
  counters : s.hid.i ≤ 64 ∧ s.hid.k ≤ 8 ∧ s.hid.j ≤ 8
  pinerr : codeFits s.cfg s.regs.pinerr
  running : s.busy = true → s.regs.done = false ∧ s.regs.err = .none ∧ s.regs.found = false
  sound : s.seq.sound s.cfg
  pending : ∀ r rest, s.seq = .await r rest → s.port.trace.getLast? = some (.issued r)

/-- A safe run: no step from the state stops with a fault or a refusal. -/
def State.safe (s : State) : Prop := ∃ t, step s = .next t

end Sys2Proof.Machine
end

