-- ==== Sys2Proof/Certificates/Slice0/Obligations.lean ====
section
/-!
DEFINITION. The statements for the provers, each a definition Obligations.<Name> : Prop. The docstring of each
names the rules it formalises. Where a statement speaks of clock cycles, the one cycle of acceptance and the one
cycle of a command's end are the model's choice (log 6), and so are the cycles of WAIT_HIGH (log 7).
-/

open Sys2Proof Sys2Proof.Machine

/-! ## Encoding (30_encoding.md) -/

/-- Words written out from the table of 30_encoding.md R112, with the reserved words of R107 and R108. -/
def Obligations.SpecWordsDecode : Prop :=
  decode 0x00000001#32 = .releaseBus ∧ decode 0x00000002#32 = .driveLow ∧
  decode 0x00000003#32 = .senseHigh ∧ decode 0x00000004#32 = .senseLow ∧
  decode 0x00000005#32 = .waitHigh ∧ decode 0x00000006#32 = .reset ∧
  decode 0x00000007#32 = .readBit ∧ decode 0x00000088#32 = .writeBit true ∧
  decode 0x00000009#32 = .readByte ∧ decode 0x0000CC0A#32 = .writeByte 0xCC#8 ∧
  decode 0x0000000B#32 = .matchRom ∧ decode 0x0000000C#32 = .skipRom ∧
  decode 0x0000444D#32 = .sendCommand 0x44#8 true ∧ decode 0x0000440D#32 = .sendCommand 0x44#8 false ∧
  decode 0x0000001E#32 = .search true false ∧ decode 0x0000002E#32 = .search false true ∧
  (decode 0x00000000#32).isIllegal = true ∧ (decode 0x0000000F#32).isIllegal = true ∧
  (decode 0x00010006#32).isIllegal = true ∧ (decode 0x80000007#32).isIllegal = true

/-- Decoding the word of a well-formed command gives the command back, with every operand (30_encoding.md R101,
R109, R110). -/
def Obligations.DecodeEncodeAgree : Prop :=
  ∀ i : Instr, i.wf = true → decode (encode i) = i

/-- The decoder of 30_encoding.md R110, case by case, on every word, and what the mask 0xFFFF000F of the opcode table
takes in. -/
def Obligations.DecodeFollowsTheOpcodeMap : Prop :=
  ∀ w : Word,
    (∀ op : BitVec 4, w &&& 0xFFFF000F#32 = 0#28 ++ op ↔ w.extractLsb' 16 16 = 0#16 ∧ w.extractLsb' 0 4 = op) ∧
    (w.extractLsb' 16 16 ≠ 0#16 → (decode w).isIllegal = true) ∧
    (w.extractLsb' 16 16 = 0#16 →
      (w.extractLsb' 0 4 = 0x1#4 → decode w = .releaseBus) ∧
      (w.extractLsb' 0 4 = 0x2#4 → decode w = .driveLow) ∧
      (w.extractLsb' 0 4 = 0x3#4 → decode w = .senseHigh) ∧
      (w.extractLsb' 0 4 = 0x4#4 → decode w = .senseLow) ∧
      (w.extractLsb' 0 4 = 0x5#4 → decode w = .waitHigh) ∧
      (w.extractLsb' 0 4 = 0x6#4 → decode w = .reset) ∧
      (w.extractLsb' 0 4 = 0x7#4 → decode w = .readBit) ∧
      (w.extractLsb' 0 4 = 0x8#4 → decode w = .writeBit (w.getLsbD 7)) ∧
      (w.extractLsb' 0 4 = 0x9#4 → decode w = .readByte) ∧
      (w.extractLsb' 0 4 = 0xA#4 → decode w = .writeByte (w.extractLsb' 8 8)) ∧
      (w.extractLsb' 0 4 = 0xB#4 → decode w = .matchRom) ∧
      (w.extractLsb' 0 4 = 0xC#4 → decode w = .skipRom) ∧
      (w.extractLsb' 0 4 = 0xD#4 → decode w = .sendCommand (w.extractLsb' 8 8) (w.getLsbD 6)) ∧
      (w.extractLsb' 0 4 = 0xE#4 → decode w = .search (w.getLsbD 4) (w.getLsbD 5)) ∧
      (w.extractLsb' 0 4 = 0x0#4 → (decode w).isIllegal = true) ∧
      (w.extractLsb' 0 4 = 0xF#4 → (decode w).isIllegal = true))

/-- Operand fields that the opcode does not use may hold any value (30_encoding.md R106): two words with the same
opcode that agree on the fields it does use decode to the same command, and all illegal words run alike. -/
def Obligations.UnusedFieldsAreIgnored : Prop :=
  (∀ (v w : Word) (s : State), (decode v).isIllegal = true → (decode w).isIllegal = true →
    exec (decode v) s = exec (decode w) s) ∧
  ∀ v w : Word,
    v.extractLsb' 16 16 = 0#16 → w.extractLsb' 16 16 = 0#16 →
    v.extractLsb' 0 4 = w.extractLsb' 0 4 → v.extractLsb' 0 4 ≠ 0x0#4 → v.extractLsb' 0 4 ≠ 0xF#4 →
    (v.extractLsb' 0 4 = 0x8#4 → v.getLsbD 7 = w.getLsbD 7) →
    (v.extractLsb' 0 4 = 0xA#4 ∨ v.extractLsb' 0 4 = 0xD#4 → v.extractLsb' 8 8 = w.extractLsb' 8 8) →
    (v.extractLsb' 0 4 = 0xD#4 → v.getLsbD 6 = w.getLsbD 6) →
    (v.extractLsb' 0 4 = 0xE#4 → v.getLsbD 4 = w.getLsbD 4 ∧ v.getLsbD 5 = w.getLsbD 5) →
    decode v = decode w

/-! ## Acceptance and the step (30_encoding.md R114) -/

/-- A host write of w to CMD while idle is accepted: the step runs the decoded command from the state of 30_encoding.md
R114, in the cycle after the write's (log 6). -/
def Obligations.StepRunsTheAcceptedCommand : Prop :=
  ∀ (s : State) (off : Offset) (w : Word) (due : Due) (queue : List Input),
    s.seq = .idle → s.host.queue = ⟨due, .write off w⟩ :: queue → off.extractLsb' 2 4 = 0x0#4 →
    s.resetBy (due.cycle s.now) = none →
    step s = exec (decode w)
      { s with
        regs := { s.regs with cmd := w, done := false, err := .none, found := false }
        hid := { s.hid with opWord := w, presV := false }
        host := { s.host with queue := queue }
        now := due.cycle s.now + 1 }

/-- A word placed to be run next is the one the next step runs (log 19): the command the table's decoder reads from
it, with the word in CMD. -/
def Obligations.PlacedWordRunsNext : Prop :=
  ∀ (s : State) (nbits w : Nat), nbits ≤ 32 →
    ∃ i a, decodeTableWord nbits w = some i ∧ step (s.withFetchWord nbits w) = exec i a ∧
      a.regs.cmd = BitVec.ofNat 32 (w % 2 ^ nbits) ∧ a.accepted ∧ a.port = s.port ∧ a.host = s.host ∧
      a.regs.romid = s.regs.romid ∧ a.regs.saddr = s.regs.saddr ∧ a.regs.sdisc = s.regs.sdisc ∧
      a.regs.sldi = s.regs.sldi ∧ a.hid.drv = s.hid.drv ∧ a.cfg = s.cfg

/-! ## Host registers (10_state.md, 20_memory.md) -/

/-- The STATUS register (10_state.md R33): its fields, the six codes of ERR (R40, 60_exceptions.md R270), its reset value,
and the effect of a write, which is accepted whether or not a command runs. -/
def Obligations.StatusRegisterLayout : Prop :=
  ∀ (s : State) (v : Word),
    (s.readWord 0x04#6).getLsbD 0 = s.busy ∧
    (s.readWord 0x04#6).getLsbD 1 = s.regs.done ∧
    (s.readWord 0x04#6).getLsbD 2 = s.regs.presence ∧
    (s.readWord 0x04#6).getLsbD 3 = s.regs.found ∧
    (s.readWord 0x04#6).getLsbD 4 = s.regs.rej ∧
    (s.readWord 0x04#6).getLsbD 5 = s.hid.drv ∧
    (s.readWord 0x04#6).extractLsb' 6 2 = 0#2 ∧
    (s.regs.err = .none ↔ (s.readWord 0x04#6).extractLsb' 8 3 = 0#3) ∧
    (s.regs.err = .pinFailure ↔ (s.readWord 0x04#6).extractLsb' 8 3 = 1#3) ∧
    (s.regs.err = .busNotHigh ↔ (s.readWord 0x04#6).extractLsb' 8 3 = 2#3) ∧
    (s.regs.err = .unexpectedResponse ↔ (s.readWord 0x04#6).extractLsb' 8 3 = 3#3) ∧
    (s.regs.err = .checksumMismatch ↔ (s.readWord 0x04#6).extractLsb' 8 3 = 4#3) ∧
    (s.regs.err = .illegalCommand ↔ (s.readWord 0x04#6).extractLsb' 8 3 = 5#3) ∧
    (s.readWord 0x04#6).extractLsb' 11 21 = 0#21 ∧
    State.reset.readWord 0x04#6 = 0x00000000#32 ∧
    s.writeWord 0x04#6 v =
      { s with regs := { s.regs with
          done := if v.getLsbD 1 then false else s.regs.done
          rej := if v.getLsbD 4 then false else s.regs.rej } }

/-- A host write to CMD or an operand register while a command runs only sets REJ (10_state.md R38); a write to any
other word does not set it. REJ stays 1 until the host writes 1 to STATUS bit 4: no other write, no step of a command and
no acceptance clears it. -/
def Obligations.LockedWritesAreRejectedWhileBusy : Prop :=
  ∀ (s : State) (off : Offset) (v : Word),
    (s.busy = true →
      (off.extractLsb' 2 4 = 0x0#4 ∨ 0x5#4 ≤ off.extractLsb' 2 4 ∧ off.extractLsb' 2 4 ≤ 0xB#4 →
        s.writeWord off v = { s with regs := { s.regs with rej := true } }) ∧
      (0x1#4 ≤ off.extractLsb' 2 4 ∧ off.extractLsb' 2 4 ≤ 0x4#4 ∨ 0xC#4 ≤ off.extractLsb' 2 4 →
        s.regs.rej = false → (s.writeWord off v).regs.rej = false)) ∧
    (s.regs.rej = true →
      (s.writeWord off v).regs.rej = !(off.extractLsb' 2 4 == 0x1#4 && v.getLsbD 4) ∧
      (s.accept v).regs.rej = true ∧ (s.quiet → (seqStep s).regs.rej = true))

/-- Reserved bits of mapped registers and the unmapped words read 0, and writes to them are ignored (10_state.md
R49). -/
def Obligations.ReservedBitsReadZeroAndIgnoreWrites : Prop :=
  ∀ (s : State) (v w : Word),
    (∀ off : Offset, 0x30#6 ≤ off → s.readWord off = 0x00000000#32 ∧ s.writeWord off v = s) ∧
    (s.readWord 0x04#6).extractLsb' 6 2 = 0#2 ∧ (s.readWord 0x04#6).extractLsb' 11 21 = 0#21 ∧
    (s.readWord 0x08#6).extractLsb' 1 31 = 0#31 ∧ (s.readWord 0x0C#6).extractLsb' 9 23 = 0#23 ∧
    (s.readWord 0x2C#6).extractLsb' 6 26 = 0#26 ∧
    (v.getLsbD 1 = w.getLsbD 1 → v.getLsbD 4 = w.getLsbD 4 → s.writeWord 0x04#6 v = s.writeWord 0x04#6 w) ∧
    (v.getLsbD 0 = w.getLsbD 0 → s.writeWord 0x08#6 v = s.writeWord 0x08#6 w) ∧
    s.writeWord 0x0C#6 v = s ∧ s.writeWord 0x10#6 v = s ∧
    (v.extractLsb' 0 6 = w.extractLsb' 0 6 → s.writeWord 0x2C#6 v = s.writeWord 0x2C#6 w)

/-- Offset bits 1:0 are ignored (20_memory.md R82), and a read changes no register (R83). -/
def Obligations.AccessesReachWholeWords : Prop :=
  ∀ (s : State) (off off' : Offset) (v : Word),
    (off.extractLsb' 2 4 = off'.extractLsb' 2 4 →
      s.readWord off = s.readWord off' ∧ s.writeWord off v = s.writeWord off' v) ∧
    (s.hostRead off).regs = s.regs ∧ (s.hostRead off).hid = s.hid ∧ (s.hostRead off).seq = s.seq ∧
    (s.hostRead off).port = s.port ∧
    (s.hostRead off).host.reads = s.host.reads ++ [(off, s.readWord off)]

/-- What the host reads, whether or not a command runs: CMD, DONE_IE, the fields of RX, PINERR (10_state.md R32, R41, R42,
R43), SLDI.LDI (R47) and the halves of the 64-bit registers (20_memory.md R84: bit j of _LO is bit j, bit j of _HI is
bit 32 + j); what a host write to IRQEN stores, whether or not a command runs (R41, 20_memory.md R83); and what a host
write while idle stores in the operand registers (R83): the other half is unchanged. -/
def Obligations.OperandRegistersHoldHostWrites : Prop :=
  ∀ (s : State) (v : Word),
    s.readWord 0x00#6 = s.regs.cmd ∧
    (s.readWord 0x08#6).getLsbD 0 = s.regs.doneIe ∧
    (s.readWord 0x0C#6).extractLsb' 0 8 = s.regs.rxByte ∧
    (s.readWord 0x0C#6).getLsbD 8 = s.regs.rxBit ∧
    s.readWord 0x10#6 = s.regs.pinerr ∧
    (s.readWord 0x2C#6).extractLsb' 0 6 = s.regs.sldi ∧
    (∀ j, j < 32 →
      (s.readWord 0x14#6).getLsbD j = s.regs.romid.getLsbD j ∧
      (s.readWord 0x18#6).getLsbD j = s.regs.romid.getLsbD (32 + j) ∧
      (s.readWord 0x1C#6).getLsbD j = s.regs.saddr.getLsbD j ∧
      (s.readWord 0x20#6).getLsbD j = s.regs.saddr.getLsbD (32 + j) ∧
      (s.readWord 0x24#6).getLsbD j = s.regs.sdisc.getLsbD j ∧
      (s.readWord 0x28#6).getLsbD j = s.regs.sdisc.getLsbD (32 + j)) ∧
    s.writeWord 0x08#6 v = { s with regs := { s.regs with doneIe := v.getLsbD 0 } } ∧
    (s.busy = false →
      s.writeWord 0x14#6 v = { s with regs := { s.regs with romid := s.regs.romid.extractLsb' 32 32 ++ v } } ∧
      s.writeWord 0x18#6 v = { s with regs := { s.regs with romid := v ++ s.regs.romid.extractLsb' 0 32 } } ∧
      s.writeWord 0x1C#6 v = { s with regs := { s.regs with saddr := s.regs.saddr.extractLsb' 32 32 ++ v } } ∧
      s.writeWord 0x20#6 v = { s with regs := { s.regs with saddr := v ++ s.regs.saddr.extractLsb' 0 32 } } ∧
      s.writeWord 0x24#6 v = { s with regs := { s.regs with sdisc := s.regs.sdisc.extractLsb' 32 32 ++ v } } ∧
      s.writeWord 0x28#6 v = { s with regs := { s.regs with sdisc := v ++ s.regs.sdisc.extractLsb' 0 32 } } ∧
      s.writeWord 0x2C#6 v = { s with regs := { s.regs with sldi := v.extractLsb' 0 6 } })

/-- The interrupt output is the level DONE and DONE_IE (10_state.md R52). It falls when the host clears DONE, when
the host clears DONE_IE, or when a new command is accepted. -/
def Obligations.InterruptIsDoneAndEnable : Prop :=
  ∀ (s : State) (v : Word),
    s.irq = ((s.readWord 0x04#6).getLsbD 1 && (s.readWord 0x08#6).getLsbD 0) ∧
    (v.getLsbD 1 = true → (s.writeWord 0x04#6 v).irq = false) ∧
    (v.getLsbD 0 = false → (s.writeWord 0x08#6 v).irq = false) ∧
    (v.getLsbD 0 = true → (s.writeWord 0x08#6 v).irq = s.regs.done) ∧
    (s.accept v).irq = false

/-- The values after reset (10_state.md R75). -/
def Obligations.ResetValues : Prop :=
  (∀ off : Offset, State.reset.readWord off = 0x00000000#32) ∧ State.reset.seq = .idle ∧
    State.reset.hid = ⟨0#32, 0#64, 0#64, 0#6, 0, 0, 0, 0#8, false, false, false, 0, false, false, false⟩ ∧
    State.reset.irq = false

/-! ## The machine as a whole -/

/-- A step from a state that meets the invariant (drv follows the trace, 10_state.md R39 and R69; counters in
range, R66; PINERR within PIN_ERR_W, R43; DONE, ERR and FOUND clear while a command runs, R34 and 30_encoding.md
R114; a sound step pointer, R61; the trace of a held engine ends with the request it waits on, 00_scope.md R17 and R50) leads
to one that meets it. -/
def Obligations.StepKeepsTheInvariant : Prop :=
  ∀ s t : State, s.Inv → step s = .next t → t.Inv

/-- The reset state meets the invariant. -/
def Obligations.ResetMeetsTheInvariant : Prop := State.reset.Inv

/-- From a state that meets the invariant, no step faults and none is refused. -/
def Obligations.InvariantStatesAreSafe : Prop := ∀ s : State, s.Inv → s.safe

/-- Every command, from every state, ends, or is held by a pin port that does not answer (30_encoding.md R116, 10_state.md
R50): no loop runs on. -/
def Obligations.EveryCommandEndsOrIsHeld : Prop :=
  ∀ (i : Instr) (s : State), ∃ t, exec i s = .next t ∧ (t.seq = .idle ∨ t.held = true)

/-- No command and no access changes the parameters (10_state.md R30). -/
def Obligations.ConfigurationIsConstant : Prop :=
  ∀ s t : State, step s = .next t → t.cfg = s.cfg

/-- All the results of a command become visible in the cycle that ends it (20_memory.md R89, R90): while it goes on, a
step of the sequencer leaves every result register as it is. -/
def Obligations.ResultsAppearOnlyAtTheEnd : Prop :=
  ∀ s : State, s.busy = true → (seqStep s).busy = true →
    (seqStep s).regs =
      { s.regs with
        done := (seqStep s).regs.done, rej := (seqStep s).regs.rej, doneIe := (seqStep s).regs.doneIe }

/-- Each result register is written only by its own commands, whatever the pin port and the host do (10_state.md R36,
R37, R42 to R47, R57): PRESENCE by RESET, SEND_COMMAND and SEARCH; FOUND set, and SADDR, SDISC and SLDI written, by SEARCH;
RX.BYTE by READ_BYTE; RX.BIT by READ_BIT, SENSE_HIGH and SENSE_LOW; PINERR by a command that ends with PinFailure,
which none does when PIN_CAN_FAIL is false (R50; log 21); CMD and ROMID by none. -/
def Obligations.ResultRegistersHaveTheirCommands : Prop :=
  ∀ (i : Instr) (s t : State), s.resets = [] → s.accepted → exec i s = .next t →
    t.regs.cmd = s.regs.cmd ∧ t.regs.romid = s.regs.romid ∧
    (i ≠ .readByte → t.regs.rxByte = s.regs.rxByte) ∧
    (i ≠ .readBit → i ≠ .senseHigh → i ≠ .senseLow → t.regs.rxBit = s.regs.rxBit) ∧
    (t.regs.err ≠ .pinFailure → t.regs.pinerr = s.regs.pinerr) ∧
    (s.cfg.pinCanFail = false → t.regs.err ≠ .pinFailure) ∧
    ((∀ r a, i ≠ .search r a) →
      t.regs.found = false ∧ t.regs.saddr = s.regs.saddr ∧ t.regs.sdisc = s.regs.sdisc ∧
        t.regs.sldi = s.regs.sldi) ∧
    (i ≠ .reset → (∀ b m, i ≠ .sendCommand b m) → (∀ r a, i ≠ .search r a) →
      t.regs.presence = s.regs.presence)

/-- A command that ends with an error leaves every result register other than STATUS and PINERR as it was
(60_exceptions.md R275, R281), whatever the pin port and the host do. -/
def Obligations.FailedCommandKeepsResults : Prop :=
  ∀ (i : Instr) (s t : State), s.resets = [] → s.accepted → exec i s = .next t → t.regs.err ≠ .none →
    t.seq = .idle ∧ t.regs.done = true ∧ t.regs.found = false ∧
    t.regs =
      { s.regs with
        done := t.regs.done, presence := t.regs.presence, rej := t.regs.rej, err := t.regs.err,
        doneIe := t.regs.doneIe, pinerr := t.regs.pinerr } ∧
    (t.regs.err ≠ .pinFailure → t.regs.pinerr = s.regs.pinerr)

/-- The host's accesses during a command change nothing of its run (10_state.md R38, 60_exceptions.md R278): with any
accesses to come, the command takes the same steps, with the same trace and the same results, as with none. -/
def Obligations.HostCannotDisturbACommand : Prop :=
  ∀ (i : Instr) (s : State) (queue : List Input), s.resets = [] →
    ∃ t u,
      exec i { s with host := { s.host with queue := [] } } = .next t ∧
      exec i { s with host := { s.host with queue := queue } } = .next u ∧
      u.seq = t.seq ∧ u.hid = t.hid ∧ u.port = t.port ∧ u.now = t.now ∧
      u.regs = { t.regs with done := u.regs.done, rej := u.regs.rej, doneIe := u.regs.doneIe } ∧
      (t.seq = .idle → u.regs.done = t.regs.done)

/-- No hidden register but drv survives from one command to the next (10_state.md R71): from two states that differ in
the other hidden registers only, with pres_v clear in both (30_encoding.md R114), a command has the same effect on all
that can be seen. -/
def Obligations.HiddenRegistersDoNotSurvive : Prop :=
  ∀ (i : Instr) (s : State) (h : Hidden), s.hid.presV = false → h.presV = false → h.drv = s.hid.drv →
    ∃ t u, exec i s = .next t ∧ exec i { s with hid := h } = .next u ∧
      u.regs = t.regs ∧ u.seq = t.seq ∧ u.port = t.port ∧ u.host = t.host ∧ u.now = t.now ∧
      u.hid.drv = t.hid.drv

/-- A pin request answered with an error ends the command at once, at any point of any procedure (00_scope.md R14,
60_exceptions.md R271, R275): the rest is not run, PINERR takes the code, drv is unchanged, and nothing is
committed. -/
def Obligations.PinErrorEndsTheCommand : Prop :=
  ∀ (s : State) (r : PinReq) (rest : List Micro) (d : PinDraw) (ds : List PinDraw) (c : Word),
    s.quiet → s.seq = .run (.pin r :: rest) → s.port.draws = d :: ds → d.fault s.cfg = some c →
    (r = .waitHigh → d.delay ≤ 250 * s.cfg.ticksPerUs) →
    (seqStep (seqStep s)).seq = .idle ∧
    (seqStep (seqStep s)).regs =
      { s.regs with
        presence := if s.hid.presV then s.hid.pres else s.regs.presence
        pinerr := c, err := .pinFailure, found := false, done := true } ∧
    (seqStep (seqStep s)).hid.drv = s.hid.drv ∧
    (seqStep (seqStep s)).port = { draws := ds, trace := s.port.trace ++ [.pin r (.err c)] }

/-- A request that the pin port never answers is issued, stands in the trace, and leaves the engine held with BUSY = 1
(10_state.md R50, 00_scope.md R17). Time passes while the host does nothing or waits for the end, and each other access of the host has its own effect and no more, in its cycle: a read
returns the value, a write to CMD or an operand register sets REJ (R38), a write to STATUS or IRQEN is accepted (R33,
R41), and a write to any other word is ignored (R42, R43, R49). -/
def Obligations.SilentPortHoldsTheEngine : Prop :=
  (∀ (s : State) (r : PinReq) (rest : List Micro), s.seq = .run (.pin r :: rest) → r ≠ .waitHigh →
    s.port.draws = [] →
    ∃ t, step s = .next t ∧ t.held = true ∧
      t = { s with
        seq := .await r rest
        port := { s.port with trace := s.port.trace ++ [.issued r] } }) ∧
  ∀ (s : State) (r : PinReq) (rest : List Micro), s.seq = .await r rest → s.resets = [] →
    (s.readWord 0x04#6).getLsbD 0 = true ∧
    (s.host.queue = [] ∨ (∃ op queue, s.host.queue = ⟨.whenIdle, op⟩ :: queue) →
      step s = .next { s with now := s.now + 1 }) ∧
    (∀ c off queue, s.host.queue = ⟨.atCycle c, .read off⟩ :: queue →
      step s = .next { s with
        host := { queue := queue, reads := s.host.reads ++ [(off, s.readWord off)] }
        now := max s.now c }) ∧
    (∀ c off w queue, s.host.queue = ⟨.atCycle c, .write off w⟩ :: queue →
      (off.extractLsb' 2 4 = 0x0#4 ∨ 0x5#4 ≤ off.extractLsb' 2 4 ∧ off.extractLsb' 2 4 ≤ 0xB#4 →
        step s = .next { s with
          regs := { s.regs with rej := true }
          host := { s.host with queue := queue }
          now := max s.now c }) ∧
      (off.extractLsb' 2 4 = 0x1#4 →
        step s = .next { s with
          regs := { s.regs with
            done := if w.getLsbD 1 then false else s.regs.done
            rej := if w.getLsbD 4 then false else s.regs.rej }
          host := { s.host with queue := queue }
          now := max s.now c }) ∧
      (off.extractLsb' 2 4 = 0x2#4 →
        step s = .next { s with
          regs := { s.regs with doneIe := w.getLsbD 0 }
          host := { s.host with queue := queue }
          now := max s.now c }) ∧
      (off.extractLsb' 2 4 = 0x3#4 ∨ off.extractLsb' 2 4 = 0x4#4 ∨ 0xC#4 ≤ off.extractLsb' 2 4 →
        step s = .next { s with
          host := { s.host with queue := queue }
          now := max s.now c }))

/-- While the engine's last acknowledged drive request is DRIVE_LOW, the line is low (10_state.md R51). -/
def Obligations.DrivenLineReadsLow : Prop :=
  ∀ (d : PinDraw) (p : Params), d.fault p = none →
    d.answer p true .isHigh = .level false ∧ d.answer p true .isLow = .level true ∧
    d.answer p true .waitHigh = .timeout

/-- The block reset (70_reset_and_hazards.md R300), with any accesses of the host still to come: idle or held, and in any
cycle of a running command (a wait, a request with its ACT_LAT, the wait of WAIT_HIGH, the end cycle). Every register
and hidden register takes its reset value (10_state.md R75), and the command is abandoned with no further request, no
STATUS update and no DONE. A request or a wait that it cuts off had been issued, and stands in the trace (00_scope.md
R17). Which cycles a request takes, and that a host access of the reset's own cycle comes after
it, are read from the rules (logs 7 and 15). -/
def Obligations.BlockResetRestoresTheResetValues : Prop :=
  ∀ (s : State) (r : Nat) (rs : List Nat), s.resets = r :: rs →
    (s.seq = .idle → (∀ inp queue, s.host.queue = inp :: queue → r ≤ inp.due.cycle s.now) →
      ∃ t, step s = .next t ∧ s.wasReset t r rs [] s.port.draws ∧ t.host = s.host) ∧
    (s.held = true → (∀ c op queue, s.host.queue = ⟨.atCycle c, op⟩ :: queue → r ≤ max s.now c) →
      ∃ t, step s = .next t ∧ s.wasReset t r rs [] s.port.draws ∧ t.host = s.host) ∧
    (∀ us rest, s.seq = .run (.wait us :: rest) → r < s.now + us * s.cfg.ticksPerUs →
      s.cutOff r rs [.wait us] s.port.draws) ∧
    (∀ q rest d ds, q ≠ .waitHigh → s.seq = .run (.pin q :: rest) → s.port.draws = d :: ds →
      r < s.now + s.cfg.actLat → s.cutOff r rs [.issued q] ds) ∧
    (∀ rest d ds, s.seq = .run (.pin .waitHigh :: rest) → s.port.draws = d :: ds →
      (d.fault s.cfg = none ∧ d.idlesHigh s.cfg ∧ s.hid.drv = false ∨
        d.fault s.cfg ≠ none ∧ d.delay ≤ 250 * s.cfg.ticksPerUs) →
      r < s.now + d.delay + s.cfg.actLat → s.cutOff r rs [.issued .waitHigh] ds) ∧
    (∀ rest, s.seq = .run (.pin .waitHigh :: rest) → s.missesHigh →
      r < s.now + 250 * s.cfg.ticksPerUs + s.cfg.actLat → s.cutOff r rs [.issued .waitHigh] s.port.draws.tail) ∧
    (∀ m rest, s.seq = .run (m :: rest) → (∃ c, m = .finish c) ∨ (∃ e, m = .raise e) → r ≤ s.now →
      s.cutOff r rs [] s.port.draws)

/-- A host access in the cycle in which a command ends sees the state from before the end (60_exceptions.md R280, 20_memory.md
R92): a read returns the old value; a write to CMD or to any operand register is rejected, so that all else is as with no
write, the search state that a SEARCH commits in that cycle included; and a W1C of DONE loses to the set. -/
def Obligations.EndCycleAccessesSeeTheStateBefore : Prop :=
  ∀ (s : State) (m : Micro) (rest : List Micro) (op : HostOp),
    s.seq = .run (m :: rest) → (∃ c, m = .finish c) ∨ (∃ e, m = .raise e) → s.resets = [] →
    s.host.queue = [⟨.atCycle s.now, op⟩] →
    (seqStep s).seq = .idle ∧ (seqStep s).regs.done = true ∧
    (∀ off, op = .read off → (seqStep s).host.reads = s.host.reads ++ [(off, s.readWord off)]) ∧
    (∀ off w, op = .write off w →
      off.extractLsb' 2 4 = 0x0#4 ∨ 0x5#4 ≤ off.extractLsb' 2 4 ∧ off.extractLsb' 2 4 ≤ 0xB#4 →
      ∃ t, t = seqStep { s with host := { s.host with queue := [] } } ∧
        seqStep s = { t with regs := { t.regs with rej := true } } ∧
        t.regs.cmd = s.regs.cmd ∧ t.regs.romid = s.regs.romid ∧
        (m = .finish .searchState →
          t.regs.saddr = s.hid.wAddr ∧ t.regs.sdisc = s.hid.wDisc ∧ t.regs.sldi = s.hid.wLdi) ∧
        (m ≠ .finish .searchState →
          t.regs.saddr = s.regs.saddr ∧ t.regs.sdisc = s.regs.sdisc ∧ t.regs.sldi = s.regs.sldi))

/-- An idle engine issues no pin request and holds the line in its last drive state (60_exceptions.md R289). With no access
to come only a cycle passes; else the step is the host's next access, in its cycle (20_memory.md R83, R89): a read
returns the value and changes no register, and a write at a word other than CMD is stored as `State.writeWord` says
(OperandRegistersHoldHostWrites and the statements beside it). -/
def Obligations.IdleEngineIssuesNoRequest : Prop :=
  ∀ s : State, s.seq = .idle →
    (s.host.queue = [] → s.resets = [] → step s = .next { s with now := s.now + 1 }) ∧
    (∀ due off queue, s.host.queue = ⟨due, .read off⟩ :: queue → s.resetBy (due.cycle s.now) = none →
      step s = .next { s with
        host := { queue := queue, reads := s.host.reads ++ [(off, s.readWord off)] }
        now := due.cycle s.now }) ∧
    (∀ due off w queue, s.host.queue = ⟨due, .write off w⟩ :: queue → s.resetBy (due.cycle s.now) = none →
      off.extractLsb' 2 4 ≠ 0x0#4 →
      ∃ t, step s = .next t ∧
        t = ({ s with host := { s.host with queue := queue }, now := due.cycle s.now } : State).writeWord off w ∧
        t.seq = .idle ∧ t.port = s.port ∧ t.hid = s.hid ∧ t.host = { s.host with queue := queue } ∧
        t.now = due.cycle s.now ∧ t.resets = s.resets ∧ t.cfg = s.cfg)

/-! ## Signal primitives (40_signal_primitives.md) -/

/-- RELEASE_BUS (40_signal_primitives.md R131): its word; on ok, one RELEASE request and DRIVING = 0; on an error,
PinFailure, with DRIVING unchanged. -/
def Obligations.ReleaseBusReleasesTheLine : Prop :=
  encode .releaseBus = 0x00000001#32 ∧
  ∀ (s : State) (d : PinDraw) (ds : List PinDraw), s.ready → s.port.draws = d :: ds →
    (d.fault s.cfg = none →
      endsWith .releaseBus s { s.regs with done := true } false [.pin .release .ok] ds
        (cycles s.cfg 0 0 1)) ∧
    (∀ c, d.fault s.cfg = some c →
      endsWith .releaseBus s { s.regs with done := true, err := .pinFailure, pinerr := c } s.hid.drv
        [.pin .release (.err c)] ds (cycles s.cfg 0 0 1))

/-- DRIVE_LOW (40_signal_primitives.md R132): its word; on ok, one DRIVE_LOW request and DRIVING = 1, which stays; on an
error, PinFailure. -/
def Obligations.DriveLowDrivesTheLine : Prop :=
  encode .driveLow = 0x00000002#32 ∧
  ∀ (s : State) (d : PinDraw) (ds : List PinDraw), s.ready → s.port.draws = d :: ds →
    (d.fault s.cfg = none →
      endsWith .driveLow s { s.regs with done := true } true [.pin .driveLow .ok] ds (cycles s.cfg 0 0 1)) ∧
    (∀ c, d.fault s.cfg = some c →
      endsWith .driveLow s { s.regs with done := true, err := .pinFailure, pinerr := c } s.hid.drv
        [.pin .driveLow (.err c)] ds (cycles s.cfg 0 0 1))

/-- SENSE_HIGH (40_signal_primitives.md R133): RX.BIT is 1 iff the line is high, which it is not while DRIVING = 1; on an
error RX is unchanged. -/
def Obligations.SenseHighReportsTheLevel : Prop :=
  encode .senseHigh = 0x00000003#32 ∧
  ∀ (s : State) (d : PinDraw) (ds : List PinDraw), s.ready → s.port.draws = d :: ds →
    (d.fault s.cfg = none →
      endsWith .senseHigh s { s.regs with done := true, rxBit := d.high && !s.hid.drv } s.hid.drv
        [.pin .isHigh (.level (d.high && !s.hid.drv))] ds (cycles s.cfg 0 0 1)) ∧
    (∀ c, d.fault s.cfg = some c →
      endsWith .senseHigh s { s.regs with done := true, err := .pinFailure, pinerr := c } s.hid.drv
        [.pin .isHigh (.err c)] ds (cycles s.cfg 0 0 1))

/-- SENSE_LOW (40_signal_primitives.md R134): one IS_LOW request; RX.BIT is 1 iff the line is low; on an error RX is
unchanged. -/
def Obligations.SenseLowReportsTheLevel : Prop :=
  encode .senseLow = 0x00000004#32 ∧
  ∀ (s : State) (d : PinDraw) (ds : List PinDraw), s.ready → s.port.draws = d :: ds →
    (d.fault s.cfg = none →
      endsWith .senseLow s { s.regs with done := true, rxBit := !d.high || s.hid.drv } s.hid.drv
        [.pin .isLow (.level (!d.high || s.hid.drv))] ds (cycles s.cfg 0 0 1)) ∧
    (∀ c, d.fault s.cfg = some c →
      endsWith .senseLow s { s.regs with done := true, err := .pinFailure, pinerr := c } s.hid.drv
        [.pin .isLow (.err c)] ds (cycles s.cfg 0 0 1))

/-- WAIT_HIGH (40_signal_primitives.md R136, R137) on a line that goes high within the window [0, 250 µs], the end
included: success, with one request. -/
def Obligations.WaitHighSucceedsWithinTheWindow : Prop :=
  ∀ (s : State) (d : PinDraw) (ds : List PinDraw), s.ready → s.port.draws = d :: ds →
    d.fault s.cfg = none → d.idlesHigh s.cfg → s.hid.drv = false →
    endsWith .waitHigh s { s.regs with done := true } false [.pin .waitHigh .high] ds
      (cycles s.cfg 0 d.delay 1)

/-- WAIT_HIGH (40_signal_primitives.md R135, R136) on a line that is not sensed high within 250 µs, or that the engine itself
drives low, or with a port that stays silent: BusNotHigh after 250 µs. It does not block. -/
def Obligations.WaitHighTimesOut : Prop :=
  ∀ s : State, s.ready → s.missesHigh →
    endsWith .waitHigh s { s.regs with done := true, err := .busNotHigh } s.hid.drv
      [.pin .waitHigh .timeout] s.port.draws.tail (cycles s.cfg 250 0 1)

/-- RESET (40_signal_primitives.md R138, R139): the trace and time of RESET_SEQ, PRESENCE the complement of the sampled
level, DRIVING 0 at the end. -/
def Obligations.ResetSamplesPresence : Prop :=
  ∀ (s : State) (d0 d1 d2 d3 : PinDraw) (ds : List PinDraw), s.ready →
    s.port.draws = d0 :: d1 :: d2 :: d3 :: ds → allOk s.cfg [d0, d1, d2, d3] →
    d0.idlesHigh s.cfg → s.hid.drv = false →
    endsWith .reset s { s.regs with done := true, presence := !d3.high } false (resetEvs !d3.high) ds
      (cycles s.cfg 960 d0.delay 4)

/-- A reset sequence on a line that is not high within 250 µs (60_exceptions.md R272): RESET, SEND_COMMAND and SEARCH end
with BusNotHigh, nothing has been driven, and PRESENCE is unchanged. -/
def Obligations.ResetSequenceOnALowLineFails : Prop :=
  ∀ (i : Instr) (s : State), s.ready → s.missesHigh →
    (i = .reset ∨ (∃ b m, i = .sendCommand b m) ∨
      ∃ r a, i = .search r a ∧ (r = true → s.regs.sdisc ≠ 0#64)) →
    endsWith i s { s.regs with done := true, err := .busNotHigh } s.hid.drv [.pin .waitHigh .timeout]
      s.port.draws.tail (cycles s.cfg 250 0 1)

/-! ## Bit and byte (41_bit_byte.md) -/

/-- READ_BIT (41_bit_byte.md R170, R171): one read slot, and its sample in RX.BIT. -/
def Obligations.ReadBitReturnsTheSample : Prop :=
  ∀ (s : State) (d0 d1 d2 : PinDraw) (ds : List PinDraw), s.ready →
    s.port.draws = d0 :: d1 :: d2 :: ds → allOk s.cfg [d0, d1, d2] →
    endsWith .readBit s { s.regs with done := true, rxBit := d2.high } false (readSlotEvs d2.high) ds
      (cycles s.cfg 70 0 3)

/-- WRITE_BIT (41_bit_byte.md R172, R173): one write slot of the bit. -/
def Obligations.WriteBitSendsOneSlot : Prop :=
  ∀ (b : Bool) (s : State) (d0 d1 : PinDraw) (ds : List PinDraw), s.ready →
    s.port.draws = d0 :: d1 :: ds → allOk s.cfg [d0, d1] →
    endsWith (.writeBit b) s { s.regs with done := true } false (writeSlotEvs b) ds (cycles s.cfg 70 0 2)

/-- READ_BYTE (41_bit_byte.md R174, R175): eight read slots, the first giving bit 0; RX.BIT is not written. -/
def Obligations.ReadByteAssemblesLsbFirst : Prop :=
  ∀ (s : State) (ds rest : List PinDraw) (v : Byte), s.ready → s.port.draws = ds ++ rest →
    ds.length = 24 → allOk s.cfg ds → (∀ k, k < 8 → v.getLsbD k = (drawAt ds (3 * k + 2)).high) →
    endsWith .readByte s { s.regs with done := true, rxByte := v } false (readEvs ds 8) rest
      (cycles s.cfg 560 0 24)

/-- WRITE_BYTE (41_bit_byte.md R176, R177): eight write slots, bit 0 first, 560 µs whatever the value. -/
def Obligations.WriteByteSendsLsbFirst : Prop :=
  ∀ (v : Byte) (s : State) (ds rest : List PinDraw), s.ready → s.port.draws = ds ++ rest →
    ds.length = 16 → allOk s.cfg ds →
    endsWith (.writeByte v) s { s.regs with done := true } false (byteEvs v) rest (cycles s.cfg 560 0 16)

/-- Loopback (41_bit_byte.md R178): WRITE_BYTE v, then READ_BYTE over a fixture that echoes the slots written, leaves
RX.BYTE = v. -/
def Obligations.LoopbackReturnsTheByte : Prop :=
  ∀ (v : Byte) (s : State) (ds : List PinDraw), s.ready → s.port.draws = ds → ds.length = 16 → allOk s.cfg ds →
    ∃ t, exec (.writeByte v) s = .next t ∧
      ∀ (u : State) (rest : List PinDraw), u.ready →
        u.port.draws = echoDraws (slotBits (t.port.trace.drop s.port.trace.length)) ++ rest →
        ∃ x, exec .readByte u = .next x ∧ x.seq = .idle ∧ x.regs.err = .none ∧ x.regs.rxByte = v

/-! ## Addressing (42_addressing.md) -/

/-- MATCH_ROM (42_addressing.md R200, R201): 0x55, then the 64 bits of ROMID in order; no reset. -/
def Obligations.MatchRomSendsTheAddress : Prop :=
  ∀ (s : State) (ds rest : List PinDraw), s.ready → s.port.draws = ds ++ rest →
    ds.length = 144 → allOk s.cfg ds →
    endsWith .matchRom s { s.regs with done := true } false (matchEvs s.regs.romid) rest
      (cycles s.cfg 5040 0 144)

/-- SKIP_ROM (42_addressing.md R202, R203): 0xCC; no reset. -/
def Obligations.SkipRomSendsTheSkipByte : Prop :=
  ∀ (s : State) (ds rest : List PinDraw), s.ready → s.port.draws = ds ++ rest →
    ds.length = 16 → allOk s.cfg ds →
    endsWith .skipRom s { s.regs with done := true } false (byteEvs 0xCC#8) rest (cycles s.cfg 560 0 16)

/-- SEND_COMMAND (42_addressing.md R204, R205): reset, selection, command byte, whatever the presence sample, which
PRESENCE records. -/
def Obligations.SendCommandSelectsAndSends : Prop :=
  ∀ (byte : Byte) (byMatch : Bool) (s : State) (ds rest : List PinDraw), s.ready →
    s.port.draws = ds ++ rest → ds.length = (if byMatch then 164 else 36) → allOk s.cfg ds →
    (drawAt ds 0).idlesHigh s.cfg → s.hid.drv = false →
    endsWith (.sendCommand byte byMatch) s { s.regs with done := true, presence := !(drawAt ds 3).high } false
      (resetEvs (!(drawAt ds 3).high) ++
        (if byMatch then matchEvs s.regs.romid else byteEvs 0xCC#8) ++ byteEvs byte)
      rest (cycles s.cfg (if byMatch then 6560 else 2080) (drawAt ds 0).delay (if byMatch then 164 else 36))

/-! ## The ROM search (43_search.md) -/

/-- Step 1 (43_search.md R222): a resumed SEARCH with SDISC = 0 ends at once with None: no pin request, PRESENCE, SADDR,
SDISC and SLDI unchanged. -/
def Obligations.ExhaustedSearchReturnsNone : Prop :=
  ∀ (alarm : Bool) (s : State), s.ready → s.regs.sdisc = 0#64 →
    endsWith (.search true alarm) s { s.regs with done := true } s.hid.drv [] s.port.draws (cycles s.cfg 0 0 0)

/-- Step 2 (43_search.md R223): no presence ends the SEARCH, fresh or resumed, with None and PRESENCE = 0: RESET_SEQ and no
slot. -/
def Obligations.SearchOnAnEmptyBusReturnsNone : Prop :=
  ∀ (resume alarm : Bool) (s : State) (d0 d1 d2 d3 : PinDraw) (ds : List PinDraw), s.ready →
    (resume = true → s.regs.sdisc ≠ 0#64) → s.port.draws = d0 :: d1 :: d2 :: d3 :: ds →
    allOk s.cfg [d0, d1, d2, d3] → d0.idlesHigh s.cfg → s.hid.drv = false → d3.high = true →
    endsWith (.search resume alarm) s { s.regs with done := true, presence := false } false (resetEvs false) ds
      (cycles s.cfg 960 d0.delay 4)

/-- A whole pass (43_search.md R224 to R240, R248) that meets no unexpected response and whose address the validator
accepts: SADDR, SDISC and SLDI take the pass's address, mask and index, FOUND is set, and the trace is the reset
sequence, the command byte and the 64 positions. -/
def Obligations.SearchFindsAnAddress : Prop :=
  ∀ (resume alarm : Bool) (s : State) (ds rest : List PinDraw) (p : Pass), s.ready →
    (resume = true → s.regs.sdisc ≠ 0#64) → s.port.draws = ds ++ rest → ds.length = 532 → allOk s.cfg ds →
    (drawAt ds 0).idlesHigh s.cfg → s.hid.drv = false → (drawAt ds 3).high = false →
    searchPass resume s.regs.saddr s.regs.sdisc s.regs.sldi.toNat (respAt ds) = some p →
    crcValid s.cfg p.addr = true →
    endsWith (.search resume alarm) s
      { s.regs with
        done := true, presence := true, found := true, saddr := p.addr, sdisc := p.disc, sldi := p.ldi }
      false
      (resetEvs true ++ byteEvs (if alarm then 0xEC#8 else 0xF0#8) ++ passEvs ds p.addr)
      rest (cycles s.cfg 14960 (drawAt ds 0).delay 532)

/-- Step 6 (43_search.md R238, 60_exceptions.md R276): an address the validator rejects ends the pass with
ChecksumMismatch; SADDR, SDISC and SLDI are unchanged, and all 200 slots have been sent. -/
def Obligations.SearchDiscardsABadChecksum : Prop :=
  ∀ (resume alarm : Bool) (s : State) (ds rest : List PinDraw) (p : Pass), s.ready →
    (resume = true → s.regs.sdisc ≠ 0#64) → s.port.draws = ds ++ rest → ds.length = 532 → allOk s.cfg ds →
    (drawAt ds 0).idlesHigh s.cfg → s.hid.drv = false → (drawAt ds 3).high = false →
    searchPass resume s.regs.saddr s.regs.sdisc s.regs.sldi.toNat (respAt ds) = some p →
    crcValid s.cfg p.addr = false →
    endsWith (.search resume alarm) s
      { s.regs with done := true, presence := true, err := .checksumMismatch }
      false
      (resetEvs true ++ byteEvs (if alarm then 0xEC#8 else 0xF0#8) ++ passEvs ds p.addr)
      rest (cycles s.cfg 14960 (drawAt ds 0).delay 532)

/-- Steps 4 and 5 (43_search.md R230, R232, 60_exceptions.md R273): a pass that meets an unexpected response at position i
(at L of a resumed pass, or in the walk) ends with UnexpectedResponse after the two read slots of that position, with
no write slot there; SADDR, SDISC and SLDI are unchanged. The passes with no address are those that come to such a
position. -/
def Obligations.SearchFailsOnAnUnexpectedResponse : Prop :=
  (∀ (resume alarm : Bool) (s : State) (ds rest : List PinDraw) (i : Nat) (b : Rom), s.ready →
    (resume = true → s.regs.sdisc ≠ 0#64) → s.port.draws = ds ++ rest → i < 64 → ds.length = 26 + 8 * i →
    allOk s.cfg ds → (drawAt ds 0).idlesHigh s.cfg → s.hid.drv = false → (drawAt ds 3).high = false →
    bitsUpTo resume s.regs.saddr s.regs.sdisc s.regs.sldi.toNat (respAt ds) i = some b →
    unexpectedAt resume s.regs.sldi.toNat (respAt ds) i →
    endsWith (.search resume alarm) s
      { s.regs with done := true, presence := true, err := .unexpectedResponse }
      false
      (resetEvs true ++ byteEvs (if alarm then 0xEC#8 else 0xF0#8) ++ passEvsTo ds b i ++ twoReadEvs ds i)
      rest (cycles s.cfg (1660 + 210 * i) (drawAt ds 0).delay (26 + 8 * i))) ∧
  (∀ (resume : Bool) (a d : Rom) (l : Nat) (resp : Nat → Bool × Bool), l < 64 →
    (searchPass resume a d l resp = none ↔
      ∃ i b, i < 64 ∧ bitsUpTo resume a d l resp i = some b ∧ unexpectedAt resume l resp i))

/-- A Found outcome leaves a search state that meets 10_state.md R48 (a), (b) and (c), if the pass was fresh or resumed from a
state that met (a) and (b) (43_search.md R242), whatever the pin port and the host do. -/
def Obligations.FoundKeepsTheSearchStateInvariant : Prop :=
  ∀ (resume alarm : Bool) (s t : State), s.accepted → s.resets = [] →
    (resume = true → searchStateOk s.regs.sdisc s.regs.sldi) →
    exec (.search resume alarm) s = .next t → t.regs.found = true →
    searchStateOk t.regs.sdisc t.regs.sldi ∧ crcValid t.cfg t.regs.saddr = true

/-- On the reference bus, a fresh SEARCH finds the first device in transmission order, and leaves in SDISC the branches
it left unexplored, with SLDI the last of them (43_search.md R243, R244; the order is that of 90_conflicts.md C1). -/
def Obligations.FreshSearchFindsTheFirstDevice : Prop :=
  ∀ (alarm : Bool) (s : State) (devs : List Rom) (a : Rom) (rest : List PinDraw), s.ready → s.hid.drv = false →
    a ∈ devs → (∀ d ∈ devs, d = a ∨ txBefore a d) → crcValid s.cfg a = true →
    s.port.draws = busPass devs a ++ rest →
    ∃ t, exec (.search false alarm) s = .next t ∧ t.seq = .idle ∧ t.regs.err = .none ∧ t.regs.found = true ∧
      t.regs.saddr = a ∧ discOf devs a t.regs.sdisc ∧ searchStateOk t.regs.sdisc t.regs.sldi ∧
      t.port.draws = rest

/-- On the reference bus, a SEARCH.R from the state that found a finds b, the next device in transmission order (43_search.md R243,
R244), and leaves the same relation between the bus and the search state. With the fresh case and SDISC = 0 at the
last device, every device is found once, in order. -/
def Obligations.ResumedSearchFindsTheNextDevice : Prop :=
  ∀ (alarm : Bool) (s : State) (devs : List Rom) (b : Rom) (rest : List PinDraw), s.ready → s.hid.drv = false →
    s.regs.saddr ∈ devs → discOf devs s.regs.saddr s.regs.sdisc → searchStateOk s.regs.sdisc s.regs.sldi →
    b ∈ devs → txBefore s.regs.saddr b →
    (∀ d ∈ devs, txBefore s.regs.saddr d → d = b ∨ txBefore b d) → crcValid s.cfg b = true →
    s.port.draws = busPass devs b ++ rest →
    ∃ t, exec (.search true alarm) s = .next t ∧ t.seq = .idle ∧ t.regs.err = .none ∧ t.regs.found = true ∧
      t.regs.saddr = b ∧ discOf devs b t.regs.sdisc ∧ searchStateOk t.regs.sdisc t.regs.sldi ∧
      t.port.draws = rest

/-- Enumeration (43_search.md R243, R244; the host's SEARCH_ALL of 30_encoding.md R113, log 26): on the reference bus,
with its devices listed in transmission order, the list of addresses is the list of the devices, each once, and the last
pass ends with None, SDISC = 0 and no further draw of the pin port. -/
def Obligations.SearchAllListsEveryDeviceInOrder : Prop :=
  ∀ (alarm : Bool) (s : State) (devs : List Rom) (rest : List PinDraw), s.seq = .idle → s.quiet → s.hid.drv = false →
    devs ≠ [] → devs.Pairwise txBefore → (∀ a ∈ devs, crcValid s.cfg a = true) →
    s.port.draws = devs.flatMap (busPass devs) ++ rest →
    (searchAll alarm (devs.length + 1) false s).1 = devs ∧
    ∃ t, (searchAll alarm (devs.length + 1) false s).2 = .next t ∧ t.seq = .idle ∧ t.regs.err = .none ∧
      t.regs.found = false ∧ t.regs.sdisc = 0#64 ∧ t.port.draws = rest

/-- The default checksum (43_search.md R241): the check value of its rule, and the verdict on the eight bytes. -/
def Obligations.DefaultChecksumValues : Prop :=
  crc8 [0x02#8, 0x1C#8, 0xB8#8, 0x01#8, 0x00#8, 0x00#8, 0x00#8] = 0xA2#8 ∧
  ∀ (p : Params) (a : Rom), p.crc = .dallas →
    (crcValid p a = true ↔ crc8 (romBytes a 8) = 0x00#8)

/-! ## Illegal commands and host sequences -/

/-- An illegal command (30_encoding.md R107, R108, 60_exceptions.md R277) ends at once with IllegalCommand and no pin
request, whatever its other bits. -/
def Obligations.IllegalCommandsEndAtOnce : Prop :=
  ∀ (i : Instr) (s : State), s.ready → i.isIllegal = true →
    endsWith i s { s.regs with done := true, err := .illegalCommand } s.hid.drv [] s.port.draws
      (cycles s.cfg 0 0 0)

/-- WRITE_BYTES (30_encoding.md R113): all bytes in order if none fails. If a request fails, of whichever byte, the trace
ends with it, nothing more is sent, and ERR and PINERR say so. -/
def Obligations.WriteBytesSendsInOrder : Prop :=
  (∀ (vs : List Byte) (s : State) (ds rest : List PinDraw), s.seq = .idle → s.quiet → s.regs.err = .none →
    s.port.draws = ds ++ rest → ds.length = 16 * vs.length → allOk s.cfg ds →
    ∃ t, writeBytes vs s = .next t ∧ t.seq = .idle ∧ t.regs.err = .none ∧
      t.port = { draws := rest, trace := s.port.trace ++ vs.flatMap byteEvs }) ∧
  (∀ (vs : List Byte) (s : State) (ds rest : List PinDraw) (d : PinDraw) (c : Word), s.seq = .idle → s.quiet →
    s.port.draws = ds ++ d :: rest → ds.length < 16 * vs.length → allOk s.cfg ds → d.fault s.cfg = some c →
    ∃ t, writeBytes vs s = .next t ∧ t.seq = .idle ∧ t.regs.done = true ∧ t.regs.err = .pinFailure ∧
      t.regs.pinerr = c ∧
      t.port =
        { draws := rest
          trace := s.port.trace ++ (vs.flatMap byteEvs).take (2 * ds.length) ++
            [.pin (if ds.length % 2 = 0 then .driveLow else .release) (.err c)] })

/-- READ_BYTES (30_encoding.md R113): one byte of the buffer for each READ_BYTE, in order. A failure at any request of a
later byte keeps the bytes read before it and reads no more; ERR and PINERR say so. -/
def Obligations.ReadBytesKeepsWhatWasRead : Prop :=
  (∀ (vs : List Byte) (s : State) (rest : List PinDraw), s.seq = .idle → s.quiet →
    s.port.draws = vs.flatMap (fun v => echoDraws ((List.range 8).map v.getLsbD)) ++ rest →
    (readBytes vs.length s).1 = vs ∧
    ∃ t, (readBytes vs.length s).2 = .next t ∧ t.seq = .idle ∧ t.port.draws = rest ∧
      (vs ≠ [] ∨ s.regs.err = .none → t.regs.err = .none)) ∧
  (∀ (n : Nat) (vs : List Byte) (s : State) (ds rest : List PinDraw) (d : PinDraw) (c : Word), s.seq = .idle →
    s.quiet → vs.length < n →
    s.port.draws = vs.flatMap (fun v => echoDraws ((List.range 8).map v.getLsbD)) ++ ds ++ d :: rest →
    ds.length < 24 → allOk s.cfg ds → d.fault s.cfg = some c →
    (readBytes n s).1 = vs ∧
    ∃ t, (readBytes n s).2 = .next t ∧ t.seq = .idle ∧ t.regs.done = true ∧ t.regs.err = .pinFailure ∧
      t.regs.pinerr = c ∧ t.port.draws = rest)

/-! ## The pin trace (00_scope.md R17) -/

/-- The pin trace lists the requests and the waits that are issued, in order, with the answers received (00_scope.md R17),
whatever the pin port, the host and the block reset do: a step at a request adds that request, with its answer, or with
none if the port never answers it (10_state.md R50) or a block reset cuts it off (70_reset_and_hazards.md R300); a step
at a wait adds the wait; no other step adds any. The mark of a block reset is the model's own (log 15). -/
def Obligations.TraceListsWhatIsIssued : Prop :=
  ∀ (s : State) (m : Micro) (rest : List Micro), s.seq = .run (m :: rest) →
    ∃ evs mark, (seqStep s).port.trace = s.port.trace ++ evs ++ mark ∧
      (mark = [] ∨ mark = [.blockReset (some m)] ∧ (seqStep s).seq = .idle) ∧
      (∀ r, m = .pin r →
        (mark ≠ [] ∨ r ≠ .waitHigh ∧ s.port.draws = [] → evs = [.issued r]) ∧
        (mark = [] → r = .waitHigh ∨ s.port.draws ≠ [] →
          evs = [.pin r ((s.port.draws.headD PinDraw.silent).answer s.cfg s.hid.drv r)])) ∧
      (∀ us, m = .wait us → evs = [.wait us]) ∧
      ((∀ r, m ≠ .pin r) → (∀ us, m ≠ .wait us) → evs = [])
end

