-- ==== Sys2Proof/Laws/State.lean ====
section
/-!
SUPPORT. One lemma for each field after each named update of the state, true by definition, so that no proof
unfolds a record update.
-/

namespace Sys2Proof.Machine

/-! ## State.log -/

@[simp] theorem State.log_regs (s : State) (e : TraceEv) : (s.log e).regs = s.regs := rfl
@[simp] theorem State.log_seq (s : State) (e : TraceEv) : (s.log e).seq = s.seq := rfl
@[simp] theorem State.log_hid (s : State) (e : TraceEv) : (s.log e).hid = s.hid := rfl
@[simp] theorem State.log_port (s : State) (e : TraceEv) :
    (s.log e).port = { s.port with trace := s.port.trace ++ [e] } := rfl
@[simp] theorem State.log_host (s : State) (e : TraceEv) : (s.log e).host = s.host := rfl
@[simp] theorem State.log_resets (s : State) (e : TraceEv) : (s.log e).resets = s.resets := rfl
@[simp] theorem State.log_now (s : State) (e : TraceEv) : (s.log e).now = s.now := rfl
@[simp] theorem State.log_cfg (s : State) (e : TraceEv) : (s.log e).cfg = s.cfg := rfl

/-! ## State.mapHid -/

@[simp] theorem State.mapHid_regs (s : State) (f : Hidden → Hidden) : (s.mapHid f).regs = s.regs := rfl
@[simp] theorem State.mapHid_seq (s : State) (f : Hidden → Hidden) : (s.mapHid f).seq = s.seq := rfl
@[simp] theorem State.mapHid_hid (s : State) (f : Hidden → Hidden) : (s.mapHid f).hid = f s.hid := rfl
@[simp] theorem State.mapHid_port (s : State) (f : Hidden → Hidden) : (s.mapHid f).port = s.port := rfl
@[simp] theorem State.mapHid_host (s : State) (f : Hidden → Hidden) : (s.mapHid f).host = s.host := rfl
@[simp] theorem State.mapHid_resets (s : State) (f : Hidden → Hidden) : (s.mapHid f).resets = s.resets := rfl
@[simp] theorem State.mapHid_now (s : State) (f : Hidden → Hidden) : (s.mapHid f).now = s.now := rfl
@[simp] theorem State.mapHid_cfg (s : State) (f : Hidden → Hidden) : (s.mapHid f).cfg = s.cfg := rfl

/-! ## State.takeInput -/

@[simp] theorem State.takeInput_regs (s : State) (d : Due) (q : List Input) :
    (s.takeInput d q).regs = s.regs := rfl
@[simp] theorem State.takeInput_seq (s : State) (d : Due) (q : List Input) : (s.takeInput d q).seq = s.seq := rfl
@[simp] theorem State.takeInput_hid (s : State) (d : Due) (q : List Input) : (s.takeInput d q).hid = s.hid := rfl
@[simp] theorem State.takeInput_port (s : State) (d : Due) (q : List Input) :
    (s.takeInput d q).port = s.port := rfl
@[simp] theorem State.takeInput_host (s : State) (d : Due) (q : List Input) :
    (s.takeInput d q).host = { s.host with queue := q } := rfl
@[simp] theorem State.takeInput_resets (s : State) (d : Due) (q : List Input) :
    (s.takeInput d q).resets = s.resets := rfl
@[simp] theorem State.takeInput_now (s : State) (d : Due) (q : List Input) :
    (s.takeInput d q).now = d.cycle s.now := rfl
@[simp] theorem State.takeInput_cfg (s : State) (d : Due) (q : List Input) : (s.takeInput d q).cfg = s.cfg := rfl

/-! ## State.tick -/

@[simp] theorem State.tick_regs (s : State) : (s.tick).regs = s.regs := rfl
@[simp] theorem State.tick_seq (s : State) : (s.tick).seq = s.seq := rfl
@[simp] theorem State.tick_hid (s : State) : (s.tick).hid = s.hid := rfl
@[simp] theorem State.tick_port (s : State) : (s.tick).port = s.port := rfl
@[simp] theorem State.tick_host (s : State) : (s.tick).host = s.host := rfl
@[simp] theorem State.tick_resets (s : State) : (s.tick).resets = s.resets := rfl
@[simp] theorem State.tick_now (s : State) : (s.tick).now = s.now + 1 := rfl
@[simp] theorem State.tick_cfg (s : State) : (s.tick).cfg = s.cfg := rfl

/-! ## State.accept -/

@[simp] theorem State.accept_regs (s : State) (w : Word) :
    (s.accept w).regs = { s.regs.acceptFlags with cmd := w } := rfl
@[simp] theorem State.accept_seq (s : State) (w : Word) : (s.accept w).seq = s.seq := rfl
@[simp] theorem State.accept_hid (s : State) (w : Word) :
    (s.accept w).hid = { s.hid with opWord := w, presV := false } := rfl
@[simp] theorem State.accept_port (s : State) (w : Word) : (s.accept w).port = s.port := rfl
@[simp] theorem State.accept_host (s : State) (w : Word) : (s.accept w).host = s.host := rfl
@[simp] theorem State.accept_resets (s : State) (w : Word) : (s.accept w).resets = s.resets := rfl
@[simp] theorem State.accept_now (s : State) (w : Word) : (s.accept w).now = s.now + acceptCycles := rfl
@[simp] theorem State.accept_cfg (s : State) (w : Word) : (s.accept w).cfg = s.cfg := rfl

/-! ## State.endFinish -/

@[simp] theorem State.endFinish_regs (s : State) (c : Commit) :
    (s.endFinish c).regs = ((s.regs.commit s.hid c).latchPresence s.hid).finishFlags := rfl
@[simp] theorem State.endFinish_seq (s : State) (c : Commit) : (s.endFinish c).seq = .idle := rfl
@[simp] theorem State.endFinish_hid (s : State) (c : Commit) : (s.endFinish c).hid = s.hid := rfl
@[simp] theorem State.endFinish_port (s : State) (c : Commit) : (s.endFinish c).port = s.port := rfl
@[simp] theorem State.endFinish_host (s : State) (c : Commit) : (s.endFinish c).host = s.host := rfl
@[simp] theorem State.endFinish_resets (s : State) (c : Commit) : (s.endFinish c).resets = s.resets := rfl
@[simp] theorem State.endFinish_now (s : State) (c : Commit) : (s.endFinish c).now = s.now := rfl
@[simp] theorem State.endFinish_cfg (s : State) (c : Commit) : (s.endFinish c).cfg = s.cfg := rfl

/-! ## State.endRaise -/

@[simp] theorem State.endRaise_regs (s : State) (e : CmdError) :
    (s.endRaise e).regs = ((s.regs.latchPresence s.hid).recordPinErr e).raiseFlags e := rfl
@[simp] theorem State.endRaise_seq (s : State) (e : CmdError) : (s.endRaise e).seq = .idle := rfl
@[simp] theorem State.endRaise_hid (s : State) (e : CmdError) : (s.endRaise e).hid = s.hid := rfl
@[simp] theorem State.endRaise_port (s : State) (e : CmdError) : (s.endRaise e).port = s.port := rfl
@[simp] theorem State.endRaise_host (s : State) (e : CmdError) : (s.endRaise e).host = s.host := rfl
@[simp] theorem State.endRaise_resets (s : State) (e : CmdError) : (s.endRaise e).resets = s.resets := rfl
@[simp] theorem State.endRaise_now (s : State) (e : CmdError) : (s.endRaise e).now = s.now := rfl
@[simp] theorem State.endRaise_cfg (s : State) (e : CmdError) : (s.endRaise e).cfg = s.cfg := rfl

/-! ## State.hostRead -/

@[simp] theorem State.hostRead_regs (s : State) (o : Offset) : (s.hostRead o).regs = s.regs := rfl
@[simp] theorem State.hostRead_seq (s : State) (o : Offset) : (s.hostRead o).seq = s.seq := rfl
@[simp] theorem State.hostRead_hid (s : State) (o : Offset) : (s.hostRead o).hid = s.hid := rfl
@[simp] theorem State.hostRead_port (s : State) (o : Offset) : (s.hostRead o).port = s.port := rfl
@[simp] theorem State.hostRead_host (s : State) (o : Offset) :
    (s.hostRead o).host = { s.host with reads := s.host.reads ++ [(o, s.readWord o)] } := rfl
@[simp] theorem State.hostRead_resets (s : State) (o : Offset) : (s.hostRead o).resets = s.resets := rfl
@[simp] theorem State.hostRead_now (s : State) (o : Offset) : (s.hostRead o).now = s.now := rfl
@[simp] theorem State.hostRead_cfg (s : State) (o : Offset) : (s.hostRead o).cfg = s.cfg := rfl

/-! ## State.blockReset -/

@[simp] theorem State.blockReset_regs (s : State) : (s.blockReset).regs = Regs.reset := rfl
@[simp] theorem State.blockReset_seq (s : State) : (s.blockReset).seq = .idle := rfl
@[simp] theorem State.blockReset_hid (s : State) : (s.blockReset).hid = Hidden.reset := rfl
@[simp] theorem State.blockReset_port (s : State) :
    (s.blockReset).port =
      { s.port with trace := s.port.trace ++ s.seq.begun ++ [.blockReset s.seq.current] } := rfl
@[simp] theorem State.blockReset_host (s : State) : (s.blockReset).host = s.host := rfl
@[simp] theorem State.blockReset_resets (s : State) : (s.blockReset).resets = s.resets := rfl
@[simp] theorem State.blockReset_now (s : State) : (s.blockReset).now = s.now := rfl
@[simp] theorem State.blockReset_cfg (s : State) : (s.blockReset).cfg = s.cfg := rfl

/-! ## State.resetNow -/

@[simp] theorem State.resetNow_regs (s : State) (r : Nat) : (s.resetNow r).regs = Regs.reset := rfl
@[simp] theorem State.resetNow_seq (s : State) (r : Nat) : (s.resetNow r).seq = .idle := rfl
@[simp] theorem State.resetNow_hid (s : State) (r : Nat) : (s.resetNow r).hid = Hidden.reset := rfl
@[simp] theorem State.resetNow_port (s : State) (r : Nat) :
    (s.resetNow r).port =
      { s.port with trace := s.port.trace ++ s.seq.begun ++ [.blockReset s.seq.current] } := rfl
@[simp] theorem State.resetNow_host (s : State) (r : Nat) : (s.resetNow r).host = s.host := rfl
@[simp] theorem State.resetNow_resets (s : State) (r : Nat) : (s.resetNow r).resets = s.resets.tail := rfl
@[simp] theorem State.resetNow_now (s : State) (r : Nat) : (s.resetNow r).now = r := rfl
@[simp] theorem State.resetNow_cfg (s : State) (r : Nat) : (s.resetNow r).cfg = s.cfg := rfl

/-! ## State.takeAnswer -/

@[simp] theorem State.takeAnswer_regs (s : State) (r : PinReq) (a : PinAns) (l : List Micro) :
    (s.takeAnswer r a l).regs = s.regs := rfl
@[simp] theorem State.takeAnswer_seq (s : State) (r : PinReq) (a : PinAns) (l : List Micro) :
    (s.takeAnswer r a l).seq = .run (stepAfter a l) := rfl
@[simp] theorem State.takeAnswer_hid (s : State) (r : PinReq) (a : PinAns) (l : List Micro) :
    (s.takeAnswer r a l).hid = { s.hid with drv := drvAfter r a s.hid.drv, bit := bitAfter a s.hid.bit } := rfl
@[simp] theorem State.takeAnswer_port (s : State) (r : PinReq) (a : PinAns) (l : List Micro) :
    (s.takeAnswer r a l).port = { s.port with trace := s.port.trace ++ [.pin r a] } := rfl
@[simp] theorem State.takeAnswer_host (s : State) (r : PinReq) (a : PinAns) (l : List Micro) :
    (s.takeAnswer r a l).host = s.host := rfl
@[simp] theorem State.takeAnswer_resets (s : State) (r : PinReq) (a : PinAns) (l : List Micro) :
    (s.takeAnswer r a l).resets = s.resets := rfl
@[simp] theorem State.takeAnswer_now (s : State) (r : PinReq) (a : PinAns) (l : List Micro) :
    (s.takeAnswer r a l).now = s.now := rfl
@[simp] theorem State.takeAnswer_cfg (s : State) (r : PinReq) (a : PinAns) (l : List Micro) :
    (s.takeAnswer r a l).cfg = s.cfg := rfl

/-! ## State.awaitAnswer -/

@[simp] theorem State.awaitAnswer_regs (s : State) (r : PinReq) (l : List Micro) :
    (s.awaitAnswer r l).regs = s.regs := rfl
@[simp] theorem State.awaitAnswer_seq (s : State) (r : PinReq) (l : List Micro) :
    (s.awaitAnswer r l).seq = .await r l := rfl
@[simp] theorem State.awaitAnswer_hid (s : State) (r : PinReq) (l : List Micro) :
    (s.awaitAnswer r l).hid = s.hid := rfl
@[simp] theorem State.awaitAnswer_port (s : State) (r : PinReq) (l : List Micro) :
    (s.awaitAnswer r l).port = { s.port with trace := s.port.trace ++ [.issued r] } := rfl
@[simp] theorem State.awaitAnswer_host (s : State) (r : PinReq) (l : List Micro) :
    (s.awaitAnswer r l).host = s.host := rfl
@[simp] theorem State.awaitAnswer_resets (s : State) (r : PinReq) (l : List Micro) :
    (s.awaitAnswer r l).resets = s.resets := rfl
@[simp] theorem State.awaitAnswer_now (s : State) (r : PinReq) (l : List Micro) :
    (s.awaitAnswer r l).now = s.now := rfl
@[simp] theorem State.awaitAnswer_cfg (s : State) (r : PinReq) (l : List Micro) :
    (s.awaitAnswer r l).cfg = s.cfg := rfl

/-! ## Sequencer.begun -/

@[simp] theorem Sequencer.begun_idle : Sequencer.idle.begun = [] := rfl
@[simp] theorem Sequencer.begun_pin (r : PinReq) (l : List Micro) :
    (Sequencer.run (.pin r :: l)).begun = [.issued r] := rfl
@[simp] theorem Sequencer.begun_await (r : PinReq) (l : List Micro) : (Sequencer.await r l).begun = [] := rfl
@[simp] theorem Sequencer.begun_wait (us : Nat) (l : List Micro) :
    (Sequencer.run (.wait us :: l)).begun = [.wait us] := rfl
@[simp] theorem Sequencer.begun_act (a : Act) (l : List Micro) :
    (Sequencer.run (.act a :: l)).begun = [] := rfl
@[simp] theorem Sequencer.begun_finish (c : Commit) (l : List Micro) :
    (Sequencer.run (.finish c :: l)).begun = [] := rfl
@[simp] theorem Sequencer.begun_raise (e : CmdError) (l : List Micro) :
    (Sequencer.run (.raise e :: l)).begun = [] := rfl

/-! ## State.runAct -/

@[simp] theorem State.runAct_regs (s : State) (a : Act) (l : List Micro) : (s.runAct a l).regs = s.regs := rfl
@[simp] theorem State.runAct_seq (s : State) (a : Act) (l : List Micro) :
    (s.runAct a l).seq = .run (a.next s ++ l) := rfl
@[simp] theorem State.runAct_hid (s : State) (a : Act) (l : List Micro) : (s.runAct a l).hid = a.hid s := rfl
@[simp] theorem State.runAct_port (s : State) (a : Act) (l : List Micro) : (s.runAct a l).port = s.port := rfl
@[simp] theorem State.runAct_host (s : State) (a : Act) (l : List Micro) : (s.runAct a l).host = s.host := rfl
@[simp] theorem State.runAct_resets (s : State) (a : Act) (l : List Micro) :
    (s.runAct a l).resets = s.resets := rfl
@[simp] theorem State.runAct_now (s : State) (a : Act) (l : List Micro) : (s.runAct a l).now = s.now := rfl
@[simp] theorem State.runAct_cfg (s : State) (a : Act) (l : List Micro) : (s.runAct a l).cfg = s.cfg := rfl

/-! ## Regs.acceptFlags -/

@[simp] theorem Regs.acceptFlags_cmd (r : Regs) : (r.acceptFlags).cmd = r.cmd := rfl
@[simp] theorem Regs.acceptFlags_done (r : Regs) : (r.acceptFlags).done = false := rfl
@[simp] theorem Regs.acceptFlags_presence (r : Regs) : (r.acceptFlags).presence = r.presence := rfl
@[simp] theorem Regs.acceptFlags_found (r : Regs) : (r.acceptFlags).found = false := rfl
@[simp] theorem Regs.acceptFlags_rej (r : Regs) : (r.acceptFlags).rej = r.rej := rfl
@[simp] theorem Regs.acceptFlags_err (r : Regs) : (r.acceptFlags).err = .none := rfl
@[simp] theorem Regs.acceptFlags_doneIe (r : Regs) : (r.acceptFlags).doneIe = r.doneIe := rfl
@[simp] theorem Regs.acceptFlags_rxByte (r : Regs) : (r.acceptFlags).rxByte = r.rxByte := rfl
@[simp] theorem Regs.acceptFlags_rxBit (r : Regs) : (r.acceptFlags).rxBit = r.rxBit := rfl
@[simp] theorem Regs.acceptFlags_pinerr (r : Regs) : (r.acceptFlags).pinerr = r.pinerr := rfl
@[simp] theorem Regs.acceptFlags_romid (r : Regs) : (r.acceptFlags).romid = r.romid := rfl
@[simp] theorem Regs.acceptFlags_saddr (r : Regs) : (r.acceptFlags).saddr = r.saddr := rfl
@[simp] theorem Regs.acceptFlags_sdisc (r : Regs) : (r.acceptFlags).sdisc = r.sdisc := rfl
@[simp] theorem Regs.acceptFlags_sldi (r : Regs) : (r.acceptFlags).sldi = r.sldi := rfl

/-! ## Regs.latchPresence -/

@[simp] theorem Regs.latchPresence_cmd (r : Regs) (h : Hidden) : (r.latchPresence h).cmd = r.cmd := rfl
@[simp] theorem Regs.latchPresence_done (r : Regs) (h : Hidden) : (r.latchPresence h).done = r.done := rfl
@[simp] theorem Regs.latchPresence_presence (r : Regs) (h : Hidden) : (r.latchPresence h).presence = if h.presV then h.pres else r.presence := rfl
@[simp] theorem Regs.latchPresence_found (r : Regs) (h : Hidden) : (r.latchPresence h).found = r.found := rfl
@[simp] theorem Regs.latchPresence_rej (r : Regs) (h : Hidden) : (r.latchPresence h).rej = r.rej := rfl
@[simp] theorem Regs.latchPresence_err (r : Regs) (h : Hidden) : (r.latchPresence h).err = r.err := rfl
@[simp] theorem Regs.latchPresence_doneIe (r : Regs) (h : Hidden) : (r.latchPresence h).doneIe = r.doneIe := rfl
@[simp] theorem Regs.latchPresence_rxByte (r : Regs) (h : Hidden) : (r.latchPresence h).rxByte = r.rxByte := rfl
@[simp] theorem Regs.latchPresence_rxBit (r : Regs) (h : Hidden) : (r.latchPresence h).rxBit = r.rxBit := rfl
@[simp] theorem Regs.latchPresence_pinerr (r : Regs) (h : Hidden) : (r.latchPresence h).pinerr = r.pinerr := rfl
@[simp] theorem Regs.latchPresence_romid (r : Regs) (h : Hidden) : (r.latchPresence h).romid = r.romid := rfl
@[simp] theorem Regs.latchPresence_saddr (r : Regs) (h : Hidden) : (r.latchPresence h).saddr = r.saddr := rfl
@[simp] theorem Regs.latchPresence_sdisc (r : Regs) (h : Hidden) : (r.latchPresence h).sdisc = r.sdisc := rfl
@[simp] theorem Regs.latchPresence_sldi (r : Regs) (h : Hidden) : (r.latchPresence h).sldi = r.sldi := rfl

/-! ## Regs.finishFlags -/

@[simp] theorem Regs.finishFlags_cmd (r : Regs) : (r.finishFlags).cmd = r.cmd := rfl
@[simp] theorem Regs.finishFlags_done (r : Regs) : (r.finishFlags).done = true := rfl
@[simp] theorem Regs.finishFlags_presence (r : Regs) : (r.finishFlags).presence = r.presence := rfl
@[simp] theorem Regs.finishFlags_found (r : Regs) : (r.finishFlags).found = r.found := rfl
@[simp] theorem Regs.finishFlags_rej (r : Regs) : (r.finishFlags).rej = r.rej := rfl
@[simp] theorem Regs.finishFlags_err (r : Regs) : (r.finishFlags).err = r.err := rfl
@[simp] theorem Regs.finishFlags_doneIe (r : Regs) : (r.finishFlags).doneIe = r.doneIe := rfl
@[simp] theorem Regs.finishFlags_rxByte (r : Regs) : (r.finishFlags).rxByte = r.rxByte := rfl
@[simp] theorem Regs.finishFlags_rxBit (r : Regs) : (r.finishFlags).rxBit = r.rxBit := rfl
@[simp] theorem Regs.finishFlags_pinerr (r : Regs) : (r.finishFlags).pinerr = r.pinerr := rfl
@[simp] theorem Regs.finishFlags_romid (r : Regs) : (r.finishFlags).romid = r.romid := rfl
@[simp] theorem Regs.finishFlags_saddr (r : Regs) : (r.finishFlags).saddr = r.saddr := rfl
@[simp] theorem Regs.finishFlags_sdisc (r : Regs) : (r.finishFlags).sdisc = r.sdisc := rfl
@[simp] theorem Regs.finishFlags_sldi (r : Regs) : (r.finishFlags).sldi = r.sldi := rfl

/-! ## Regs.raiseFlags -/

@[simp] theorem Regs.raiseFlags_cmd (r : Regs) (e : CmdError) : (r.raiseFlags e).cmd = r.cmd := rfl
@[simp] theorem Regs.raiseFlags_done (r : Regs) (e : CmdError) : (r.raiseFlags e).done = true := rfl
@[simp] theorem Regs.raiseFlags_presence (r : Regs) (e : CmdError) : (r.raiseFlags e).presence = r.presence := rfl
@[simp] theorem Regs.raiseFlags_found (r : Regs) (e : CmdError) : (r.raiseFlags e).found = false := rfl
@[simp] theorem Regs.raiseFlags_rej (r : Regs) (e : CmdError) : (r.raiseFlags e).rej = r.rej := rfl
@[simp] theorem Regs.raiseFlags_err (r : Regs) (e : CmdError) : (r.raiseFlags e).err = e.kind := rfl
@[simp] theorem Regs.raiseFlags_doneIe (r : Regs) (e : CmdError) : (r.raiseFlags e).doneIe = r.doneIe := rfl
@[simp] theorem Regs.raiseFlags_rxByte (r : Regs) (e : CmdError) : (r.raiseFlags e).rxByte = r.rxByte := rfl
@[simp] theorem Regs.raiseFlags_rxBit (r : Regs) (e : CmdError) : (r.raiseFlags e).rxBit = r.rxBit := rfl
@[simp] theorem Regs.raiseFlags_pinerr (r : Regs) (e : CmdError) : (r.raiseFlags e).pinerr = r.pinerr := rfl
@[simp] theorem Regs.raiseFlags_romid (r : Regs) (e : CmdError) : (r.raiseFlags e).romid = r.romid := rfl
@[simp] theorem Regs.raiseFlags_saddr (r : Regs) (e : CmdError) : (r.raiseFlags e).saddr = r.saddr := rfl
@[simp] theorem Regs.raiseFlags_sdisc (r : Regs) (e : CmdError) : (r.raiseFlags e).sdisc = r.sdisc := rfl
@[simp] theorem Regs.raiseFlags_sldi (r : Regs) (e : CmdError) : (r.raiseFlags e).sldi = r.sldi := rfl

/-! ## Regs.reject -/

@[simp] theorem Regs.reject_cmd (r : Regs) : (r.reject).cmd = r.cmd := rfl
@[simp] theorem Regs.reject_done (r : Regs) : (r.reject).done = r.done := rfl
@[simp] theorem Regs.reject_presence (r : Regs) : (r.reject).presence = r.presence := rfl
@[simp] theorem Regs.reject_found (r : Regs) : (r.reject).found = r.found := rfl
@[simp] theorem Regs.reject_rej (r : Regs) : (r.reject).rej = true := rfl
@[simp] theorem Regs.reject_err (r : Regs) : (r.reject).err = r.err := rfl
@[simp] theorem Regs.reject_doneIe (r : Regs) : (r.reject).doneIe = r.doneIe := rfl
@[simp] theorem Regs.reject_rxByte (r : Regs) : (r.reject).rxByte = r.rxByte := rfl
@[simp] theorem Regs.reject_rxBit (r : Regs) : (r.reject).rxBit = r.rxBit := rfl
@[simp] theorem Regs.reject_pinerr (r : Regs) : (r.reject).pinerr = r.pinerr := rfl
@[simp] theorem Regs.reject_romid (r : Regs) : (r.reject).romid = r.romid := rfl
@[simp] theorem Regs.reject_saddr (r : Regs) : (r.reject).saddr = r.saddr := rfl
@[simp] theorem Regs.reject_sdisc (r : Regs) : (r.reject).sdisc = r.sdisc := rfl
@[simp] theorem Regs.reject_sldi (r : Regs) : (r.reject).sldi = r.sldi := rfl

/-! ## Regs.writeStatus -/

@[simp] theorem Regs.writeStatus_cmd (r : Regs) (v : Word) : (r.writeStatus v).cmd = r.cmd := rfl
@[simp] theorem Regs.writeStatus_done (r : Regs) (v : Word) : (r.writeStatus v).done = (r.done && !v.getLsbD 1) := rfl
@[simp] theorem Regs.writeStatus_presence (r : Regs) (v : Word) : (r.writeStatus v).presence = r.presence := rfl
@[simp] theorem Regs.writeStatus_found (r : Regs) (v : Word) : (r.writeStatus v).found = r.found := rfl
@[simp] theorem Regs.writeStatus_rej (r : Regs) (v : Word) : (r.writeStatus v).rej = (r.rej && !v.getLsbD 4) := rfl
@[simp] theorem Regs.writeStatus_err (r : Regs) (v : Word) : (r.writeStatus v).err = r.err := rfl
@[simp] theorem Regs.writeStatus_doneIe (r : Regs) (v : Word) : (r.writeStatus v).doneIe = r.doneIe := rfl
@[simp] theorem Regs.writeStatus_rxByte (r : Regs) (v : Word) : (r.writeStatus v).rxByte = r.rxByte := rfl
@[simp] theorem Regs.writeStatus_rxBit (r : Regs) (v : Word) : (r.writeStatus v).rxBit = r.rxBit := rfl
@[simp] theorem Regs.writeStatus_pinerr (r : Regs) (v : Word) : (r.writeStatus v).pinerr = r.pinerr := rfl
@[simp] theorem Regs.writeStatus_romid (r : Regs) (v : Word) : (r.writeStatus v).romid = r.romid := rfl
@[simp] theorem Regs.writeStatus_saddr (r : Regs) (v : Word) : (r.writeStatus v).saddr = r.saddr := rfl
@[simp] theorem Regs.writeStatus_sdisc (r : Regs) (v : Word) : (r.writeStatus v).sdisc = r.sdisc := rfl
@[simp] theorem Regs.writeStatus_sldi (r : Regs) (v : Word) : (r.writeStatus v).sldi = r.sldi := rfl

end Sys2Proof.Machine
end

