-- ==== Sys2Proof/Laws/Ops.lean ====
section
/-!
SUPPORT. What the shared operations of Machine/Ops.lean do: the register map, host accesses while a command runs, the
passing of time, and the assignment of one bit.
-/

namespace Sys2Proof.Machine

/-! ## One bit of a value -/

/-- `v[i] <- c` sets bit i and leaves every other bit. -/
theorem getLsbD_assignBit {w : Nat} (v : BitVec w) (i j : Nat) (c : Bool) :
    (assignBit v i c).getLsbD j = if j = i ∧ j < w then c else v.getLsbD j := by
  unfold assignBit
  by_cases hj : j < w
  · by_cases h : j = i
    · subst h; cases c <;> simp [hj]
    · cases c <;> simp [hj, h]
  · have hv : v.getLsbD j = false := BitVec.getLsbD_of_ge v j (by omega)
    cases c
    · simp [hj, hv]
    · simp [hj, hv]; omega

/-! ## A host access while a command runs -/

/-- The registers a host access cannot change while a command runs (10_state.md R38): all but DONE, REJ and
DONE_IE. -/
structure Regs.sameLocked (a b : Regs) : Prop where
  cmd : a.cmd = b.cmd
  presence : a.presence = b.presence
  found : a.found = b.found
  err : a.err = b.err
  rxByte : a.rxByte = b.rxByte
  rxBit : a.rxBit = b.rxBit
  pinerr : a.pinerr = b.pinerr
  romid : a.romid = b.romid
  saddr : a.saddr = b.saddr
  sdisc : a.sdisc = b.sdisc
  sldi : a.sldi = b.sldi

theorem Regs.sameLocked.refl (a : Regs) : a.sameLocked a := by constructor <;> rfl

theorem Regs.sameLocked.trans {a b c : Regs} (h : a.sameLocked b) (k : b.sameLocked c) : a.sameLocked c := by
  constructor
  · exact h.cmd.trans k.cmd
  · exact h.presence.trans k.presence
  · exact h.found.trans k.found
  · exact h.err.trans k.err
  · exact h.rxByte.trans k.rxByte
  · exact h.rxBit.trans k.rxBit
  · exact h.pinerr.trans k.pinerr
  · exact h.romid.trans k.romid
  · exact h.saddr.trans k.saddr
  · exact h.sdisc.trans k.sdisc
  · exact h.sldi.trans k.sldi

/-- What a host access can do while a command runs: its own effect on DONE (cleared at most), REJ and DONE_IE. -/
structure State.accessEffect (s t : State) : Prop where
  seq : t.seq = s.seq
  hid : t.hid = s.hid
  port : t.port = s.port
  resets : t.resets = s.resets
  cfg : t.cfg = s.cfg
  locked : t.regs.sameLocked s.regs
  done : t.regs.done = true → s.regs.done = true

theorem State.accessEffect.refl (s : State) : s.accessEffect s :=
  ⟨rfl, rfl, rfl, rfl, rfl, .refl _, id⟩

theorem State.accessEffect.trans {s t u : State} (h : s.accessEffect t) (k : t.accessEffect u) :
    s.accessEffect u :=
  ⟨k.seq.trans h.seq, k.hid.trans h.hid, k.port.trans h.port, k.resets.trans h.resets, k.cfg.trans h.cfg,
    k.locked.trans h.locked, fun d => h.done (k.done d)⟩

theorem State.accessEffect.busy {s t : State} (h : s.accessEffect t) : t.busy = s.busy := by
  simp [State.busy, h.seq]

/-- A host write while a command runs. -/
theorem writeWord_effect {s : State} (hb : s.busy = true) (off : Offset) (v : Word) :
    s.accessEffect (s.writeWord off v) := by
  unfold State.writeWord
  split
  · rename_i r _
    refine ⟨rfl, rfl, rfl, rfl, rfl, ?_, ?_⟩
    · cases r <;> simp [hb, Reg.locked, Regs.store, Regs.reject, Regs.writeStatus] <;> constructor <;> rfl
    · cases r <;> simp +contextual [hb, Reg.locked, Regs.store]
  · exact .refl s

/-- Any host access while a command runs. -/
theorem access_effect {s : State} (hb : s.busy = true) (op : HostOp) : s.accessEffect (s.access op) := by
  cases op with
  | read off => exact ⟨rfl, rfl, rfl, rfl, rfl, .refl _, id⟩
  | write off v => exact writeWord_effect hb off v

/-! ## The passing of time -/

/-- The host's accesses in a stretch of time have only their own effects. -/
theorem elapseTo_effect (t : Nat) (queue : List Input) :
    ∀ s : State, s.busy = true → s.accessEffect (elapseTo t queue s) := by
  induction queue with
  | nil => intro s _; exact ⟨rfl, rfl, rfl, rfl, rfl, .refl _, id⟩
  | cons inp queue ih =>
    intro s hb
    unfold elapseTo
    split
    · have h1 : s.accessEffect (s.takeInput inp.due queue) := ⟨rfl, rfl, rfl, rfl, rfl, .refl _, id⟩
      have h2 : (s.takeInput inp.due queue).busy = true := hb
      have h3 := access_effect h2 inp.op
      exact (h1.trans h3).trans (ih _ (by rw [h3.busy, h2]))
    · exact ⟨rfl, rfl, rfl, rfl, rfl, .refl _, id⟩

/-- The clock reaches the end of the stretch. -/
theorem elapseTo_now (t : Nat) (queue : List Input) : ∀ s : State, (elapseTo t queue s).now = t := by
  induction queue with
  | nil => intro s; rfl
  | cons inp queue ih =>
    intro s
    unfold elapseTo
    split
    · exact ih _
    · rfl

/-- The accesses that fall due in the stretch, up to the first that does not, have left the queue. -/
theorem elapseTo_queue (t : Nat) (queue : List Input) : ∀ s : State,
    (elapseTo t queue s).host.queue = queue.dropWhile fun inp => inp.due.before t := by
  induction queue with
  | nil => intro s; rfl
  | cons inp queue ih =>
    intro s
    unfold elapseTo
    by_cases h : inp.due.before t = true
    · simp [ih, List.dropWhile, h]
    · simp [List.dropWhile, h]

/-- With nothing to come from the host, only the clock moves. -/
theorem elapseTo_nil {s : State} (t : Nat) (h : s.host.queue = []) :
    elapseTo t s.host.queue s = { s with now := t } := by
  obtain ⟨regs, seq, hid, port, ⟨queue, reads⟩, resets, now, cfg⟩ := s
  simp only at h
  subst h
  rfl

/-- With nothing to come from outside, cycles pass and the command goes on. -/
theorem afterCycles_quiet {s : State} (h : s.quiet) (n : Nat) (f : State → State) :
    s.afterCycles n f = f { s with now := s.now + n } := by
  have hr : s.resetBefore (s.now + n) = none := by unfold State.resetBefore; rw [h.2]
  unfold State.afterCycles
  rw [hr, elapseTo_nil _ h.1]

/-- With no block reset to come, cycles pass with the host's accesses in them, and the command goes on. -/
theorem afterCycles_noReset {s : State} (h : s.resets = []) (n : Nat) (f : State → State) :
    s.afterCycles n f = f (elapseTo (s.now + n) s.host.queue s) := by
  have hr : s.resetBefore (s.now + n) = none := by unfold State.resetBefore; rw [h]
  unfold State.afterCycles
  rw [hr]

/-- What the passing of cycles can do: a block reset abandons the command, or the command goes on from a state in
which only the host's accesses and the clock have moved. -/
theorem afterCycles_cases {s : State} (hb : s.busy = true) (n : Nat) (f : State → State) :
    (∃ t r, s.accessEffect t ∧ s.afterCycles n f = t.resetNow r) ∨
    (∃ t, s.accessEffect t ∧ t.now = s.now + n ∧ s.afterCycles n f = f t) := by
  unfold State.afterCycles
  split
  · rename_i r _
    exact .inl ⟨_, r, elapseTo_effect r s.host.queue s hb, rfl⟩
  · exact .inr ⟨_, elapseTo_effect _ s.host.queue s hb, elapseTo_now _ _ _, rfl⟩

end Sys2Proof.Machine
end

