-- ==== Sys2Proof/Laws/Sequencer.lean ====
section
/-!
SUPPORT. The sequencer's run: when it stops, how runs compose, an induction over a run, what one step can do whatever the
pin port and the host do, and what each step does when nothing disturbs it.
-/

namespace Sys2Proof.Machine

/-! ## Runs -/

theorem runSeq_stopped {s : State} (h : s.stopped = true) (n : Nat) : runSeq n s = s := by
  cases n <;> simp [runSeq, h]

theorem runSeq_succ {s : State} (h : s.stopped = false) (n : Nat) :
    runSeq (n + 1) s = runSeq n (seqStep s) := by
  simp [runSeq, h]

/-- A property that every step keeps holds at the end of a run. -/
theorem runSeq_induct (P : State → Prop) (hstep : ∀ s, s.stopped = false → P s → P (seqStep s)) (n : Nat) :
    ∀ s, P s → P (runSeq n s) := by
  induction n with
  | zero => intro s h; exact h
  | succ n ih =>
    intro s h
    by_cases hs : s.stopped = true
    · rwa [runSeq_stopped hs]
    · rw [runSeq_succ (by simpa using hs)]
      exact ih _ (hstep s (by simpa using hs) h)

/-- A run that has stopped stays where it is with more steps allowed. -/
theorem runSeq_more {n : Nat} : ∀ {s : State}, (runSeq n s).stopped = true → ∀ k, runSeq (n + k) s = runSeq n s := by
  induction n with
  | zero =>
    intro s h k
    have h' : s.stopped = true := h
    simp [runSeq, runSeq_stopped h']
  | succ n ih =>
    intro s h k
    by_cases hs : s.stopped = true
    · rw [runSeq_stopped hs, runSeq_stopped hs]
    · have hs' : s.stopped = false := by simpa using hs
      rw [runSeq_succ hs'] at h ⊢
      rw [show n + 1 + k = (n + k) + 1 by omega, runSeq_succ hs']
      exact ih h k

/-! ## Where a run stops -/

theorem stopped_cases {s : State} (h : s.stopped = true) : s.seq = .idle ∨ s.seq = .run [] ∨ s.held = true := by
  unfold State.stopped at h
  unfold State.held
  split at h <;> rename_i heq <;> simp_all

theorem stopped_idle {s : State} (h : s.seq = .idle) : s.stopped = true := by
  unfold State.stopped; rw [h]

/-- A running engine has a step to take: it is held only at a request issued before. -/
theorem stopped_run {s : State} {m : Micro} {rest : List Micro} (h : s.seq = .run (m :: rest)) : s.stopped = false := by
  unfold State.stopped; rw [h]

/-- Held: a request has been issued that is never answered. -/
theorem held_iff {s : State} : s.held = true ↔ ∃ r rest, s.seq = .await r rest := by
  unfold State.held
  cases s.seq <;> simp

/-- A held engine is busy. -/
theorem busy_await {s : State} {r : PinReq} {rest : List Micro} (h : s.seq = .await r rest) : s.busy = true := by
  unfold State.busy; rw [h]

theorem busy_run {s : State} {l : List Micro} (h : s.seq = .run l) : s.busy = true := by
  unfold State.busy; rw [h]

theorem busy_idle {s : State} (h : s.seq = .idle) : s.busy = false := by
  unfold State.busy; rw [h]

theorem not_stopped_run {s : State} (h : s.stopped = false) : ∃ m rest, s.seq = .run (m :: rest) := by
  unfold State.stopped at h
  split at h <;> try cases h
  exact ⟨_, _, ‹_›⟩

/-! ## Whether a request is answered -/

/-- WAIT_HIGH needs no answer, and any request has one while there are draws. -/
theorem answers_of {s : State} {q : PinReq} (h : q = .waitHigh ∨ s.port.draws ≠ []) : s.answers q = true := by
  unfold State.answers
  rcases h with rfl | h
  · rfl
  · cases hd : s.port.draws <;> simp_all

/-- A request that is never answered: not WAIT_HIGH, and no draw is left. -/
theorem answers_false {s : State} {q : PinReq} : s.answers q = false ↔ q ≠ .waitHigh ∧ s.port.draws = [] := by
  unfold State.answers
  cases q <;> cases s.port.draws <;> simp [PinReq.needsAnswer]

/-! ## One step, whatever the pin port and the host do -/

/-- The one step of a running command: a block reset abandons the command; or, from a state t in which only the
host's accesses have moved, a request takes its answer, a wait passes, an act runs, or the command ends; or a request is
issued that is never answered. -/
inductive StepTo (s : State) (m : Micro) (rest : List Micro) : State → Prop where
  | reset (t : State) (r : Nat) (h : { s with port := t.port }.accessEffect t)
      (hd : t.port.draws = s.port.draws ∨ t.port.draws = s.port.draws.tail)
      (ht : t.port.trace = s.port.trace) : StepTo s m rest (t.resetNow r)
  | pin (t : State) (q : PinReq) (w : Nat) (hm : m = .pin q)
      (h : { s with port := { s.port with draws := s.port.draws.tail } }.accessEffect t) :
      StepTo s m rest
        ((t.mapHid fun h => { h with tmr := if q = .waitHigh then w else h.tmr }).takeAnswer q
          (s.nextDraw.answer s.cfg s.hid.drv q) rest)
  | silent (q : PinReq) (hm : m = .pin q) (hq : q ≠ .waitHigh) (hd : s.port.draws = []) :
      StepTo s m rest (s.awaitAnswer q rest)
  | wait (t : State) (us : Nat) (hm : m = .wait us) (h : s.accessEffect t) :
      StepTo s m rest
        { (t.mapHid fun h => { h with tmr := usCycles s.cfg us }).log (.wait us) with seq := .run rest }
  | act (a : Act) (hm : m = .act a) : StepTo s m rest (s.runAct a rest)
  | finish (t : State) (c : Commit) (hm : m = .finish c) (h : s.accessEffect t) :
      StepTo s m rest (t.endFinish c)
  | raise (t : State) (e : CmdError) (hm : m = .raise e) (h : s.accessEffect t) :
      StepTo s m rest (t.endRaise e)

theorem seqStep_cases {s : State} {m : Micro} {rest : List Micro} (hs : s.seq = .run (m :: rest)) :
    StepTo s m rest (seqStep s) := by
  have hb : s.busy = true := busy_run hs
  unfold seqStep
  rw [hs]
  cases m with
  | pin q =>
    by_cases ha : s.answers q = true
    case neg =>
      have ha' : s.answers q = false := by simpa using ha
      obtain ⟨hq, hd⟩ := answers_false.1 ha'
      simp only [State.pinStep, ha', Bool.false_eq_true, if_false]
      exact .silent q rfl hq hd
    simp only [State.pinStep, ha, if_true, State.answeredStep]
    have hb' : ({ s with port := { s.port with draws := s.port.draws.tail } } : State).busy = true := hb
    rcases afterCycles_cases hb' _ _ with ⟨t, r, h, e⟩ | ⟨t, h, _, e⟩
    · rw [e]
      refine .reset t r ?_ (.inr ?_) ?_
      · exact ⟨h.seq, h.hid, rfl, h.resets, h.cfg, h.locked, h.done⟩
      · rw [h.port]
      · rw [h.port]
    · rw [e]
      exact .pin t q _ rfl h
  | wait us =>
    simp only [State.waitStep]
    rcases afterCycles_cases hb _ _ with ⟨t, r, h, e⟩ | ⟨t, h, _, e⟩
    · rw [e]
      exact .reset t r ⟨h.seq, h.hid, rfl, h.resets, h.cfg, h.locked, h.done⟩ (.inl (by rw [h.port])) (by rw [h.port])
    · rw [e]
      exact .wait t us rfl h
  | act a => exact .act a rfl
  | finish c =>
    rcases afterCycles_cases hb endCycles (fun t => t.endFinish c) with ⟨t, r, h, e⟩ | ⟨t, h, _, e⟩
    · simp only [e]
      exact .reset t r ⟨h.seq, h.hid, rfl, h.resets, h.cfg, h.locked, h.done⟩ (.inl (by rw [h.port])) (by rw [h.port])
    · simp only [e]
      exact .finish t c rfl h
  | raise x =>
    rcases afterCycles_cases hb endCycles (fun t => t.endRaise x) with ⟨t, r, h, e⟩ | ⟨t, h, _, e⟩
    · simp only [e]
      exact .reset t r ⟨h.seq, h.hid, rfl, h.resets, h.cfg, h.locked, h.done⟩ (.inl (by rw [h.port])) (by rw [h.port])
    · simp only [e]
      exact .raise t x rfl h

end Sys2Proof.Machine
end

