-- ==== Sys2Proof/Laws/Quiet.lean ====
section
/-!
SUPPORT. Runs that nothing disturbs: `moved` is a state a quiet run has reached, and each step takes a moved state
to a moved state. The sub-procedures of Machine/Procedures.lean follow, one lemma each.
-/

namespace Sys2Proof.Machine

/-- The state a quiet run from s has reached: the steps still to run, the hidden registers, the trace added, the draws
left, and the cycles passed. -/
def State.moved (s : State) (step : List Micro) (h : Hidden) (evs : List TraceEv) (ds : List PinDraw) (n : Nat) :
    State :=
  { s with
    seq := .run step
    hid := h
    port := { draws := ds, trace := s.port.trace ++ evs }
    now := s.now + n }

section moved
variable (s : State) (l : List Micro) (h : Hidden) (evs : List TraceEv) (ds : List PinDraw) (n : Nat)

@[simp] theorem moved_regs : (s.moved l h evs ds n).regs = s.regs := rfl
@[simp] theorem moved_seq : (s.moved l h evs ds n).seq = .run l := rfl
@[simp] theorem moved_hid : (s.moved l h evs ds n).hid = h := rfl
@[simp] theorem moved_draws : (s.moved l h evs ds n).port.draws = ds := rfl
@[simp] theorem moved_trace : (s.moved l h evs ds n).port.trace = s.port.trace ++ evs := rfl
@[simp] theorem moved_host : (s.moved l h evs ds n).host = s.host := rfl
@[simp] theorem moved_resets : (s.moved l h evs ds n).resets = s.resets := rfl
@[simp] theorem moved_now : (s.moved l h evs ds n).now = s.now + n := rfl
@[simp] theorem moved_cfg : (s.moved l h evs ds n).cfg = s.cfg := rfl
@[simp] theorem moved_nextDraw : (s.moved l h evs ds n).nextDraw = ds.headD PinDraw.silent := rfl

variable {s}

theorem moved_quiet (hq : s.quiet) : (s.moved l h evs ds n).quiet := hq

/-- A command starts as a moved state. -/
theorem start_moved (s : State) (l : List Micro) :
    ({ s with seq := .run l } : State) = s.moved l s.hid [] s.port.draws 0 := by
  simp [State.moved]

end moved

variable {s : State} {rest : List Micro} {h : Hidden} {evs : List TraceEv} {ds : List PinDraw} {n : Nat}

/-! ## Single steps -/

theorem moved_not_stopped {m : Micro} : (s.moved (m :: rest) h evs ds n).stopped = false := stopped_run (moved_seq ..)

/-- A request that is answered, with the answer the draw gives. -/
theorem step_pin (hq : s.quiet) (q : PinReq) (hd : q = .waitHigh ∨ ds ≠ []) :
    seqStep (s.moved (.pin q :: rest) h evs ds n) =
      s.moved (stepAfter ((ds.headD PinDraw.silent).answer s.cfg h.drv q) rest)
        { h with
          tmr := if q = .waitHigh then (ds.headD PinDraw.silent).waitCycles s.cfg h.drv q else h.tmr
          drv := drvAfter q ((ds.headD PinDraw.silent).answer s.cfg h.drv q) h.drv
          bit := bitAfter ((ds.headD PinDraw.silent).answer s.cfg h.drv q) h.bit }
        (evs ++ [.pin q ((ds.headD PinDraw.silent).answer s.cfg h.drv q)]) ds.tail
        (n + ((ds.headD PinDraw.silent).waitCycles s.cfg h.drv q + s.cfg.actLat)) := by
  unfold seqStep
  simp only [moved_seq, State.pinStep, answers_of (s := s.moved (.pin q :: rest) h evs ds n) hd, if_true,
    State.answeredStep]
  rw [afterCycles_quiet]
  · simp [State.moved, State.nextDraw, State.mapHid, State.takeAnswer, Nat.add_assoc]
  · exact hq

/-- A wait. -/
theorem step_wait (hq : s.quiet) (us : Nat) :
    seqStep (s.moved (.wait us :: rest) h evs ds n) =
      s.moved rest { h with tmr := usCycles s.cfg us } (evs ++ [.wait us]) ds (n + usCycles s.cfg us) := by
  unfold seqStep
  simp only [moved_seq, State.waitStep]
  rw [afterCycles_quiet (moved_quiet _ _ _ _ _ hq)]
  simp [State.moved, State.mapHid, State.log, Nat.add_assoc]

/-- An act. -/
theorem step_act (a : Act) :
    seqStep (s.moved (.act a :: rest) h evs ds n) =
      s.moved (a.next (s.moved (.act a :: rest) h evs ds n) ++ rest)
        (a.hid (s.moved (.act a :: rest) h evs ds n)) evs ds n := rfl

/-- `finish`. -/
theorem step_finish (hq : s.quiet) (c : Commit) :
    seqStep (s.moved (.finish c :: rest) h evs ds n) =
      { s with
        regs := ((s.regs.commit h c).latchPresence h).finishFlags
        seq := .idle
        hid := h
        port := { draws := ds, trace := s.port.trace ++ evs }
        now := s.now + (n + 1) } := by
  unfold seqStep
  simp only [moved_seq]
  rw [afterCycles_quiet (moved_quiet _ _ _ _ _ hq)]
  simp [State.moved, State.endFinish, endCycles, Nat.add_assoc]

/-- `raise`. -/
theorem step_raise (hq : s.quiet) (e : CmdError) :
    seqStep (s.moved (.raise e :: rest) h evs ds n) =
      { s with
        regs := ((s.regs.latchPresence h).recordPinErr e).raiseFlags e
        seq := .idle
        hid := h
        port := { draws := ds, trace := s.port.trace ++ evs }
        now := s.now + (n + 1) } := by
  unfold seqStep
  simp only [moved_seq]
  rw [afterCycles_quiet (moved_quiet _ _ _ _ _ hq)]
  simp [State.moved, State.endRaise, endCycles, Nat.add_assoc]

/-! ## Runs by single steps -/

variable {k : Nat} {d : PinDraw}

theorem run_driveLow (hq : s.quiet) (hd : d.fault s.cfg = none) :
    runSeq (k + 1) (s.moved (.pin .driveLow :: rest) h evs (d :: ds) n) =
      runSeq k (s.moved rest { h with drv := true } (evs ++ [.pin .driveLow .ok]) ds (n + s.cfg.actLat)) := by
  rw [runSeq_succ moved_not_stopped, step_pin hq _ (by simp)]
  simp [PinDraw.answer, PinDraw.waitCycles, hd, stepAfter, drvAfter, bitAfter]

theorem run_release (hq : s.quiet) (hd : d.fault s.cfg = none) :
    runSeq (k + 1) (s.moved (.pin .release :: rest) h evs (d :: ds) n) =
      runSeq k (s.moved rest { h with drv := false } (evs ++ [.pin .release .ok]) ds (n + s.cfg.actLat)) := by
  rw [runSeq_succ moved_not_stopped, step_pin hq _ (by simp)]
  simp [PinDraw.answer, PinDraw.waitCycles, hd, stepAfter, drvAfter, bitAfter]

theorem run_isHigh (hq : s.quiet) (hd : d.fault s.cfg = none) :
    runSeq (k + 1) (s.moved (.pin .isHigh :: rest) h evs (d :: ds) n) =
      runSeq k (s.moved rest { h with bit := d.lineHigh h.drv }
        (evs ++ [.pin .isHigh (.level (d.lineHigh h.drv))]) ds (n + s.cfg.actLat)) := by
  rw [runSeq_succ moved_not_stopped, step_pin hq _ (by simp)]
  simp [PinDraw.answer, PinDraw.waitCycles, hd, stepAfter, drvAfter, bitAfter]

theorem run_isLow (hq : s.quiet) (hd : d.fault s.cfg = none) :
    runSeq (k + 1) (s.moved (.pin .isLow :: rest) h evs (d :: ds) n) =
      runSeq k (s.moved rest { h with bit := !d.lineHigh h.drv }
        (evs ++ [.pin .isLow (.level (!d.lineHigh h.drv))]) ds (n + s.cfg.actLat)) := by
  rw [runSeq_succ moved_not_stopped, step_pin hq _ (by simp)]
  simp [PinDraw.answer, PinDraw.waitCycles, hd, stepAfter, drvAfter, bitAfter]

/-- WAIT_HIGH on a line that idles high. -/
theorem run_waitHigh (hq : s.quiet) (hd : d.fault s.cfg = none) (hi : d.idlesHigh s.cfg) (hv : h.drv = false) :
    runSeq (k + 1) (s.moved (.pin .waitHigh :: rest) h evs (d :: ds) n) =
      runSeq k (s.moved rest { h with tmr := d.delay }
        (evs ++ [.pin .waitHigh .high]) ds (n + (d.delay + s.cfg.actLat))) := by
  have ha : d.waitAnswer s.cfg h.drv = .high := by
    simp [PinDraw.waitAnswer, hd, PinDraw.lineHigh, hi.1, hv, timeoutCycles, usCycles, tWaitHighTimeout, hi.2]
  rw [runSeq_succ moved_not_stopped, step_pin hq _ (by simp)]
  simp [PinDraw.answer, PinDraw.waitCycles, ha, stepAfter, drvAfter, bitAfter]

theorem run_wait (hq : s.quiet) (us : Nat) :
    runSeq (k + 1) (s.moved (.wait us :: rest) h evs ds n) =
      runSeq k (s.moved rest { h with tmr := usCycles s.cfg us } (evs ++ [.wait us]) ds
        (n + usCycles s.cfg us)) := by
  rw [runSeq_succ moved_not_stopped, step_wait hq]

theorem run_act (a : Act) :
    runSeq (k + 1) (s.moved (.act a :: rest) h evs ds n) =
      runSeq k (s.moved (a.next (s.moved (.act a :: rest) h evs ds n) ++ rest)
        (a.hid (s.moved (.act a :: rest) h evs ds n)) evs ds n) := by
  rw [runSeq_succ moved_not_stopped, step_act]

theorem run_finish (hq : s.quiet) (c : Commit) :
    runSeq (k + 1) (s.moved (.finish c :: rest) h evs ds n) =
      { s with
        regs := ((s.regs.commit h c).latchPresence h).finishFlags
        seq := .idle
        hid := h
        port := { draws := ds, trace := s.port.trace ++ evs }
        now := s.now + (n + 1) } := by
  rw [runSeq_succ moved_not_stopped, step_finish hq]
  exact runSeq_stopped (stopped_idle rfl) _

theorem run_raise (hq : s.quiet) (e : CmdError) :
    runSeq (k + 1) (s.moved (.raise e :: rest) h evs ds n) =
      { s with
        regs := ((s.regs.latchPresence h).recordPinErr e).raiseFlags e
        seq := .idle
        hid := h
        port := { draws := ds, trace := s.port.trace ++ evs }
        now := s.now + (n + 1) } := by
  rw [runSeq_succ moved_not_stopped, step_raise hq]
  exact runSeq_stopped (stopped_idle rfl) _

/-! ## Time slots and the reset sequence -/

variable {d0 d1 d2 d3 : PinDraw}

/-- WRITE_SLOT(b): two requests, 70 µs. -/
theorem run_writeSlot (hq : s.quiet) (b : Bool) (h0 : d0.fault s.cfg = none) (h1 : d1.fault s.cfg = none) :
    runSeq (k + 4) (s.moved (writeSlot b ++ rest) h evs (d0 :: d1 :: ds) n) =
      runSeq k (s.moved rest { h with drv := false, tmr := usCycles s.cfg (slotRec b) }
        (evs ++ writeSlotEvs b) ds (n + (70 * s.cfg.ticksPerUs + 2 * s.cfg.actLat))) := by
  simp only [writeSlot, List.cons_append, List.nil_append]
  rw [run_driveLow hq h0, run_wait hq, run_release hq h1, run_wait hq]
  congr 2
  · cases b <;> simp [writeSlotEvs, slotLow, slotRec, tW1Low, tW1Rec, tW0Low, tW0Rec]
  · cases b <;> simp only [usCycles, slotLow, slotRec, tW1Low, tW1Rec, tW0Low, tW0Rec] <;> simp <;> ring

/-- READ_SLOT: three requests, 70 µs, and the sample in `bit`. -/
theorem run_readSlot (hq : s.quiet) (h0 : d0.fault s.cfg = none) (h1 : d1.fault s.cfg = none)
    (h2 : d2.fault s.cfg = none) :
    runSeq (k + 6) (s.moved (readSlot ++ rest) h evs (d0 :: d1 :: d2 :: ds) n) =
      runSeq k (s.moved rest { h with drv := false, bit := d2.high, tmr := usCycles s.cfg 55 }
        (evs ++ readSlotEvs d2.high) ds (n + (70 * s.cfg.ticksPerUs + 3 * s.cfg.actLat))) := by
  simp only [readSlot, List.cons_append, List.nil_append]
  rw [run_driveLow hq h0, run_wait hq, run_release hq h1, run_wait hq, run_isHigh hq h2, run_wait hq]
  congr 2
  · simp [PinDraw.lineHigh, tRdRec]
  · simp [readSlotEvs, PinDraw.lineHigh, tRdLow, tRdSample, tRdRec]
  · simp only [usCycles, tRdLow, tRdSample, tRdRec]; ring

/-- RESET_SEQ on a line that idles high: four requests, 960 µs, and the presence sample in `pres`. -/
theorem run_resetSeq (hq : s.quiet) (h0 : d0.fault s.cfg = none) (h1 : d1.fault s.cfg = none)
    (h2 : d2.fault s.cfg = none) (h3 : d3.fault s.cfg = none) (hi : d0.idlesHigh s.cfg) (hv : h.drv = false) :
    runSeq (k + 8) (s.moved (resetSeq ++ rest) h evs (d0 :: d1 :: d2 :: d3 :: ds) n) =
      runSeq k (s.moved rest
        { h with drv := false, bit := !d3.high, pres := !d3.high, presV := true, tmr := usCycles s.cfg 410 }
        (evs ++ resetEvs !d3.high) ds
        (n + (960 * s.cfg.ticksPerUs + d0.delay + 4 * s.cfg.actLat))) := by
  simp only [resetSeq, waitForHigh, List.cons_append, List.nil_append]
  rw [run_waitHigh hq h0 hi hv, run_driveLow hq h1, run_wait hq, run_release hq h2, run_wait hq, run_isLow hq h3,
    run_act]
  simp only [Act.next, Act.hid, moved_hid, List.nil_append]
  rw [run_wait hq]
  congr 2
  · simp [PinDraw.lineHigh, tRrec]
  · simp [resetEvs, PinDraw.lineHigh, tRstl, tPds, tRrec]
  · simp only [usCycles, tRstl, tPds, tRrec]; ring

/-! ## Commands that fail -/

/-- A draw with an error answers every request but WAIT_HIGH with it. -/
theorem fault_answer {d : PinDraw} {p : Params} {c : Word} (h : d.fault p = some c) (drv : Bool) (r : PinReq)
    (hr : r ≠ .waitHigh) : d.answer p drv r = .err c := by
  cases r <;> simp_all [PinDraw.answer]

/-- s after a command that a pin error with the code c ended (R275), with this trace added and these draws left. -/
def State.failed (s : State) (h : Hidden) (c : Word) (evs : List TraceEv) (ds : List PinDraw) (n : Nat) : State :=
  { s with
    regs := ((s.regs.latchPresence h).recordPinErr (.pinFailure c)).raiseFlags (.pinFailure c)
    seq := .idle
    hid := h
    port := { draws := ds, trace := s.port.trace ++ evs }
    now := s.now + n }

section failed
variable (s : State) (h : Hidden) (c : Word) (evs : List TraceEv) (ds : List PinDraw) (n : Nat)

@[simp] theorem failed_seq : (s.failed h c evs ds n).seq = .idle := rfl
@[simp] theorem failed_done : (s.failed h c evs ds n).regs.done = true := rfl
@[simp] theorem failed_err : (s.failed h c evs ds n).regs.err = .pinFailure := rfl
@[simp] theorem failed_pinerr : (s.failed h c evs ds n).regs.pinerr = c := rfl
@[simp] theorem failed_port : (s.failed h c evs ds n).port = { draws := ds, trace := s.port.trace ++ evs } := rfl
@[simp] theorem failed_host : (s.failed h c evs ds n).host = s.host := rfl

end failed

/-- A request answered with an error, to the end of the command. -/
theorem run_pinErr (hq : s.quiet) {c : Word} (hd : d.fault s.cfg = some c) (r : PinReq) (hr : r ≠ .waitHigh) :
    runSeq (k + 2) (s.moved (.pin r :: rest) h evs (d :: ds) n) =
      s.failed h c (evs ++ [.pin r (.err c)]) ds (n + s.cfg.actLat + 1) := by
  rw [runSeq_succ moved_not_stopped, step_pin hq _ (by simp)]
  have : (d :: ds).headD PinDraw.silent = d := rfl
  rw [this, fault_answer hd _ _ hr]
  simp only [stepAfter, hr, if_false]
  rw [run_raise hq]
  cases r <;> simp_all [State.failed, drvAfter, bitAfter, PinDraw.waitCycles]

/-- A line not sensed high within the window times out. -/
theorem missesHigh_answer {s : State} (h : s.missesHigh) :
    (s.port.draws.headD PinDraw.silent).waitAnswer s.cfg s.hid.drv = .timeout := by
  rcases h with h | ⟨d, ds, h, h' | ⟨hf, h'⟩⟩
  · rw [h]; simp [PinDraw.waitAnswer, PinDraw.silent, PinDraw.fault, PinDraw.lineHigh]
  · have ht : ¬d.delay ≤ timeoutCycles s.cfg := by
      simp only [timeoutCycles, usCycles, tWaitHighTimeout]; omega
    rw [h]
    simp only [List.headD_cons, PinDraw.waitAnswer, ht, decide_false, Bool.and_false]
    cases d.fault s.cfg <;> simp
  · rw [h]; rcases h' with h' | h' <;> simp [PinDraw.waitAnswer, hf, PinDraw.lineHigh, h']

/-- WAIT_FOR_HIGH on such a line, to the end of the command (R135). -/
theorem run_timeout (hq : s.quiet) (hm : s.missesHigh) :
    runSeq (k + 2) (s.moved (.pin .waitHigh :: rest) s.hid evs s.port.draws n) =
      { s with
        regs := ((s.regs.latchPresence s.hid).recordPinErr .busNotHigh).raiseFlags .busNotHigh
        seq := .idle
        hid := { s.hid with tmr := timeoutCycles s.cfg }
        port := { draws := s.port.draws.tail, trace := s.port.trace ++ (evs ++ [.pin .waitHigh .timeout]) }
        now := s.now + (n + (timeoutCycles s.cfg + s.cfg.actLat) + 1) } := by
  rw [runSeq_succ moved_not_stopped, step_pin hq _ (by simp)]
  simp only [PinDraw.answer, PinDraw.waitCycles, missesHigh_answer hm, stepAfter]
  rw [run_raise hq]
  simp [drvAfter, bitAfter, Regs.latchPresence]

end Sys2Proof.Machine
end

