-- ==== Sys2Proof/Laws/Acts.lean ====
section
/-!
SUPPORT. What the invariant of Safety.lean rests on: the drive state a trace tells, the width of pin error codes, and what
an act does to the counters, to drv and to the step pointer.
-/

namespace Sys2Proof.Machine

/-- What one more entry of the trace says of drv. -/
theorem lastDrive_append (xs : List TraceEv) (e : TraceEv) : lastDrive (xs ++ [e]) =
   match e with
      | .pin .driveLow .ok => true
      | .pin .release .ok => false
      | .blockReset _ => false
      | _ => lastDrive xs := by
  unfold lastDrive
  rw [List.foldl_append]
  rfl

/-- A pin error code is cut to PIN_ERR_W bits. -/
theorem pinCode_fits (p : Params) (c : Word) : codeFits p (pinCode p c) := by
  unfold codeFits pinCode
  have h : p.pinErrW ≤ 32 := by unfold Params.pinErrW; omega
  have h2 : 2 ^ p.pinErrW ≤ 2 ^ 32 := Nat.pow_le_pow_right (by norm_num) h
  have h3 : c.toNat % 2 ^ p.pinErrW < 2 ^ p.pinErrW := Nat.mod_lt _ (by positivity)
  rw [BitVec.toNat_ofNat, Nat.mod_eq_of_lt (by omega)]
  exact h3

/-- The error of a draw fits PIN_ERR_W. -/
theorem fault_fits {d : PinDraw} {p : Params} {c : Word} (h : d.fault p = some c) : codeFits p c := by
  unfold PinDraw.fault at h
  split at h
  · cases h
  · split at h
    · injection h with h
      rw [← h]
      exact pinCode_fits p _
    · cases h

/-- The code of an error answer fits PIN_ERR_W. -/
theorem answer_fits {d : PinDraw} {p : Params} {c : Word} {drv r} (h : d.answer p drv r = .err c) : codeFits p c := by
  have hf : d.fault p = some c := by
    cases hf : d.fault p with
    | none =>
      cases r <;> simp only [PinDraw.answer, PinDraw.waitAnswer, hf, Option.elim] at h <;> try cases h
      split at h <;> cases h
    | some x =>
      cases r <;> simp only [PinDraw.answer, PinDraw.waitAnswer, hf, Option.elim] at h
      · cases h; rfl
      · cases h; rfl
      · cases h; rfl
      · cases h; rfl
      · split at h <;> cases h; rfl
  exact fault_fits hf

/-- A sound step pointer stays sound past a step that does not end its procedure. -/
theorem sound_tail {p : Params} {m : Micro} {l : List Micro} (h : (Sequencer.run (m :: l)).sound p) (hm : m.endsProcedure = false) : (Sequencer.run l).sound p := by
  obtain ⟨⟨x, hx, he⟩, hf⟩ := h
  cases l with
  | nil => simp at hx; subst hx; rw [hm] at he; cases he
  | cons a l => exact ⟨⟨x, by simpa using hx, he⟩, fun m hm => hf m (by simp [hm])⟩

/-- No act raises a pin failure. -/
theorem act_fits (p : Params) (a : Act) (s : State) : ∀ m ∈ a.next s, m.fits p := by
  have key : ∀ l : List Micro, (∀ m ∈ l, ∀ c, m ≠ .raise (.pinFailure c)) → ∀ m ∈ l, m.fits p := by
    intro l h m hm
    unfold Micro.fits
    split
    · exact absurd rfl (h _ hm _)
    · trivial
  apply key
  intro m hm c hc
  subst hc
  cases a <;> simp [Act.next, writeSlot, readSlot, writeByteSeq, resetSeq, waitForHigh, twoRead] at hm <;> split at hm <;> simp_all

/-- An act that ends its procedure goes on with steps that do. -/
theorem act_ends (a : Act) (s : State) (h : (Micro.act a).endsProcedure = true) : ∃ m ∈ (a.next s).getLast?, m.endsProcedure = true := by
  cases a <;> simp [Micro.endsProcedure] at h <;> simp only [Act.next] <;> (try split) <;> 
   simp [Micro.endsProcedure, writeSlot, readSlot, writeByteSeq, resetSeq, waitForHigh, twoRead]

/-- A sound step pointer stays sound past an act. -/
theorem sound_act {p : Params} {a : Act} {l : List Micro} (s : State) (h : (Sequencer.run (.act a :: l)).sound p) : (Sequencer.run (a.next s ++ l)).sound p := by
  refine ⟨?_, ?_⟩
  · cases l with
    | nil =>
      obtain ⟨⟨x, hx, he⟩, hf⟩ := h
      simp at hx; subst hx
      simpa using act_ends a s he
    | cons b l =>
      obtain ⟨⟨x, hx, he⟩, hf⟩ := h
      refine ⟨x, ?_, he⟩
      rw [List.getLast?_append]
      simp only [List.getLast?_cons_cons] at hx
      rw [List.getLast?_eq_some_getLast (by simp)] at hx ⊢
      simpa using hx
  · intro m hm
    rcases List.mem_append.1 hm with h1 | h1
    · exact act_fits p a s m h1
    · exact h.2 m (by simp [h1])

/-- An act keeps the counters in their ranges (10_state.md R66). -/
theorem act_counters (a : Act) (s : State) (h : s.hid.i ≤ 64 ∧ s.hid.k ≤ 8 ∧ s.hid.j ≤ 8) :
   (a.hid s).i ≤ 64 ∧ (a.hid s).k ≤ 8 ∧ (a.hid s).j ≤ 8 := by
  have hL : s.resumeAt < 64 := s.regs.sldi.isLt
  obtain ⟨h1, h2, h3⟩ := h
  cases a <;> simp only [Act.hid, countUp] <;> (try split) <;> simp_all

/-- An act leaves drv. -/
theorem act_drv (a : Act) (s : State) : (a.hid s).drv = s.hid.drv := by
  cases a <;> simp only [Act.hid] <;> (try split) <;> rfl

end Sys2Proof.Machine
end

