-- ==== Sys2Proof/Laws/Bytes.lean ====
section
/-!
SUPPORT. Quiet runs of the byte transceiver and of the match sub-procedure: WRITE_BYTE_SEQ, READ_BYTE_SEQ, MATCH_SEQ.
-/

namespace Sys2Proof.Machine

variable {s : State} {rest : List Micro}

/-- The cycles of one slot with n requests (41_bit_byte.md R179). -/
def slotCycles (p : Params) (n : Nat) : Nat := 70 * p.ticksPerUs + n * p.actLat

theorem allOk_cons {p : Params} {d : PinDraw} {ds : List PinDraw} :
    allOk p (d :: ds) ↔ d.fault p = none ∧ allOk p ds := by
  simp [allOk]

theorem allOk_append {p : Params} {xs ys : List PinDraw} :
    allOk p (xs ++ ys) ↔ allOk p xs ∧ allOk p ys := by
  simp [allOk, or_imp, forall_and]

/-- The loop of WRITE_BYTE_SEQ from bit k on (R176). -/
theorem run_sendBits (hq : s.quiet) (m : Nat) :
    ∀ (h : Hidden) (evs : List TraceEv) (ds0 ds : List PinDraw) (n fuel : Nat), h.k + m = 8 →
      ds0.length = 2 * m → allOk s.cfg ds0 →
      ∃ tm,
        runSeq (fuel + (6 * m + 1)) (s.moved (.act .sendBits :: rest) h evs (ds0 ++ ds) n) =
          runSeq fuel (s.moved rest { h with k := 8, drv := if m = 0 then h.drv else false, tmr := tm }
            (evs ++ (List.range' h.k m).flatMap fun k => writeSlotEvs (h.sh.getLsbD k)) ds
            (n + m * slotCycles s.cfg 2)) := by
  induction m with
  | zero =>
    intro h evs ds0 ds n fuel hk hl _
    have h8 : h.k = 8 := by omega
    refine ⟨h.tmr, ?_⟩
    rw [List.eq_nil_of_length_eq_zero hl]
    rw [show fuel + (6 * 0 + 1) = fuel + 1 by omega, run_act]
    simp [Act.next, Act.hid, h8]
    rw [← h8]
  | succ m ih =>
    intro h evs ds0 ds n fuel hk hl hok
    obtain ⟨d0, d1, ds1, rfl⟩ : ∃ d0 d1 ds1, ds0 = d0 :: d1 :: ds1 := by
      match ds0, hl with
      | d0 :: d1 :: ds1, _ => exact ⟨d0, d1, ds1, rfl⟩
    rw [allOk_cons, allOk_cons] at hok
    obtain ⟨h0, h1, hok⟩ := hok
    have hk8 : h.k < 8 := by omega
    have hc : countUp 8 h.k = h.k + 1 := by simp only [countUp]; omega
    have hl1 : ds1.length = 2 * m := by simp only [List.length_cons] at hl; omega
    rw [show fuel + (6 * (m + 1) + 1) = (fuel + (6 * m + 1) + 1 + 4) + 1 by omega, run_act]
    simp only [Act.next, Act.hid, moved_hid, hk8, if_true, List.append_assoc, List.cons_append]
    rw [run_writeSlot hq _ h0 h1]
    simp only [List.nil_append]
    rw [run_act]
    simp only [Act.next, Act.hid, moved_hid, List.nil_append, hc]
    obtain ⟨tm, e⟩ := ih
      { h with drv := false, tmr := usCycles s.cfg (slotRec (h.sh.getLsbD h.k)), k := h.k + 1 }
      (evs ++ writeSlotEvs (h.sh.getLsbD h.k)) ds1 ds (n + (70 * s.cfg.ticksPerUs + 2 * s.cfg.actLat)) fuel
      (by simp only; omega) hl1 hok
    refine ⟨tm, e.trans ?_⟩
    congr 2
    · simp
    · simp [List.range'_succ]
    · simp only [slotCycles]; ring

/-- WRITE_BYTE_SEQ(v) (R176): eight slots, bit 0 first. -/
theorem run_writeByteSeq (hq : s.quiet) (v : Byte) (h : Hidden) (evs : List TraceEv) (ds0 ds : List PinDraw)
    (n fuel : Nat) (hl : ds0.length = 16) (hok : allOk s.cfg ds0) :
    ∃ tm,
      runSeq (fuel + 50) (s.moved (writeByteSeq v ++ rest) h evs (ds0 ++ ds) n) =
        runSeq fuel (s.moved rest { h with sh := v, k := 8, drv := false, tmr := tm } (evs ++ byteEvs v) ds
          (n + 8 * slotCycles s.cfg 2)) := by
  simp only [writeByteSeq, List.cons_append, List.nil_append]
  rw [show fuel + 50 = (fuel + (6 * 8 + 1)) + 1 by omega, run_act]
  simp only [Act.next, Act.hid, moved_hid, List.nil_append]
  obtain ⟨tm, e⟩ := run_sendBits (rest := rest) hq 8 { h with sh := v, k := 0 } evs ds0 ds n fuel rfl
    (by omega) hok
  refine ⟨tm, e.trans ?_⟩
  simp [byteEvs, bitsEvs, List.range_eq_range']

/-- The loop of READ_BYTE_SEQ from bit k on (R174): the bits below k stay, the others are the samples. -/
theorem run_recvBits (hq : s.quiet) (m : Nat) :
    ∀ (h : Hidden) (evs : List TraceEv) (ds0 ds : List PinDraw) (n fuel : Nat), h.k + m = 8 →
      ds0.length = 3 * m → allOk s.cfg ds0 →
      ∃ tm bit sh,
        (∀ j, j < 8 → sh.getLsbD j = if j < h.k then h.sh.getLsbD j else (drawAt ds0 (3 * (j - h.k) + 2)).high) ∧
        runSeq (fuel + (9 * m + 1)) (s.moved (.act .recvBits :: rest) h evs (ds0 ++ ds) n) =
          runSeq fuel
            (s.moved rest { h with k := 8, sh := sh, drv := if m = 0 then h.drv else false, tmr := tm, bit := bit }
            (evs ++ readEvs ds0 m) ds
            (n + m * slotCycles s.cfg 3)) := by
  induction m with
  | zero =>
    intro h evs ds0 ds n fuel hk hl _
    have h8 : h.k = 8 := by omega
    refine ⟨h.tmr, h.bit, h.sh, ?_, ?_⟩
    · intro j hj; simp [h8, hj]
    · rw [List.eq_nil_of_length_eq_zero hl]
      rw [show fuel + (9 * 0 + 1) = fuel + 1 by omega, run_act]
      simp [Act.next, Act.hid, h8, readEvs]
      rw [← h8]
  | succ m ih =>
    intro h evs ds0 ds n fuel hk hl hok
    obtain ⟨d0, d1, d2, ds1, rfl⟩ : ∃ d0 d1 d2 ds1, ds0 = d0 :: d1 :: d2 :: ds1 := by
      match ds0, hl with
      | d0 :: d1 :: d2 :: ds1, _ => exact ⟨d0, d1, d2, ds1, rfl⟩
    rw [allOk_cons, allOk_cons, allOk_cons] at hok
    obtain ⟨h0, h1, h2, hok⟩ := hok
    have hk8 : h.k < 8 := by omega
    have hc : countUp 8 h.k = h.k + 1 := by simp only [countUp]; omega
    have hl1 : ds1.length = 3 * m := by simp only [List.length_cons] at hl; omega
    rw [show fuel + (9 * (m + 1) + 1) = (fuel + (9 * m + 1) + 1 + 1 + 6) + 1 by omega, run_act]
    simp only [Act.next, Act.hid, moved_hid, hk8, if_true, List.append_assoc, List.cons_append]
    rw [run_readSlot hq h0 h1 h2]
    simp only [List.nil_append]
    rw [run_act]
    simp only [Act.next, Act.hid, moved_hid, List.nil_append]
    rw [run_act]
    simp only [Act.next, Act.hid, moved_hid, List.nil_append, hc]
    obtain ⟨tm, bit, sh, hsh, e⟩ := ih
      { h with drv := false, bit := d2.high, tmr := usCycles s.cfg 55, sh := assignBit h.sh h.k d2.high, k := h.k + 1 }
      (evs ++ readSlotEvs d2.high) ds1 ds (n + (70 * s.cfg.ticksPerUs + 3 * s.cfg.actLat)) fuel
      (by simp only; omega) hl1 hok
    refine ⟨tm, bit, sh, ?_, e.trans ?_⟩
    · intro j hj
      rw [hsh j hj, getLsbD_assignBit]
      simp only
      by_cases hlt : j < h.k
      · rw [if_pos (by omega), if_neg (by omega), if_pos hlt]
      · by_cases he : j = h.k
        · subst he
          rw [if_pos (by omega), if_pos ⟨rfl, hj⟩, if_neg (by omega)]
          simp [drawAt]
        · rw [if_neg (by omega), if_neg hlt]
          obtain ⟨c, rfl⟩ : ∃ c, j = h.k + 1 + c := ⟨j - (h.k + 1), by omega⟩
          rw [show h.k + 1 + c - h.k = c + 1 by omega, show h.k + 1 + c - (h.k + 1) = c by omega,
            show 3 * (c + 1) + 2 = 3 * c + 2 + 3 by omega]
          simp [drawAt]
    · congr 2
      · simp
      · simp [readEvs, List.range_succ_eq_map, drawAt, List.flatMap_map, Nat.mul_add]
      · simp only [slotCycles]; ring

/-- READ_BYTE_SEQ (R174): eight slots, the first giving bit 0. -/
theorem run_readByteSeq (hq : s.quiet) (h : Hidden) (evs : List TraceEv) (ds0 ds : List PinDraw)
    (n fuel : Nat) (v : Byte) (hl : ds0.length = 24) (hok : allOk s.cfg ds0)
    (hv : ∀ j, j < 8 → v.getLsbD j = (drawAt ds0 (3 * j + 2)).high) :
    ∃ tm bit,
      runSeq (fuel + 74) (s.moved (readByteSeq ++ rest) h evs (ds0 ++ ds) n) =
        runSeq fuel (s.moved rest { h with sh := v, k := 8, drv := false, tmr := tm, bit := bit }
          (evs ++ readEvs ds0 8) ds (n + 8 * slotCycles s.cfg 3)) := by
  simp only [readByteSeq, List.cons_append, List.nil_append]
  rw [show fuel + 74 = (fuel + (9 * 8 + 1)) + 1 by omega, run_act]
  simp only [Act.next, Act.hid, moved_hid, List.nil_append]
  obtain ⟨tm, bit, sh, hsh, e⟩ := run_recvBits (rest := rest) hq 8 { h with sh := 0x00#8, k := 0 } evs ds0 ds n fuel
    rfl (by omega) hok
  have hshv : sh = v := by
    apply BitVec.eq_of_getLsbD_eq
    intro j hj
    rw [hsh j hj, hv j hj]
    simp
  exact ⟨tm, bit, e.trans (by simp [hshv])⟩

/-! ## A request that fails (00_scope.md R14) -/

/-- Two requests of a write slot are its four trace entries. -/
theorem take_writeSlot (b : Bool) (evs : List TraceEv) (n : Nat) :
    (writeSlotEvs b ++ evs).take (2 * (n + 2)) = writeSlotEvs b ++ evs.take (2 * n) := by
  cases b <;> simp [writeSlotEvs, show 2 * (n + 2) = 2 * n + 4 by omega]

/-- The loop of WRITE_BYTE_SEQ from bit k on, at a request that fails (R176). -/
theorem run_sendBits_fails (hq : s.quiet) (m : Nat) :
    ∀ (h : Hidden) (evs : List TraceEv) (ds0 : List PinDraw) (d : PinDraw) (ds : List PinDraw) (n fuel : Nat) (c : Word),
      h.k + m = 8 → ds0.length < 2 * m → allOk s.cfg ds0 → d.fault s.cfg = some c →
      ∃ h' n', h'.pres = h.pres ∧ h'.presV = h.presV ∧
        runSeq (fuel + (6 * m + 1)) (s.moved (.act .sendBits :: rest) h evs (ds0 ++ d :: ds) n) =
          s.failed h' c
            (evs ++ ((List.range' h.k m).flatMap fun k => writeSlotEvs (h.sh.getLsbD k)).take (2 * ds0.length) ++
              [.pin (if ds0.length % 2 = 0 then .driveLow else .release) (.err c)]) ds n' := by
  induction m with
  | zero => intro h evs ds0 d ds n fuel c _ hl; omega
  | succ m ih =>
    intro h evs ds0 d ds n fuel c hk hl hok hd
    have hk8 : h.k < 8 := by omega
    have hc : countUp 8 h.k = h.k + 1 := by simp only [countUp]; omega
    rw [show fuel + (6 * (m + 1) + 1) = (fuel + (6 * m + 1) + 1 + 4) + 1 by omega, run_act]
    simp only [Act.next, Act.hid, moved_hid, hk8, if_true, List.append_assoc, List.cons_append, List.nil_append]
    rcases ds0 with _ | ⟨d0, _ | ⟨d1, ds1⟩⟩
    · simp only [writeSlot, List.cons_append, List.nil_append]
      rw [show fuel + (6 * m + 1) + 1 + 4 = fuel + (6 * m + 1) + 3 + 2 by omega, run_pinErr hq hd _ (by decide)]
      exact ⟨h, n + s.cfg.actLat + 1, rfl, rfl, by simp⟩
    · simp only [allOk_cons] at hok
      simp only [writeSlot, List.cons_append, List.nil_append]
      rw [run_driveLow hq hok.1, run_wait hq, run_pinErr hq hd _ (by decide)]
      refine ⟨{ h with drv := true, tmr := usCycles s.cfg (slotLow (h.sh.getLsbD h.k)) },
        n + s.cfg.actLat + usCycles s.cfg (slotLow (h.sh.getLsbD h.k)) + s.cfg.actLat + 1, rfl, rfl, ?_⟩
      congr 1
      simp only [List.range'_succ, List.flatMap_cons]
      cases h.sh.getLsbD h.k <;> simp [writeSlotEvs, slotLow, tW1Low, tW0Low]
    · simp only [allOk_cons] at hok
      obtain ⟨h0, h1, hok⟩ := hok
      have hl1 : ds1.length < 2 * m := by simp only [List.length_cons] at hl; omega
      simp only [List.cons_append]
      rw [run_writeSlot hq _ h0 h1, run_act]
      simp only [Act.next, Act.hid, moved_hid, List.nil_append, hc]
      obtain ⟨h', n', k1, k2, e⟩ := ih
        { h with drv := false, tmr := usCycles s.cfg (slotRec (h.sh.getLsbD h.k)), k := h.k + 1 }
        (evs ++ writeSlotEvs (h.sh.getLsbD h.k)) ds1 d ds (n + (70 * s.cfg.ticksPerUs + 2 * s.cfg.actLat)) fuel c
        (by simp only; omega) hl1 hok hd
      refine ⟨h', n', k1, k2, e.trans ?_⟩
      simp only [List.range'_succ, List.flatMap_cons, List.length_cons, Nat.add_assoc, Nat.reduceAdd, take_writeSlot,
        List.append_assoc, Nat.add_mod_right]

/-- WRITE_BYTE_SEQ(v) at a request that fails: the trace up to it, and the end of the command. -/
theorem run_writeByteSeq_fails (hq : s.quiet) (v : Byte) (h : Hidden) (evs : List TraceEv) (ds0 : List PinDraw)
    (d : PinDraw) (ds : List PinDraw) (n fuel : Nat) (c : Word) (hl : ds0.length < 16) (hok : allOk s.cfg ds0)
    (hd : d.fault s.cfg = some c) :
    ∃ h' n', h'.pres = h.pres ∧ h'.presV = h.presV ∧
      runSeq (fuel + 50) (s.moved (writeByteSeq v ++ rest) h evs (ds0 ++ d :: ds) n) =
        s.failed h' c
          (evs ++ (byteEvs v).take (2 * ds0.length) ++
            [.pin (if ds0.length % 2 = 0 then .driveLow else .release) (.err c)]) ds n' := by
  simp only [writeByteSeq, List.cons_append, List.nil_append]
  rw [show fuel + 50 = (fuel + (6 * 8 + 1)) + 1 by omega, run_act]
  simp only [Act.next, Act.hid, moved_hid, List.nil_append]
  obtain ⟨h', n', k1, k2, e⟩ := run_sendBits_fails (rest := rest) hq 8 { h with sh := v, k := 0 } evs ds0 d ds n fuel c
    rfl (by omega) hok hd
  exact ⟨h', n', k1, k2, e.trans (by simp only [byteEvs, bitsEvs, List.range_eq_range'])⟩

/-- The loop of READ_BYTE_SEQ from bit k on, at a request that fails (R174). -/
theorem run_recvBits_fails (hq : s.quiet) (m : Nat) :
    ∀ (h : Hidden) (evs : List TraceEv) (ds0 : List PinDraw) (d : PinDraw) (ds : List PinDraw) (n fuel : Nat) (c : Word),
      h.k + m = 8 → ds0.length < 3 * m → allOk s.cfg ds0 → d.fault s.cfg = some c →
      ∃ h' n' evs',
        runSeq (fuel + (9 * m + 1)) (s.moved (.act .recvBits :: rest) h evs (ds0 ++ d :: ds) n) =
          s.failed h' c (evs ++ evs') ds n' ∧ h'.pres = h.pres ∧ h'.presV = h.presV := by
  induction m with
  | zero => intro h evs ds0 d ds n fuel c _ hl; omega
  | succ m ih =>
    intro h evs ds0 d ds n fuel c hk hl hok hd
    have hk8 : h.k < 8 := by omega
    have hc : countUp 8 h.k = h.k + 1 := by simp only [countUp]; omega
    rw [show fuel + (9 * (m + 1) + 1) = (fuel + (9 * m + 1) + 1 + 1 + 6) + 1 by omega, run_act]
    simp only [Act.next, Act.hid, moved_hid, hk8, if_true, List.append_assoc, List.cons_append, List.nil_append]
    rcases ds0 with _ | ⟨d0, _ | ⟨d1, _ | ⟨d2, ds1⟩⟩⟩
    · simp only [readSlot, List.cons_append, List.nil_append]
      rw [show fuel + (9 * m + 1) + 1 + 1 + 6 = fuel + (9 * m + 1) + 6 + 2 by omega, run_pinErr hq hd _ (by decide)]
      exact ⟨h, _, _, rfl, rfl, rfl⟩
    · simp only [allOk_cons] at hok
      simp only [readSlot, List.cons_append, List.nil_append]
      rw [run_driveLow hq hok.1, run_wait hq, run_pinErr hq hd _ (by decide)]
      simp only [List.append_assoc]
      exact ⟨_, _, _, Eq.refl (s.failed _ _ (evs ++ _) _ _), rfl, rfl⟩
    · simp only [allOk_cons] at hok
      simp only [readSlot, List.cons_append, List.nil_append]
      rw [run_driveLow hq hok.1, run_wait hq, run_release hq hok.2.1, run_wait hq, run_pinErr hq hd _ (by decide)]
      simp only [List.append_assoc]
      exact ⟨_, _, _, Eq.refl (s.failed _ _ (evs ++ _) _ _), rfl, rfl⟩
    · simp only [allOk_cons] at hok
      obtain ⟨h0, h1, h2, hok⟩ := hok
      have hl1 : ds1.length < 3 * m := by simp only [List.length_cons] at hl; omega
      simp only [List.cons_append]
      rw [run_readSlot hq h0 h1 h2, run_act]
      simp only [Act.next, Act.hid, moved_hid, List.nil_append]
      rw [run_act]
      simp only [Act.next, Act.hid, moved_hid, List.nil_append, hc]
      obtain ⟨h', n', evs', e, k1, k2⟩ := ih
        { h with drv := false, bit := d2.high, tmr := usCycles s.cfg 55, sh := assignBit h.sh h.k d2.high, k := h.k + 1 }
        (evs ++ readSlotEvs d2.high) ds1 d ds (n + (70 * s.cfg.ticksPerUs + 3 * s.cfg.actLat)) fuel c
        (by simp only; omega) hl1 hok hd
      exact ⟨h', n', _, e.trans (by rw [List.append_assoc]), k1, k2⟩

/-- READ_BYTE_SEQ at a request that fails: the end of the command. -/
theorem run_readByteSeq_fails (hq : s.quiet) (h : Hidden) (evs : List TraceEv) (ds0 : List PinDraw) (d : PinDraw)
    (ds : List PinDraw) (n fuel : Nat) (c : Word) (hl : ds0.length < 24) (hok : allOk s.cfg ds0)
    (hd : d.fault s.cfg = some c) :
    ∃ h' n' evs',
      runSeq (fuel + 74) (s.moved (readByteSeq ++ rest) h evs (ds0 ++ d :: ds) n) =
        s.failed h' c (evs ++ evs') ds n' ∧ h'.pres = h.pres ∧ h'.presV = h.presV := by
  simp only [readByteSeq, List.cons_append, List.nil_append]
  rw [show fuel + 74 = (fuel + (9 * 8 + 1)) + 1 by omega, run_act]
  simp only [Act.next, Act.hid, moved_hid, List.nil_append]
  exact run_recvBits_fails (rest := rest) hq 8 { h with sh := 0x00#8, k := 0 } evs ds0 d ds n fuel c rfl (by omega) hok
    hd

/-! ## MATCH_SEQ -/

/-- The loop of MATCH_SEQ from byte j on (R200). -/
theorem run_sendRom (hq : s.quiet) (m : Nat) :
    ∀ (h : Hidden) (evs : List TraceEv) (ds0 ds : List PinDraw) (n fuel : Nat), h.j + m = 8 →
      ds0.length = 16 * m → allOk s.cfg ds0 →
      ∃ tm k sh,
        runSeq (fuel + (52 * m + 1)) (s.moved (.act .sendRom :: rest) h evs (ds0 ++ ds) n) =
          runSeq fuel
            (s.moved rest { h with j := 8, k := k, sh := sh, drv := if m = 0 then h.drv else false, tmr := tm }
            (evs ++ (List.range' h.j m).flatMap fun j => byteEvs (romByte s.regs.romid j)) ds
            (n + m * (8 * slotCycles s.cfg 2))) := by
  induction m with
  | zero =>
    intro h evs ds0 ds n fuel hk hl _
    have h8 : h.j = 8 := by omega
    refine ⟨h.tmr, h.k, h.sh, ?_⟩
    rw [List.eq_nil_of_length_eq_zero hl]
    rw [show fuel + (52 * 0 + 1) = fuel + 1 by omega, run_act]
    simp [Act.next, Act.hid, h8]
    rw [← h8]
  | succ m ih =>
    intro h evs ds0 ds n fuel hk hl hok
    have hk8 : h.j < 8 := by omega
    have hc : countUp 8 h.j = h.j + 1 := by simp only [countUp]; omega
    obtain ⟨xs, ys, rfl, hx⟩ : ∃ xs ys, ds0 = xs ++ ys ∧ xs.length = 16 :=
      ⟨ds0.take 16, ds0.drop 16, (List.take_append_drop ..).symm, by simp; omega⟩
    have hl1 : ys.length = 16 * m := by simp only [List.length_append] at hl; omega
    rw [allOk_append] at hok
    rw [show fuel + (52 * (m + 1) + 1) = (fuel + (52 * m + 1) + 1 + 50) + 1 by omega, run_act]
    simp only [Act.next, Act.hid, moved_hid, moved_regs, hk8, if_true, List.append_assoc, List.cons_append,
      List.nil_append]
    obtain ⟨tm0, e0⟩ := run_writeByteSeq (rest := .act .nextByte :: .act .sendRom :: rest) hq
      (romByte s.regs.romid h.j) h evs xs (ys ++ ds) n (fuel + (52 * m + 1) + 1) hx hok.1
    rw [e0, run_act]
    simp only [Act.next, Act.hid, moved_hid, List.nil_append, hc]
    obtain ⟨tm, k, sh, e⟩ := ih
      { h with sh := romByte s.regs.romid h.j, k := 8, drv := false, tmr := tm0, j := h.j + 1 }
      (evs ++ byteEvs (romByte s.regs.romid h.j)) ys ds (n + 8 * slotCycles s.cfg 2) fuel
      (by simp only; omega) hl1 hok.2
    refine ⟨tm, k, sh, e.trans ?_⟩
    congr 2
    · simp
    · simp [List.range'_succ]
    · ring

/-- The eight bytes of an address, bit by bit, are its 64 bits in order (20_memory.md R87). -/
theorem romBytes_evs (a : Rom) :
    ((List.range' 0 8).flatMap fun j => byteEvs (romByte a j)) = bitsEvs a 64 := by
  have hr : List.range 64 = (List.range' 0 8).flatMap fun j => (List.range 8).map fun k => 8 * j + k := by decide
  unfold bitsEvs byteEvs
  rw [hr, List.flatMap_assoc]
  apply List.flatMap_congr
  intro j hj
  rw [List.flatMap_map]
  apply List.flatMap_congr
  intro k hk
  have hk' : k < 8 := by simpa using hk
  simp [romByte, hk']

/-- MATCH_SEQ (R200): 72 write slots. -/
theorem run_matchSeq (hq : s.quiet) (h : Hidden) (evs : List TraceEv) (ds0 ds : List PinDraw)
    (n fuel : Nat) (hl : ds0.length = 144) (hok : allOk s.cfg ds0) :
    ∃ tm k sh,
      runSeq (fuel + 468) (s.moved (matchSeq ++ rest) h evs (ds0 ++ ds) n) =
        runSeq fuel (s.moved rest { h with j := 8, k := k, sh := sh, drv := false, tmr := tm }
          (evs ++ matchEvs s.regs.romid) ds (n + 72 * slotCycles s.cfg 2)) := by
  obtain ⟨xs, ys, rfl, hx⟩ : ∃ xs ys, ds0 = xs ++ ys ∧ xs.length = 16 :=
    ⟨ds0.take 16, ds0.drop 16, (List.take_append_drop ..).symm, by simp; omega⟩
  have hy : ys.length = 16 * 8 := by simp only [List.length_append] at hl; omega
  rw [allOk_append] at hok
  simp only [matchSeq, List.append_assoc, List.cons_append, List.nil_append]
  rw [show fuel + 468 = (fuel + (52 * 8 + 1) + 1) + 50 by omega]
  obtain ⟨tm0, e0⟩ := run_writeByteSeq (rest := .act .startMatch :: .act .sendRom :: rest) hq cmdMatchRom h evs xs
    (ys ++ ds) n (fuel + (52 * 8 + 1) + 1) hx hok.1
  rw [e0, run_act]
  simp only [Act.next, Act.hid, moved_hid, List.nil_append]
  obtain ⟨tm, k, sh, e⟩ := run_sendRom (rest := rest) hq 8
    { h with sh := cmdMatchRom, k := 8, drv := false, tmr := tm0, j := 0 }
    (evs ++ byteEvs cmdMatchRom) ys ds (n + 8 * slotCycles s.cfg 2) fuel rfl hy hok.2
  refine ⟨tm, k, sh, e.trans ?_⟩
  congr 2
  · simp only [matchEvs, romBytes_evs, cmdMatchRom, List.append_assoc]
  · ring

end Sys2Proof.Machine
end

