-- ==== Sys2Proof/Laws/HostSeq.lean ====
section
/-!
SUPPORT. What the host's waits do, and what a command line of the host does from an idle engine: the block resets that are
due first, then the command.
-/

namespace Sys2Proof.Machine

@[simp] theorem andThen_next (s : State) (f : State → Host.Outcome State Fault Refusal) :
    andThen (.next s) f = f s := rfl
@[simp] theorem andThen_fault (r : Fault) (f : State → Host.Outcome State Fault Refusal) :
    andThen (.fault r) f = .fault r := rfl
@[simp] theorem andThen_refused (r : Refusal) (f : State → Host.Outcome State Fault Refusal) :
    andThen (.refused r) f = .refused r := rfl

/-- An idle engine is not held. -/
theorem held_idle {s : State} (h : s.seq = .idle) : s.held = false := by
  unfold State.held; rw [h]

/-- A wait for what holds already takes no step. -/
theorem waitUntil_holds {p : State → Bool} {s : State} (h : p s = true) (n : Nat) : waitUntil p n s = .next s := by
  cases n <;> simp [waitUntil, h]

/-- A wait in vain goes nowhere. -/
theorem waitUntil_stuck {s : State} (h : s.stuck = true) (p : State → Bool) (n : Nat) :
    waitUntil p n s = .next s := by
  cases n <;> simp [waitUntil, h]

/-- A wait of an idle engine for what does not hold yet takes a step. -/
theorem waitUntil_idle {p : State → Bool} {s : State} (hi : s.seq = .idle) (h : p s = false) (n : Nat) :
    waitUntil p (n + 1) s = andThen (step s) (waitUntil p n) := by
  simp [waitUntil, h, State.stuck, held_idle hi]

/-- WAIT_DONE of an idle engine takes no step. -/
theorem waitDone_idle {s : State} (h : s.seq = .idle) : waitDone s = .next s :=
  waitUntil_holds (by simp [busy_idle h]) _

/-- The state in which the command of an accepted word starts (30_encoding.md R114). -/
def State.acceptedAt (s : State) (w : Word) : State :=
  { s with
    regs := { s.regs.acceptFlags with cmd := w }
    hid := { s.hid with opWord := w, presV := false }
    now := s.now + 1 }

/-- A command line of the host from an idle engine with no block reset to come: the command runs, and the host sees its
end. -/
theorem issue_idle {i : Instr} {s t : State} (hi : s.seq = .idle) (hr : s.resets = [])
    (he : exec (decode (encode i)) (s.acceptedAt (encode i)) = .next t)
    (hl : t.host.queue.length ≤ s.host.queue.length) (ht : t.seq = .idle) : issue i s = .next t := by
  unfold issue writeCmd
  simp only [State.waitBound, List.length_cons]
  rw [show s.host.queue.length + 1 + s.resets.length + 2 = s.host.queue.length + s.resets.length + 2 + 1 by omega,
    waitUntil_idle (by exact hi) (by simp)]
  have hs : step { s with host := { s.host with queue := cmdWrite (encode i) :: s.host.queue } } = .next t := by
    rw [← he]
    obtain ⟨regs, seq, hid, port, ⟨queue, reads⟩, resets, now, cfg⟩ := s
    simp only at hi hr
    subst hi hr
    rfl
  rw [hs, andThen_next, waitUntil_holds (by simpa using hl), andThen_next, waitDone_idle ht]

/-- A block reset that is due comes before the host's write of the command line. -/
theorem issue_reset {i : Instr} {s : State} {r : Nat} {rs : List Nat} (hi : s.seq = .idle)
    (hr : s.resets = r :: rs) (hd : r ≤ s.now) : issue i s = issue i (s.resetNow s.now) := by
  unfold issue writeCmd
  simp only [State.waitBound, List.length_cons]
  rw [show s.host.queue.length + 1 + s.resets.length + 2 = s.host.queue.length + 1 + rs.length + 2 + 1 by
    rw [hr, List.length_cons]; omega, waitUntil_idle (by exact hi) (by simp)]
  have hs : step { s with host := { s.host with queue := cmdWrite (encode i) :: s.host.queue } } =
      .next { s.resetNow s.now with host := { s.host with queue := cmdWrite (encode i) :: s.host.queue } } := by
    obtain ⟨regs, seq, hid, port, ⟨queue, reads⟩, resets, now, cfg⟩ := s
    simp only at hi hr hd
    subst hi hr
    simp [step, State.idleStep, State.resetBy, cmdWrite, Due.cycle, hd, State.resetNow, State.blockReset, Sequencer.begun]
  rw [hs, andThen_next]
  have hl : (s.resetNow s.now).resets = rs := by simp [State.resetNow, hr]
  have hq : (s.resetNow s.now).host = s.host := rfl
  simp only [hl, hq]

end Sys2Proof.Machine
end

