-- ==== Sys2Proof/Laws/PerInstr.lean ====
section
/-!
SUPPORT. Statements made for each command as syntax. `EncodeRow`: the encoder puts every command in the row of
opcode_table.json that it belongs to (30_encoding.md R109).
-/

namespace Sys2Proof.Laws

/-- The mask and the pattern of the row of opcode_table.json the command belongs to. The words of R107 match no row. -/
def tableRow : Instr → Option (Word × Word)
  | .releaseBus => some (0xFFFF000F#32, 0x00000001#32)
  | .driveLow => some (0xFFFF000F#32, 0x00000002#32)
  | .senseHigh => some (0xFFFF000F#32, 0x00000003#32)
  | .senseLow => some (0xFFFF000F#32, 0x00000004#32)
  | .waitHigh => some (0xFFFF000F#32, 0x00000005#32)
  | .reset => some (0xFFFF000F#32, 0x00000006#32)
  | .readBit => some (0xFFFF000F#32, 0x00000007#32)
  | .writeBit _ => some (0xFFFF000F#32, 0x00000008#32)
  | .readByte => some (0xFFFF000F#32, 0x00000009#32)
  | .writeByte _ => some (0xFFFF000F#32, 0x0000000A#32)
  | .matchRom => some (0xFFFF000F#32, 0x0000000B#32)
  | .skipRom => some (0xFFFF000F#32, 0x0000000C#32)
  | .sendCommand _ _ => some (0xFFFF000F#32, 0x0000000D#32)
  | .search _ _ => some (0xFFFF000F#32, 0x0000000E#32)
  | .illegalOp0 _ => some (0x0000000F#32, 0x00000000#32)
  | .illegalOpF _ => some (0x0000000F#32, 0x0000000F#32)
  | .illegalRsvd _ _ _ => none

/-- The encoded word lies in its row: the mask leaves the pattern; the words of R107 have RSVD as the term has it. -/
def EncodeRow.Statement (i : Instr) : Prop :=
  match tableRow i with
  | some (mask, pattern) => encode i &&& mask = pattern
  | none => ∀ rsvd low op, i = .illegalRsvd rsvd low op → (encode i).extractLsb' 16 16 = rsvd

theorem EncodeRow.releaseBus : EncodeRow.Statement .releaseBus := by
  simp only [Statement, tableRow]; decide
theorem EncodeRow.driveLow : EncodeRow.Statement .driveLow := by
  simp only [Statement, tableRow]; decide
theorem EncodeRow.senseHigh : EncodeRow.Statement .senseHigh := by
  simp only [Statement, tableRow]; decide
theorem EncodeRow.senseLow : EncodeRow.Statement .senseLow := by
  simp only [Statement, tableRow]; decide
theorem EncodeRow.waitHigh : EncodeRow.Statement .waitHigh := by
  simp only [Statement, tableRow]; decide
theorem EncodeRow.reset : EncodeRow.Statement .reset := by
  simp only [Statement, tableRow]; decide
theorem EncodeRow.readBit : EncodeRow.Statement .readBit := by
  simp only [Statement, tableRow]; decide
theorem EncodeRow.writeBit (b : Bool) : EncodeRow.Statement (.writeBit b) := by
  simp only [Statement, tableRow]; revert b; decide
theorem EncodeRow.readByte : EncodeRow.Statement .readByte := by
  simp only [Statement, tableRow]; decide
theorem EncodeRow.writeByte (byte : Byte) : EncodeRow.Statement (.writeByte byte) := by
  simp only [Statement, tableRow]; revert byte; decide
theorem EncodeRow.matchRom : EncodeRow.Statement .matchRom := by
  simp only [Statement, tableRow]; decide
theorem EncodeRow.skipRom : EncodeRow.Statement .skipRom := by
  simp only [Statement, tableRow]; decide
theorem EncodeRow.sendCommand (byte : Byte) (m : Bool) : EncodeRow.Statement (.sendCommand byte m) := by
  simp only [Statement, tableRow]; revert byte m; decide
theorem EncodeRow.search (r a : Bool) : EncodeRow.Statement (.search r a) := by
  simp only [Statement, tableRow]; revert r a; decide
theorem EncodeRow.illegalOp0 (x : BitVec 28) : EncodeRow.Statement (.illegalOp0 x) := by
  simp only [Statement, tableRow, encode]
  change (x ++ 0#4 : BitVec (28 + 4)) &&& (0#28 ++ 15#4) = 0#28 ++ 0#4
  rw [BitVec.and_append]
  simp
theorem EncodeRow.illegalOpF (x : BitVec 28) : EncodeRow.Statement (.illegalOpF x) := by
  simp only [Statement, tableRow, encode]
  change (x ++ 15#4 : BitVec (28 + 4)) &&& (0#28 ++ 15#4) = 0#28 ++ 15#4
  rw [BitVec.and_append]
  simp
theorem EncodeRow.illegalRsvd (rsvd : BitVec 16) (low : BitVec 12) (op : BitVec 4) :
    EncodeRow.Statement (.illegalRsvd rsvd low op) := by
  simp only [Statement, tableRow, encode]
  intro a b c h
  injection h with h1 _ _
  subst h1
  change (rsvd ++ low ++ op : BitVec (16 + 12 + 4)).extractLsb' 16 16 = rsvd
  ext i hi
  rw [BitVec.getElem_extractLsb', BitVec.getLsbD_append, if_neg (by omega), BitVec.getLsbD_append,
    if_neg (by omega), show 16 + i - 4 - 12 = i by omega, BitVec.getLsbD_eq_getElem hi]

end Sys2Proof.Laws
end

