-- ==== Sys2Proof/Laws/Search.lean ====
section
/-!
SUPPORT. Quiet runs of the ROM search (43_search.md): TWO_READ, the walk of step 5, the replay and the check of step 4.
-/

namespace Sys2Proof.Machine

variable {s : State} {rest : List Micro}

/-! ## Draws by index -/

theorem drawAt_append_right (xs ys : List PinDraw) (n : Nat) :
    drawAt (xs ++ ys) (xs.length + n) = drawAt ys n := by
  simp [drawAt, List.getElem?_append_right]

theorem drawAt_append_left {xs : List PinDraw} (ys : List PinDraw) {n : Nat} (h : n < xs.length) :
    drawAt (xs ++ ys) n = drawAt xs n := by
  simp [drawAt, List.getElem?_append_left, h]

/-- The cycles of one search position: two read slots and a write slot. -/
def posCycles (p : Params) : Nat := 2 * slotCycles p 3 + slotCycles p 2

/-- The responses at the j-th of the positions whose draws are ds (R225). -/
def respIn (ds : List PinDraw) (j : Nat) : Bool × Bool :=
  (!(drawAt ds (8 * j + 2)).high, !(drawAt ds (8 * j + 5)).high)

/-- The trace of one position with responses r that writes the bit c. -/
def posEvs (r : Bool × Bool) (c : Bool) : List TraceEv := readSlotEvs (!r.1) ++ readSlotEvs (!r.2) ++ writeSlotEvs c

/-- TWO_READ (R225): two read slots; the responses in r0 and r1. -/
theorem run_twoRead (hq : s.quiet) {d0 d1 d2 d3 d4 d5 : PinDraw} {h : Hidden} {evs : List TraceEv}
    {ds : List PinDraw} {n k : Nat} (hok : allOk s.cfg [d0, d1, d2, d3, d4, d5]) :
    runSeq (k + 14) (s.moved (twoRead ++ rest) h evs (d0 :: d1 :: d2 :: d3 :: d4 :: d5 :: ds) n) =
      runSeq k (s.moved rest
        { h with r0 := !d2.high, r1 := !d5.high, drv := false, bit := d5.high, tmr := usCycles s.cfg 55 }
        (evs ++ (readSlotEvs (!!d2.high) ++ readSlotEvs (!!d5.high))) ds (n + 2 * slotCycles s.cfg 3)) := by
  simp only [allOk_cons] at hok
  obtain ⟨h0, h1, h2, h3, h4, h5, -⟩ := hok
  simp only [twoRead, List.append_assoc, List.cons_append, List.nil_append]
  rw [show k + 14 = k + 1 + 6 + 1 + 6 by omega, run_readSlot hq h0 h1 h2, run_act]
  simp only [Act.next, Act.hid, moved_hid, List.nil_append]
  rw [run_readSlot hq h3 h4 h5, run_act]
  simp only [Act.next, Act.hid, moved_hid, List.nil_append]
  congr 2
  · simp [List.append_assoc]
  · simp only [slotCycles]; ring

/-- The first eight draws of a list that has them. -/
theorem eight_draws {m : Nat} {ds0 : List PinDraw} (hl : ds0.length = 8 * (m + 1)) :
    ∃ d0 d1 d2 d3 d4 d5 d6 d7 ds1, ds0 = d0 :: d1 :: d2 :: d3 :: d4 :: d5 :: d6 :: d7 :: ds1 ∧
      ds1.length = 8 * m := by
  match ds0, hl with
  | d0 :: d1 :: d2 :: d3 :: d4 :: d5 :: d6 :: d7 :: ds1, hl =>
    exact ⟨d0, d1, d2, d3, d4, d5, d6, d7, ds1, rfl, by simp only [List.length_cons] at hl; omega⟩

theorem allOk_eight {p : Params} {d0 d1 d2 d3 d4 d5 d6 d7 : PinDraw} {ds : List PinDraw} :
    allOk p (d0 :: d1 :: d2 :: d3 :: d4 :: d5 :: d6 :: d7 :: ds) ↔
      allOk p [d0, d1, d2, d3, d4, d5] ∧ d6.fault p = none ∧ d7.fault p = none ∧ allOk p ds := by
  rw [show (d0 :: d1 :: d2 :: d3 :: d4 :: d5 :: d6 :: d7 :: ds) = [d0, d1, d2, d3, d4, d5] ++ (d6 :: d7 :: ds)
    from rfl, allOk_append, allOk_cons (d := d6), allOk_cons (d := d7)]

theorem respIn_cons8 (d0 d1 d2 d3 d4 d5 d6 d7 : PinDraw) (ds : List PinDraw) (j : Nat) :
    respIn (d0 :: d1 :: d2 :: d3 :: d4 :: d5 :: d6 :: d7 :: ds) (j + 1) = respIn ds j := by
  simp [respIn, drawAt, show 8 * (j + 1) + 2 = 8 * j + 2 + 8 by ring, show 8 * (j + 1) + 5 = 8 * j + 5 + 8 by ring,
    List.getElem?_cons_succ]

/-! ## Step 5 -/

/-- The positions below the first one of a walk keep their bits. -/
theorem walkPass_below (resp : Nat → Bool × Bool) (m : Nat) : ∀ (i : Nat) (p q : Pass),
    walkPass resp m i p = some q → ∀ j, j < i → q.addr.getLsbD j = p.addr.getLsbD j := by
  induction m with
  | zero => intro i p q h j _; simp only [walkPass, Option.some.injEq] at h; rw [h]
  | succ m ih =>
    intro i p q h j hj
    simp only [walkPass] at h
    split at h
    · cases h
    all_goals
      rw [ih _ _ _ h j (by omega)]
      simp only [getLsbD_assignBit]
      rw [if_neg (by omega)]

/-- The chosen bit of a position (R226). -/
def chosen (r : Bool × Bool) : Bool := r.2 && !r.1

/-- The pass after one position with a response (R233, R234, R235). -/
def Pass.after (p : Pass) (i : Nat) (r : Bool × Bool) : Pass :=
  { addr := assignBit p.addr i (chosen r)
    disc := if r.1 && r.2 then assignBit p.disc i true else p.disc
    ldi := if r.1 && r.2 then BitVec.ofNat 6 i else p.ldi }

theorem walkPass_succ (resp : Nat → Bool × Bool) (m i : Nat) (p : Pass) :
    walkPass resp (m + 1) i p =
      if resp i = (false, false) then none else walkPass resp m (i + 1) (p.after i (resp i)) := by
  rw [walkPass]
  rcases resp i with ⟨_ | _, _ | _⟩ <;> rfl

/-- Some positions of a walk (R232), none of which meets an unexpected response: the working values of the pass and one
position's trace each. -/
theorem run_walk_steps (hq : s.quiet) (resp : Nat → Bool × Bool) (m : Nat) :
    ∀ (h : Hidden) (evs : List TraceEv) (ds0 ds : List PinDraw) (n fuel : Nat) (p : Pass), h.i + m ≤ 64 →
      ds0.length = 8 * m → allOk s.cfg ds0 → (∀ j, j < m → respIn ds0 j = resp (h.i + j)) →
      walkPass resp m h.i ⟨h.wAddr, h.wDisc, h.wLdi⟩ = some p →
      ∃ tm bit r0 r1,
        runSeq (fuel + 21 * m) (s.moved (.act .walk :: rest) h evs (ds0 ++ ds) n) =
          runSeq fuel (s.moved (.act .walk :: rest)
            { h with
              i := h.i + m, wAddr := p.addr, wDisc := p.disc, wLdi := p.ldi, drv := if m = 0 then h.drv else false,
              tmr := tm, bit := bit, r0 := r0, r1 := r1 }
            (evs ++ (List.range' h.i m).flatMap fun i => posEvs (resp i) (p.addr.getLsbD i)) ds
            (n + m * posCycles s.cfg)) := by
  induction m with
  | zero =>
    intro h evs ds0 ds n fuel p hi hl _ _ hp
    simp only [walkPass, Option.some.injEq] at hp
    subst hp
    refine ⟨h.tmr, h.bit, h.r0, h.r1, ?_⟩
    rw [List.eq_nil_of_length_eq_zero hl]
    simp
  | succ m ih =>
    intro h evs ds0 ds n fuel p hi hl hok hr hp
    obtain ⟨d0, d1, d2, d3, d4, d5, d6, d7, ds1, rfl, hl1⟩ := eight_draws hl
    have hr0 := hr 0 (by omega)
    simp only [respIn, Nat.mul_zero, Nat.zero_add, Nat.add_zero] at hr0
    have hr0 : resp h.i = (!d2.high, !d5.high) := hr0.symm
    rw [walkPass_succ] at hp
    split at hp
    · cases hp
    rename_i hne
    have hne' : (!(!d2.high) && !(!d5.high)) = false := by
      rw [hr0] at hne
      revert hne; cases d2.high <;> cases d5.high <;> simp
    have hle : h.i ≤ lastPos := by simp only [lastPos]; omega
    have hc : countUp 64 h.i = h.i + 1 := by simp only [countUp]; omega
    obtain ⟨ha, h6, h7, hok1⟩ := allOk_eight.1 hok
    rw [show fuel + 21 * (m + 1) = (fuel + 21 * m + 1 + 4 + 1 + 14) + 1 by omega, run_act]
    simp only [Act.next, Act.hid, moved_hid, hle, if_true, List.append_assoc, List.cons_append, List.nil_append]
    rw [run_twoRead hq ha, run_act]
    simp only [Act.next, Act.hid, moved_hid, hne', if_false, List.append_assoc, List.cons_append, List.nil_append,
      Bool.false_eq_true]
    rw [run_writeSlot hq _ h6 h7, run_act]
    simp only [Act.next, Act.hid, moved_hid, hc, List.nil_append]
    obtain ⟨tm, bit, r0, r1, e⟩ := ih
      { h with
        r0 := !d2.high, r1 := !d5.high, drv := false, bit := d5.high,
        tmr := usCycles s.cfg (slotRec (chosen (resp h.i))),
        wAddr := assignBit h.wAddr h.i (chosen (resp h.i)),
        wDisc := if (resp h.i).1 && (resp h.i).2 then assignBit h.wDisc h.i true else h.wDisc,
        wLdi := if (resp h.i).1 && (resp h.i).2 then BitVec.ofNat 6 h.i else h.wLdi, i := h.i + 1 }
      (evs ++ posEvs (resp h.i) (chosen (resp h.i))) ds1 ds (n + posCycles s.cfg) fuel p
      (by simp only; omega) hl1 hok1
      (by
        intro j hj
        have := hr (j + 1) (by omega)
        rw [respIn_cons8] at this
        rw [this]; simp only; congr 1; omega)
      hp
    have hbit : p.addr.getLsbD h.i = chosen (resp h.i) := by
      rw [walkPass_below _ _ _ _ _ hp h.i (by omega)]
      simp only [Pass.after, getLsbD_assignBit]
      rw [if_pos ⟨trivial, by omega⟩]
    refine ⟨tm, bit, r0, r1, Eq.trans ?_ (e.trans ?_)⟩
    · simp only [chosenBit, bothRespond, hr0, chosen]
      congr 2
      · simp [posEvs, List.append_assoc]
      · simp only [posCycles, slotCycles]; ring
    · congr 2
      · simp [show h.i + 1 + m = h.i + (m + 1) by omega]
      · simp [List.range'_succ, hbit]
      · ring

/-- A walk to its end (R232), and then step 6. -/
theorem run_walk (hq : s.quiet) (resp : Nat → Bool × Bool) (m : Nat) (h : Hidden) (evs : List TraceEv)
    (ds0 ds : List PinDraw) (n fuel : Nat) (p : Pass) (hi : h.i + m = 64) (hl : ds0.length = 8 * m)
    (hok : allOk s.cfg ds0) (hr : ∀ j, j < m → respIn ds0 j = resp (h.i + j))
    (hp : walkPass resp m h.i ⟨h.wAddr, h.wDisc, h.wLdi⟩ = some p) :
    ∃ tm bit r0 r1,
      runSeq (fuel + (21 * m + 1)) (s.moved (.act .walk :: rest) h evs (ds0 ++ ds) n) =
        runSeq fuel (s.moved (.act .validate :: rest)
          { h with
            i := 64, wAddr := p.addr, wDisc := p.disc, wLdi := p.ldi, drv := if m = 0 then h.drv else false,
            tmr := tm, bit := bit, r0 := r0, r1 := r1 }
          (evs ++ (List.range' h.i m).flatMap fun i => posEvs (resp i) (p.addr.getLsbD i)) ds
          (n + m * posCycles s.cfg)) := by
  obtain ⟨tm, bit, r0, r1, e⟩ := run_walk_steps (rest := rest) hq resp m h evs ds0 ds n (fuel + 1) p (by omega) hl hok
    hr hp
  refine ⟨tm, bit, r0, r1, ?_⟩
  rw [show fuel + (21 * m + 1) = fuel + 1 + 21 * m by omega, e, run_act]
  simp [Act.next, Act.hid, hi, lastPos]

/-- A position of the walk with no response (R232): two read slots, and it raises. -/
theorem run_walk_fails (hq : s.quiet) {d0 d1 d2 d3 d4 d5 : PinDraw} {h : Hidden} {evs : List TraceEv}
    {ds : List PinDraw} {n k : Nat} (hok : allOk s.cfg [d0, d1, d2, d3, d4, d5]) (hi : h.i < 64)
    (h2 : d2.high = true) (h5 : d5.high = true) :
    ∃ h', h'.drv = false ∧ h'.pres = h.pres ∧ h'.presV = h.presV ∧
      runSeq (k + 16) (s.moved (.act .walk :: rest) h evs (d0 :: d1 :: d2 :: d3 :: d4 :: d5 :: ds) n) =
        runSeq k (s.moved (.raise .unexpectedResponse :: rest) h' (evs ++ (readSlotEvs true ++ readSlotEvs true)) ds
          (n + 2 * slotCycles s.cfg 3)) := by
  have hle : h.i ≤ lastPos := by simp only [lastPos]; omega
  rw [show k + 16 = (k + 1 + 14) + 1 by omega, run_act]
  simp only [Act.next, Act.hid, moved_hid, hle, if_true, List.append_assoc]
  rw [run_twoRead hq hok, List.cons_append, run_act]
  simp only [Act.next, Act.hid, moved_hid, h2, h5, Bool.not_true, Bool.not_false, Bool.and_self, if_true,
    List.cons_append, List.nil_append]
  refine ⟨_, ?_, ?_, ?_, rfl⟩ <;> rfl

/-! ## Step 4 of a resumed pass -/

/-- w_ldi after the replay of the positions from i up to i + m (R229). -/
def replayLdi (disc : Rom) : Nat → Nat → BitVec 6 → BitVec 6
  | 0, _, l => l
  | m + 1, i, l => replayLdi disc m (i + 1) (if disc.getLsbD i then BitVec.ofNat 6 i else l)

theorem replayLdi_last (disc : Rom) (m : Nat) : ∀ (i : Nat) (l : BitVec 6),
    replayLdi disc (m + 1) i l =
      if disc.getLsbD (i + m) then BitVec.ofNat 6 (i + m) else replayLdi disc m i l := by
  induction m with
  | zero => intro i l; simp [replayLdi]
  | succ m ih =>
    intro i l
    rw [replayLdi, ih, replayLdi, show i + 1 + m = i + (m + 1) by omega]

/-- The replay from position 0 leaves the re-derived index of R229. -/
theorem replayLdi_rederive (disc : Rom) (m : Nat) : replayLdi disc m 0 0#6 = rederive disc m := by
  induction m with
  | zero => rfl
  | succ m ih => rw [replayLdi_last, ih, rederive]; simp

/-- The replay of the positions below L (R228): each writes its bit of SADDR, whatever the responses. -/
theorem run_replay (hq : s.quiet) (resp : Nat → Bool × Bool) (m : Nat) :
    ∀ (h : Hidden) (evs : List TraceEv) (ds0 ds : List PinDraw) (n fuel : Nat), h.i + m = s.resumeAt →
      ds0.length = 8 * m → allOk s.cfg ds0 → (∀ j, j < m → respIn ds0 j = resp (h.i + j)) →
      ∃ tm bit r0 r1,
        runSeq (fuel + 21 * m) (s.moved (.act .replay :: rest) h evs (ds0 ++ ds) n) =
          runSeq fuel (s.moved (.act .replay :: rest)
            { h with
              i := s.resumeAt, wLdi := replayLdi s.regs.sdisc m h.i h.wLdi,
              drv := if m = 0 then h.drv else false, tmr := tm, bit := bit, r0 := r0, r1 := r1 }
            (evs ++ (List.range' h.i m).flatMap fun i => posEvs (resp i) (s.regs.saddr.getLsbD i)) ds
            (n + m * posCycles s.cfg)) := by
  induction m with
  | zero =>
    intro h evs ds0 ds n fuel hi hl _ _
    have h64 : h.i = s.resumeAt := by omega
    refine ⟨h.tmr, h.bit, h.r0, h.r1, ?_⟩
    rw [List.eq_nil_of_length_eq_zero hl]
    simp [replayLdi, ← h64]
  | succ m ih =>
    intro h evs ds0 ds n fuel hi hl hok hr
    obtain ⟨d0, d1, d2, d3, d4, d5, d6, d7, ds1, rfl, hl1⟩ := eight_draws hl
    have hr0 := hr 0 (by omega)
    simp only [respIn, Nat.mul_zero, Nat.zero_add, Nat.add_zero] at hr0
    have hr0 : resp h.i = (!d2.high, !d5.high) := hr0.symm
    have hL : s.resumeAt < 64 := s.regs.sldi.isLt
    have hle : h.i < s.resumeAt := by omega
    have hc : countUp 64 h.i = h.i + 1 := by simp only [countUp]; omega
    obtain ⟨ha, h6, h7, hok1⟩ := allOk_eight.1 hok
    have hres : ∀ l h evs ds n, (s.moved l h evs ds n).resumeAt = s.resumeAt := fun _ _ _ _ _ => rfl
    have hdisc : ∀ l h evs ds n i, (s.moved l h evs ds n).discAt i = s.regs.sdisc.getLsbD i :=
      fun _ _ _ _ _ _ => rfl
    have haddr : ∀ l h evs ds n i, (s.moved l h evs ds n).addrAt i = s.regs.saddr.getLsbD i :=
      fun _ _ _ _ _ _ => rfl
    rw [show fuel + 21 * (m + 1) = (fuel + 21 * m + 1 + 4 + 1 + 14) + 1 by omega, run_act]
    simp only [Act.next, Act.hid, moved_hid, hres, hle, if_true, List.append_assoc, List.cons_append, List.nil_append]
    rw [run_twoRead hq ha, run_act]
    simp only [Act.next, Act.hid, moved_hid, hdisc, haddr]
    rw [run_writeSlot hq _ h6 h7, run_act]
    simp only [Act.next, Act.hid, moved_hid, hc, List.nil_append]
    obtain ⟨tm, bit, r0, r1, e⟩ := ih
      { h with
        r0 := !d2.high, r1 := !d5.high, drv := false, bit := d5.high,
        tmr := usCycles s.cfg (slotRec (s.regs.saddr.getLsbD h.i)),
        wLdi := if s.regs.sdisc.getLsbD h.i then BitVec.ofNat 6 h.i else h.wLdi, i := h.i + 1 }
      (evs ++ posEvs (resp h.i) (s.regs.saddr.getLsbD h.i)) ds1 ds (n + posCycles s.cfg) fuel
      (by simp only; omega) hl1 hok1
      (by
        intro j hj
        have := hr (j + 1) (by omega)
        rw [respIn_cons8] at this
        rw [this]; simp only; congr 1; omega)
    refine ⟨tm, bit, r0, r1, Eq.trans ?_ (e.trans ?_)⟩
    · congr 2
      · simp [posEvs, hr0, List.append_assoc]
      · simp only [posCycles, slotCycles]; ring
    · congr 2
      · simp [replayLdi]
      · simp [List.range'_succ]
      · ring

/-- The check at L (R230) with both responses, and the flip (R231): on to the walk from L + 1. -/
theorem run_confirm (hq : s.quiet) {d0 d1 d2 d3 d4 d5 d6 d7 : PinDraw} {h : Hidden} {evs : List TraceEv}
    {ds : List PinDraw} {n k : Nat} (hok : allOk s.cfg (d0 :: d1 :: d2 :: d3 :: d4 :: d5 :: d6 :: d7 :: []))
    (hi : h.i = s.resumeAt) (h2 : d2.high = false) (h5 : d5.high = false) :
    ∃ tm,
      runSeq (k + 21)
          (s.moved (.act .replay :: rest) h evs (d0 :: d1 :: d2 :: d3 :: d4 :: d5 :: d6 :: d7 :: ds) n) =
        runSeq k (s.moved (.act .walk :: rest)
          { h with
            i := s.resumeAt + 1, wAddr := assignBit s.regs.saddr s.resumeAt true,
            wDisc := assignBit s.regs.sdisc s.resumeAt false, drv := false, tmr := tm, bit := false,
            r0 := true, r1 := true }
          (evs ++ posEvs (true, true) true) ds (n + posCycles s.cfg)) := by
  obtain ⟨ha, h6, h7, -⟩ := allOk_eight.1 hok
  have hres : ∀ l h evs ds n, (s.moved l h evs ds n).resumeAt = s.resumeAt := fun _ _ _ _ _ => rfl
  refine ⟨usCycles s.cfg (slotRec true), ?_⟩
  rw [show k + 21 = (k + 1 + 4 + 1 + 14) + 1 by omega, run_act]
  simp only [Act.next, Act.hid, moved_hid, hres, hi, lt_irrefl, if_false, List.append_assoc, moved_regs]
  rw [run_twoRead hq ha, List.cons_append, run_act]
  simp only [Act.next, Act.hid, moved_hid, hres, bothRespond, h2, h5, Bool.not_false, Bool.and_self, if_true,
    List.append_assoc, List.nil_append]
  rw [run_writeSlot hq _ h6 h7, List.cons_append, run_act]
  simp only [Act.next, Act.hid, moved_hid, hres, List.cons_append, List.nil_append, moved_regs]
  congr 2
  · simp [posEvs, List.append_assoc]
  · simp only [posCycles, slotCycles]; ring

/-- The check at L that fails (R230): two read slots, and it raises. -/
theorem run_confirm_fails (hq : s.quiet) {d0 d1 d2 d3 d4 d5 : PinDraw} {h : Hidden} {evs : List TraceEv}
    {ds : List PinDraw} {n k : Nat} (hok : allOk s.cfg [d0, d1, d2, d3, d4, d5])
    (hi : h.i = s.resumeAt) (hr : (!d2.high && !d5.high) = false) :
    ∃ h', h'.drv = false ∧ h'.pres = h.pres ∧ h'.presV = h.presV ∧
      runSeq (k + 16) (s.moved (.act .replay :: rest) h evs (d0 :: d1 :: d2 :: d3 :: d4 :: d5 :: ds) n) =
        runSeq k (s.moved (.raise .unexpectedResponse :: rest) h' 
          (evs ++ (readSlotEvs d2.high ++ readSlotEvs d5.high)) ds
          (n + 2 * slotCycles s.cfg 3)) := by
  have hres : ∀ l h evs ds n, (s.moved l h evs ds n).resumeAt = s.resumeAt := fun _ _ _ _ _ => rfl
  rw [show k + 16 = (k + 1 + 14) + 1 by omega, run_act]
  simp only [Act.next, Act.hid, moved_hid, hres, hi, lt_irrefl, if_false, List.append_assoc, moved_regs]
  rw [run_twoRead hq hok, List.cons_append, run_act]
  simp only [Act.next, Act.hid, moved_hid, bothRespond, hr, if_false, Bool.false_eq_true, List.cons_append,
    List.nil_append]
  simp only [Bool.not_not]
  refine ⟨_, ?_, ?_, ?_, rfl⟩ <;> rfl

/-! ## Steps 1 to 3 -/

/-- Steps 1 to 3 of a pass that is not exhausted and finds a presence (R222, R223, R224), up to its starting
point. -/
theorem run_searchHead (hq : s.quiet) (resume alarm : Bool) (hx : resume = true → s.regs.sdisc ≠ 0#64)
    {h : Hidden} {evs : List TraceEv} {d0 d1 d2 d3 : PinDraw} {ds0 ds : List PinDraw} {n fuel : Nat}
    (h4 : allOk s.cfg [d0, d1, d2, d3]) (hi : d0.idlesHigh s.cfg) (hv : h.drv = false) (hp : d3.high = false)
    (hl : ds0.length = 16) (hok : allOk s.cfg ds0) :
    ∃ tm,
      runSeq (fuel + 60) (s.moved [.act (.searchEnter resume alarm)] h evs (d0 :: d1 :: d2 :: d3 :: (ds0 ++ ds)) n) =
        runSeq fuel (s.moved [.act (.searchStart resume)]
          { h with
            sh := searchByte alarm, k := 8, drv := false, bit := true, pres := true, presV := true, tmr := tm }
          (evs ++ resetEvs true ++ byteEvs (searchByte alarm)) ds
          (n + (960 * s.cfg.ticksPerUs + d0.delay + 4 * s.cfg.actLat) + 8 * slotCycles s.cfg 2)) := by
  simp only [allOk_cons] at h4
  obtain ⟨a0, a1, a2, a3, -⟩ := h4
  have hne : (resume && s.regs.sdisc == 0#64) = false := by
    cases resume with
    | false => rfl
    | true => simpa using hx rfl
  rw [show fuel + 60 = (fuel + 50 + 1 + 8) + 1 by omega, run_act]
  simp only [Act.next, Act.hid, moved_hid, moved_regs, hne, if_false, Bool.false_eq_true, List.append_nil,
    List.append_assoc]
  rw [run_resetSeq hq a0 a1 a2 a3 hi hv, run_act]
  simp only [Act.next, Act.hid, moved_hid, hp, Bool.not_false, if_true, List.append_nil]
  obtain ⟨tm, e⟩ := run_writeByteSeq (rest := [.act (.searchStart resume)]) hq (searchByte alarm)
    { h with drv := false, bit := true, pres := true, presV := true, tmr := usCycles s.cfg 410 }
    (evs ++ resetEvs true) ds0 ds (n + (960 * s.cfg.ticksPerUs + d0.delay + 4 * s.cfg.actLat)) fuel hl hok
  exact ⟨tm, by rw [e, List.append_assoc]⟩

/-! ## A whole pass -/

/-- A list cut after n elements. -/
theorem take_drop_split (ds : List PinDraw) (n : Nat) (h : n ≤ ds.length) :
    ∃ xs ys, ds = xs ++ ys ∧ xs.length = n ∧ ys.length = ds.length - n :=
  ⟨ds.take n, ds.drop n, (List.take_append_drop ..).symm, by simp [h], by simp⟩

/-- The draws of a whole pass: RESET_SEQ, the command byte, the 64 positions. -/
theorem passDraws (ds : List PinDraw) (h : ds.length = 532) :
    ∃ d0 d1 d2 d3 xs ys, ds = d0 :: d1 :: d2 :: d3 :: (xs ++ ys) ∧ xs.length = 16 ∧ ys.length = 8 * 64 := by
  match ds, h with
  | d0 :: d1 :: d2 :: d3 :: tl, h =>
    simp only [List.length_cons] at h
    obtain ⟨xs, ys, rfl, hx, hy⟩ := take_drop_split tl 16 (by omega)
    exact ⟨d0, d1, d2, d3, xs, ys, rfl, hx, by omega⟩

theorem respAt_pass {d0 d1 d2 d3 : PinDraw} {xs ys : List PinDraw} (hx : xs.length = 16) (i : Nat) :
    respAt (d0 :: d1 :: d2 :: d3 :: (xs ++ ys)) i = respIn ys i := by
  have key : ∀ n, drawAt (d0 :: d1 :: d2 :: d3 :: (xs ++ ys)) (20 + n) = drawAt ys n := by
    intro n
    have : d0 :: d1 :: d2 :: d3 :: (xs ++ ys) = ([d0, d1, d2, d3] ++ xs) ++ ys := by simp
    rw [this]
    have h2 := drawAt_append_right ([d0, d1, d2, d3] ++ xs) ys n
    simp only [List.length_append, List.length_cons, List.length_nil, hx] at h2
    exact h2
  simp only [respAt, respIn]
  rw [show 20 + 8 * i + 2 = 20 + (8 * i + 2) by omega, show 20 + 8 * i + 5 = 20 + (8 * i + 5) by omega, key, key]

theorem allOk_pass {p : Params} {d0 d1 d2 d3 : PinDraw} {xs ys : List PinDraw}
    (h : allOk p (d0 :: d1 :: d2 :: d3 :: (xs ++ ys))) : allOk p [d0, d1, d2, d3] ∧ allOk p xs ∧ allOk p ys := by
  have : d0 :: d1 :: d2 :: d3 :: (xs ++ ys) = [d0, d1, d2, d3] ++ (xs ++ ys) := rfl
  rw [this, allOk_append, allOk_append] at h
  exact h

theorem walkPass_congr {f g : Nat → Bool × Bool} (m : Nat) : ∀ i p, (∀ j, i ≤ j → j < i + m → f j = g j) →
    walkPass f m i p = walkPass g m i p := by
  induction m with
  | zero => intros; rfl
  | succ m ih =>
    intro i p h
    rw [walkPass_succ, walkPass_succ, h i (by omega) (by omega), ih]
    intro j hj hj'
    exact h j (by omega) (by omega)

/-- A whole pass without an unexpected response, fresh or resumed, up to step 6 (R237). -/
theorem run_pass {s : State} (hq : s.quiet) (resume alarm : Bool) (ds rest : List PinDraw) (p : Pass)
    (hx : resume = true → s.regs.sdisc ≠ 0#64) (hl : ds.length = 532) (hok : allOk s.cfg ds)
    (hi : (drawAt ds 0).idlesHigh s.cfg) (hv : s.hid.drv = false) (hp3 : (drawAt ds 3).high = false)
    (hp : searchPass resume s.regs.saddr s.regs.sdisc s.regs.sldi.toNat (respAt ds) = some p) (fuel : Nat) :
    ∃ h', h'.drv = false ∧ h'.pres = true ∧ h'.presV = true ∧ h'.wAddr = p.addr ∧ h'.wDisc = p.disc ∧ h'.wLdi = p.ldi ∧
      runSeq (fuel + 1406) (s.moved (procSearch resume alarm) s.hid [] (ds ++ rest) 0) =
        runSeq fuel (s.moved [.act .validate] h'
          (resetEvs true ++ byteEvs (searchByte alarm) ++ passEvs ds p.addr) rest
          (14960 * s.cfg.ticksPerUs + (drawAt ds 0).delay + 532 * s.cfg.actLat)) := by
  obtain ⟨d0, d1, d2, d3, xs, ys, rfl, hxl, hyl⟩ := passDraws ds hl
  obtain ⟨h4, hokx, hoky⟩ := allOk_pass hok
  have hi : d0.idlesHigh s.cfg := hi
  have hp3 : d3.high = false := hp3
  have hd0 : (drawAt (d0 :: d1 :: d2 :: d3 :: (xs ++ ys)) 0) = d0 := rfl
  rw [hd0]
  have hresp : respAt (d0 :: d1 :: d2 :: d3 :: (xs ++ ys)) = respIn ys := funext (respAt_pass hxl)
  have hpe : passEvs (d0 :: d1 :: d2 :: d3 :: (xs ++ ys)) p.addr =
      (List.range 64).flatMap fun i => posEvs (respIn ys i) (p.addr.getLsbD i) := by
    simp only [passEvs, passEvsTo, twoReadEvs, hresp, posEvs]
  rw [hresp] at hp
  rw [hpe]
  obtain ⟨tm, e⟩ := run_searchHead hq resume alarm hx (h := s.hid) (evs := []) (ds := ys ++ rest) (n := 0)
    (fuel := fuel + (21 * 64 + 1) + 1) h4 hi hv hp3 hxl hokx
  simp only [procSearch, List.cons_append, List.append_assoc]
  rw [show fuel + 1406 = fuel + (21 * 64 + 1) + 1 + 60 by omega, e, run_act]
  have fin : ∀ (x : State) (h' : Hidden) (evs : List TraceEv) (n : Nat) (fu : Nat),
      runSeq fu x = runSeq fuel (s.moved [.act .validate] h' evs rest n) → h'.drv = false → h'.pres = true →
      h'.presV = true → h'.wAddr = p.addr → h'.wDisc = p.disc → h'.wLdi = p.ldi →
      evs = resetEvs true ++ (byteEvs (searchByte alarm) ++
        (List.range 64).flatMap fun i => posEvs (respIn ys i) (p.addr.getLsbD i)) →
      n = 14960 * s.cfg.ticksPerUs + d0.delay + 532 * s.cfg.actLat →
      ∃ h', h'.drv = false ∧ h'.pres = true ∧ h'.presV = true ∧ h'.wAddr = p.addr ∧ h'.wDisc = p.disc ∧ h'.wLdi = p.ldi ∧
        runSeq fu x =
        runSeq fuel (s.moved [.act .validate] h'
          (resetEvs true ++ (byteEvs (searchByte alarm) ++
            (List.range 64).flatMap fun i => posEvs (respIn ys i) (p.addr.getLsbD i))) rest
          (14960 * s.cfg.ticksPerUs + d0.delay + 532 * s.cfg.actLat)) := by
    intro x h' evs n fu e a b c d f g he hn
    subst he hn
    exact ⟨h', a, b, c, d, f, g, e⟩
  cases resume with
  | false =>
    simp only [Act.next, Act.hid, moved_hid, Bool.false_eq_true, if_false, List.nil_append, List.append_nil]
    simp only [searchPass, Bool.false_eq_true, if_false] at hp
    obtain ⟨tm', bit, r0, r1, e'⟩ := run_walk (rest := []) hq (respIn ys) 64
      { s.hid with
        sh := searchByte alarm, k := 8, drv := false, bit := true, pres := true, presV := true, tmr := tm
        wLdi := 0#6, wAddr := 0#64, wDisc := 0#64, i := 0 }
      (resetEvs true ++ byteEvs (searchByte alarm)) ys rest
      (0 + (960 * s.cfg.ticksPerUs + d0.delay + 4 * s.cfg.actLat) + 8 * slotCycles s.cfg 2) fuel p rfl hyl hoky
      (by intro j _; simp) hp
    exact fin _ _ _ _ _ e' rfl rfl rfl rfl rfl rfl (by simp [List.range_eq_range', List.append_assoc])
      (by simp only [posCycles, slotCycles]; ring)
  | true =>
    simp only [Act.next, Act.hid, moved_hid, if_true, List.nil_append, List.append_nil]
    simp only [searchPass, if_true] at hp
    by_cases hL : respIn ys s.regs.sldi.toNat = (true, true)
    · rw [if_pos hL] at hp
      have hlt : s.regs.sldi.toNat < 64 := s.regs.sldi.isLt
      have hra : s.resumeAt = s.regs.sldi.toNat := rfl
      obtain ⟨us, vs, rfl, hul, hvl⟩ := take_drop_split ys (8 * s.regs.sldi.toNat) (by omega)
      obtain ⟨e0, e1, e2, e3, e4, e5, e6, e7, ws, rfl, hwl⟩ := eight_draws (m := 63 - s.regs.sldi.toNat) (ds0 := vs)
        (by omega)
      rw [allOk_append] at hoky
      have hright : ∀ j, respIn (us ++ (e0 :: e1 :: e2 :: e3 :: e4 :: e5 :: e6 :: e7 :: ws)) (s.regs.sldi.toNat + j) =
          respIn (e0 :: e1 :: e2 :: e3 :: e4 :: e5 :: e6 :: e7 :: ws) j := by
        intro j
        simp only [respIn]
        rw [show 8 * (s.regs.sldi.toNat + j) + 2 = us.length + (8 * j + 2) by omega,
          show 8 * (s.regs.sldi.toNat + j) + 5 = us.length + (8 * j + 5) by omega, drawAt_append_right,
          drawAt_append_right]
      obtain ⟨tm1, bit1, r01, r11, e1'⟩ := run_replay (rest := []) hq
        (respIn (us ++ (e0 :: e1 :: e2 :: e3 :: e4 :: e5 :: e6 :: e7 :: ws))) s.regs.sldi.toNat
        { s.hid with
          sh := searchByte alarm, k := 8, drv := false, bit := true, pres := true, presV := true, tmr := tm
          wLdi := 0#6, i := 0 }
        (resetEvs true ++ byteEvs (searchByte alarm)) us
        ((e0 :: e1 :: e2 :: e3 :: e4 :: e5 :: e6 :: e7 :: ws) ++ rest)
        (0 + (960 * s.cfg.ticksPerUs + d0.delay + 4 * s.cfg.actLat) + 8 * slotCycles s.cfg 2)
        (fuel + (21 * (63 - s.regs.sldi.toNat) + 1) + 21)
        (by simp [hra]) hul hoky.1
        (by
          intro j hj
          simp only [respIn, Nat.zero_add]
          rw [drawAt_append_left _ (by omega), drawAt_append_left _ (by omega)])
      have hok8 : allOk s.cfg ([e0, e1, e2, e3, e4, e5, e6, e7] ++ ws) := hoky.2
      rw [allOk_append] at hok8
      have hL' := hright 0
      rw [Nat.add_zero, hL] at hL'
      have h25 : e2.high = false ∧ e5.high = false := by
        have h' : ((true : Bool), (true : Bool)) = (!e2.high, !e5.high) := hL'
        simp only [Prod.mk.injEq] at h'
        revert h'; cases e2.high <;> cases e5.high <;> simp
      obtain ⟨tm2, e2'⟩ := run_confirm (rest := []) (ds := ws ++ rest) hq (k := fuel + (21 * (63 - s.regs.sldi.toNat) + 1))
        (h := { s.hid with
          sh := searchByte alarm, k := 8, pres := true, presV := true, i := s.resumeAt
          wLdi := replayLdi s.regs.sdisc s.regs.sldi.toNat 0 0#6
          drv := false, tmr := tm1, bit := bit1, r0 := r01, r1 := r11 })
        (evs := resetEvs true ++ byteEvs (searchByte alarm) ++
          (List.range' 0 s.regs.sldi.toNat).flatMap fun i =>
            posEvs (respIn (us ++ (e0 :: e1 :: e2 :: e3 :: e4 :: e5 :: e6 :: e7 :: ws)) i) (s.regs.saddr.getLsbD i))
        (n := 0 + (960 * s.cfg.ticksPerUs + d0.delay + 4 * s.cfg.actLat) + 8 * slotCycles s.cfg 2 +
          s.regs.sldi.toNat * posCycles s.cfg)
        hok8.1 rfl h25.1 h25.2
      obtain ⟨tm3, bit3, r03, r13, e3'⟩ := run_walk (rest := []) hq
        (respIn (us ++ (e0 :: e1 :: e2 :: e3 :: e4 :: e5 :: e6 :: e7 :: ws))) (63 - s.regs.sldi.toNat)
        { s.hid with
          sh := searchByte alarm, k := 8, pres := true, presV := true
          wLdi := replayLdi s.regs.sdisc s.regs.sldi.toNat 0 0#6
          i := s.resumeAt + 1, wAddr := assignBit s.regs.saddr s.resumeAt true,
          wDisc := assignBit s.regs.sdisc s.resumeAt false, drv := false, tmr := tm2, bit := false,
          r0 := true, r1 := true }
        (resetEvs true ++ byteEvs (searchByte alarm) ++
          ((List.range' 0 s.regs.sldi.toNat).flatMap fun i =>
            posEvs (respIn (us ++ (e0 :: e1 :: e2 :: e3 :: e4 :: e5 :: e6 :: e7 :: ws)) i) (s.regs.saddr.getLsbD i)) ++
          posEvs (true, true) true) ws rest
        (0 + (960 * s.cfg.ticksPerUs + d0.delay + 4 * s.cfg.actLat) + 8 * slotCycles s.cfg 2 +
          s.regs.sldi.toNat * posCycles s.cfg + posCycles s.cfg) fuel p (by simp only [hra]; omega) hwl hok8.2
        (by
          intro j hj
          have := hright (1 + j)
          rw [show s.regs.sldi.toNat + (1 + j) = s.resumeAt + 1 + j by rw [hra]; omega, Nat.add_comm 1 j, respIn_cons8] at this
          rw [this])
        (by rw [replayLdi_rederive]; exact hp)
      rw [show fuel + (21 * 64 + 1) =
        fuel + (21 * (63 - s.regs.sldi.toNat) + 1) + 21 + 21 * s.regs.sldi.toNat by omega]
      have hr64 : List.range 64 = List.range' 0 s.regs.sldi.toNat ++
          (s.regs.sldi.toNat :: List.range' (s.regs.sldi.toNat + 1) (63 - s.regs.sldi.toNat)) := by
        rw [List.range_eq_range', ← List.range'_succ]
        have := List.range'_append (s := 0) (m := s.regs.sldi.toNat) (n := 63 - s.regs.sldi.toNat + 1) (step := 1)
        rw [Nat.one_mul, Nat.zero_add] at this
        rw [this]; congr 1; omega
      have hbel := walkPass_below _ _ _ _ _ hp
      have hb1 : ∀ j, j < s.regs.sldi.toNat → p.addr.getLsbD j = s.regs.saddr.getLsbD j := by
        intro j hj
        rw [hbel j (by omega)]
        simp only [getLsbD_assignBit]; rw [if_neg (by omega)]
      have hb2 : p.addr.getLsbD s.regs.sldi.toNat = true := by
        rw [hbel _ (by omega)]
        simp only [getLsbD_assignBit]; rw [if_pos ⟨trivial, by omega⟩]
      have hm1 : ((List.range' 0 s.regs.sldi.toNat).flatMap fun i =>
            posEvs (respIn (us ++ (e0 :: e1 :: e2 :: e3 :: e4 :: e5 :: e6 :: e7 :: ws)) i) (s.regs.saddr.getLsbD i)) =
          ((List.range' 0 s.regs.sldi.toNat).flatMap fun i =>
            posEvs (respIn (us ++ (e0 :: e1 :: e2 :: e3 :: e4 :: e5 :: e6 :: e7 :: ws)) i) (p.addr.getLsbD i)) := by
        apply List.flatMap_congr
        intro j hj
        rw [hb1 j (by simp at hj; omega)]
      have hdv : (if s.regs.sldi.toNat = 0 then (false : Bool) else false) = false := by simp
      simp only [ite_self] at e1' e3'
      rw [List.append_assoc us]
      refine fin _ _ _ _ _ (e1'.trans (e2'.trans e3')) rfl rfl rfl rfl rfl rfl ?_ ?_
      · rw [hr64, List.flatMap_append, List.flatMap_cons, hL, hb2, hm1]
        simp [List.append_assoc, hra]
      · simp only [posCycles, slotCycles]
        obtain ⟨l, hl⟩ : ∃ l, l = 63 - s.regs.sldi.toNat := ⟨_, rfl⟩
        have h63 : s.regs.sldi.toNat = 63 - l := by omega
        rw [← hl]
        have : s.regs.sldi.toNat + l = 63 := by omega
        generalize hX : (2 * (70 * s.cfg.ticksPerUs + 3 * s.cfg.actLat) + (70 * s.cfg.ticksPerUs + 2 * s.cfg.actLat)) = X
        have e63 : s.regs.sldi.toNat * X + l * X = 63 * X := by rw [← Nat.add_mul, this]
        have : 63 * X + X = 64 * (210 * s.cfg.ticksPerUs + 8 * s.cfg.actLat) := by rw [← hX]; ring
        linarith
    · rw [if_neg hL] at hp; cases hp


end Sys2Proof.Machine
end

