-- ==== Sys2Proof/Tests/Slice0.lean ====
section
/-!
SUPPORT. Tests. Every expected result is taken from the spec: the words of 30_encoding.md R112 and the vectors of
95_test_vectors.md (V-E to V-X), named in each docstring. The last part shows, for each obligation that has hypotheses,
a concrete state and operands that meet all of them.
-/

namespace Sys2Proof.Tests

open Sys2Proof Sys2Proof.Machine

/-! ## Well-formedness: each check refuses its ill-formed term -/

/-- R107: RSVD = 0 is not the reason for being ILLEGAL. -/
theorem test_wf_rsvd_zero : (Instr.illegalRsvd 0#16 0x123#12 0x6#4).wf = false := by decide
/-- R108: OP 0x0 is its own row. -/
theorem test_wf_rsvd_op0 : (Instr.illegalRsvd 1#16 0x000#12 0x0#4).wf = false := by decide
/-- R108: OP 0xF is its own row. -/
theorem test_wf_rsvd_opF : (Instr.illegalRsvd 1#16 0x000#12 0xF#4).wf = false := by decide
/-- A word of R107 passes. -/
theorem test_wf_rsvd_ok : (Instr.illegalRsvd 1#16 0x000#12 0x6#4).wf = true := by decide

/-! ## Decoding: a word of each command, written out from 30_encoding.md R101, R109, R112 and vectors V-E1 to V-E13 -/

theorem test_decode_releaseBus : decode 0x00000001#32 = .releaseBus := by decide
theorem test_decode_driveLow : decode 0x00000002#32 = .driveLow := by decide
theorem test_decode_senseHigh : decode 0x00000003#32 = .senseHigh := by decide
theorem test_decode_senseLow : decode 0x00000004#32 = .senseLow := by decide
theorem test_decode_waitHigh : decode 0x00000005#32 = .waitHigh := by decide
/-- V-E1. -/
theorem test_decode_reset : decode 0x00000006#32 = .reset := by decide
theorem test_decode_readBit : decode 0x00000007#32 = .readBit := by decide
/-- V-E2, bit by bit: BYTE 00000000, BIT 1, MATCH 0, ALARM 0, RESUME 0, OP 1000. -/
theorem test_decode_writeBit1 : decode 0b00000000000000000000000010001000#32 = .writeBit true := by decide
/-- V-E3. -/
theorem test_decode_writeBit0 : decode 0x00000008#32 = .writeBit false := by decide
/-- V-E4: bits 15:8 and 6:4 ignored. -/
theorem test_decode_writeBit_ignored : decode 0x0000FF78#32 = .writeBit false := by decide
theorem test_decode_readByte : decode 0x00000009#32 = .readByte := by decide
/-- V-E5, bit by bit: BYTE 11001100, OP 1010. -/
theorem test_decode_writeByte : decode 0b00000000000000001100110000001010#32 = .writeByte 0xCC#8 := by decide
theorem test_decode_matchRom : decode 0x0000000B#32 = .matchRom := by decide
theorem test_decode_skipRom : decode 0x0000000C#32 = .skipRom := by decide
/-- V-E6, bit by bit: BYTE 01000100, MATCH 1, OP 1101. -/
theorem test_decode_sendCommandMatch : decode 0b00000000000000000100010001001101#32 = .sendCommand 0x44#8 true := by
  decide
/-- V-E7. -/
theorem test_decode_sendCommand : decode 0x0000440D#32 = .sendCommand 0x44#8 false := by decide
/-- R112: SEARCH.R, bit by bit: RESUME 1, OP 1110. -/
theorem test_decode_searchResume : decode 0b00000000000000000000000000011110#32 = .search true false := by decide
/-- R112: SEARCH.A, bit by bit: ALARM 1, OP 1110. -/
theorem test_decode_searchAlarm : decode 0b00000000000000000000000000101110#32 = .search false true := by decide
/-- V-E9: bits 7:6 ignored. -/
theorem test_decode_search_ignored : decode 0x000000FE#32 = .search true true := by decide
/-- V-E10. -/
theorem test_decode_illegalOp0 : decode 0x00000000#32 = .illegalOp0 0#28 := by decide
/-- V-E11. -/
theorem test_decode_illegalOpF : decode 0x0000000F#32 = .illegalOpF 0#28 := by decide
/-- V-E12. -/
theorem test_decode_illegalRsvd : decode 0x00010006#32 = .illegalRsvd 1#16 0#12 0x6#4 := by decide
/-- V-E13. -/
theorem test_decode_illegalRsvd31 : decode 0x80000007#32 = .illegalRsvd 0x8000#16 0#12 0x7#4 := by decide

/-! ## States for the tests -/

/-- TICKS_PER_US = 1, ACT_LAT = 0, PIN_ERR_W = 8, pin errors possible, the default checksum, OWB_BASE = 0. -/
def cfg : Params :=
  { ticksLess1 := 0, actLat := 0, pinErrWLess1 := 7, pinCanFail := true, crc := .dallas, owbBase := 0 }

/-- The reset state with those parameters and these answers of the pin port to come. -/
def start (draws : List PinDraw) : State := { State.reset with cfg := cfg, port := { draws := draws, trace := [] } }

/-- The same, with the line driven low by the engine. -/
def driven (draws : List PinDraw) : State := { start draws with hid := { Hidden.reset with drv := true } }

/-- A draw with the line high. -/
def hi : PinDraw := .level true
/-- A draw with the line low. -/
def lo : PinDraw := .level false
/-- A draw answered with the error c. -/
def bad (c : Word) : PinDraw := { err := some c, high := true, delay := 0 }

/-- The state a command ends in. -/
def after (i : Instr) (s : State) : State :=
  match exec i s with
  | .next t => t
  | _ => s

/-- DONE, ERR and DRIVING. -/
def ends (s : State) : Bool × ErrCode × Bool := (s.regs.done, s.regs.err, s.driving)

/-! ## Signal primitives -/

/-- V-P1. -/
theorem test_releaseBus :
    (after .releaseBus (driven [hi])).port.trace = [.pin .release .ok] ∧
      ends (after .releaseBus (driven [hi])) = (true, .none, false) := by decide
/-- V-P2. -/
theorem test_driveLow :
    (after .driveLow (start [hi])).port.trace = [.pin .driveLow .ok] ∧
      ends (after .driveLow (start [hi])) = (true, .none, true) := by decide
/-- V-P9. -/
theorem test_senseHigh : (after .senseHigh (start [hi])).regs.rxBit = true := by decide
/-- V-P11: RX.BIT unchanged, ERR 1, PINERR 5. -/
theorem test_senseHigh_err :
    let t := after .senseHigh { start [bad 0x5#32] with regs := { Regs.reset with rxBit := true } }
    t.regs.rxBit = true ∧ t.regs.pinerr = 0x00000005#32 ∧ ends t = (true, .pinFailure, false) := by decide
/-- V-P10. -/
theorem test_senseLow :
    let t := after .senseLow { start [hi] with regs := { Regs.reset with rxBit := true } }
    t.regs.rxBit = false ∧ t.port.trace = [.pin .isLow (.level false)] := by decide
/-- R9, R50: with PIN_CAN_FAIL = false an error code of a draw is no error; RX.BIT is the level. -/
theorem test_senseHigh_cannotFail :
    let t := after .senseHigh { start [bad 0x5#32] with cfg := { cfg with pinCanFail := false } }
    t.regs.rxBit = true ∧ t.regs.pinerr = 0x00000000#32 ∧ ends t = (true, .none, false) := by decide
/-- R134: a low line gives 1. -/
theorem test_senseLow_low : (after .senseLow (start [lo])).regs.rxBit = true := by decide
/-- V-P4: 250 µs, ERR 2. -/
theorem test_waitHigh_timeout :
    let t := after .waitHigh (start [lo])
    t.port.trace = [.pin .waitHigh .timeout] ∧ ends t = (true, .busNotHigh, false) ∧ 250 ≤ t.now := by decide
/-- V-P5: high in the expiry cycle succeeds. -/
theorem test_waitHigh_expiry :
    let t := after .waitHigh (start [{ err := none, high := true, delay := 250 }])
    t.port.trace = [.pin .waitHigh .high] ∧ ends t = (true, .none, false) := by decide
/-- V-P6. -/
theorem test_reset_presence :
    let t := after .reset (start [hi, hi, hi, lo])
    t.port.trace = [.pin .waitHigh .high, .pin .driveLow .ok, .wait 480, .pin .release .ok, .wait 70,
      .pin .isLow (.level true), .wait 410] ∧
      t.regs.presence = true ∧ ends t = (true, .none, false) := by decide
/-- V-P8: after DRIVE_LOW, ERR 2, nothing issued after the wait, PRESENCE still 1, DRIVING 1. -/
theorem test_reset_driven :
    let t := after .reset { driven [hi, hi, hi, lo] with regs := { Regs.reset with presence := true } }
    t.port.trace = [.pin .waitHigh .timeout] ∧ t.regs.presence = true ∧ ends t = (true, .busNotHigh, true) := by
  decide

/-! ## Bit and byte -/

/-- V-B2. -/
theorem test_readBit :
    let t := after .readBit { start [hi, hi, lo] with regs := { Regs.reset with rxBit := true } }
    t.port.trace = [.pin .driveLow .ok, .wait 6, .pin .release .ok, .wait 9, .pin .isHigh (.level false), .wait 55] ∧
      t.regs.rxBit = false := by decide
/-- V-B3. -/
theorem test_writeBit :
    let t := after (.writeBit true) (start [hi, hi])
    t.port.trace = [.pin .driveLow .ok, .wait 6, .pin .release .ok, .wait 64] ∧ ends t = (true, .none, false) := by
  decide
/-- V-B11: RELEASE fails, DRIVING stays 1. -/
theorem test_writeBit_err :
    let t := after (.writeBit false) (start [hi, bad 0x2#32])
    t.port.trace = [.pin .driveLow .ok, .wait 60, .pin .release (.err 0x2#32)] ∧ t.regs.pinerr = 0x2#32 ∧
      ends t = (true, .pinFailure, true) := by decide
/-- V-B5: the slots of 0x28, least-significant bit first. -/
theorem test_readByte :
    (after .readByte (start (echoDraws [false, false, false, true, false, true, false, false]))).regs.rxByte =
      0x28#8 := by decide +kernel
/-- V-B10: the sample of slot k = 3 fails: RX.BYTE keeps 0x77, and slots 4 to 7 are not run. -/
theorem test_readByte_err :
    let t := after .readByte
      { start (echoDraws [true, true, true] ++ [hi, hi, bad 0x1#32, hi, hi, hi]) with
        regs := { Regs.reset with rxByte := 0x77#8 } }
    t.regs.rxByte = 0x77#8 ∧ t.regs.pinerr = 0x1#32 ∧ t.port.draws = [hi, hi, hi] ∧
      ends t = (true, .pinFailure, false) := by decide +kernel
/-- V-B7: the slots of 0xCC. -/
theorem test_writeByte :
    slotBits (after (.writeByte 0xCC#8) (start (List.replicate 16 hi))).port.trace =
      [false, false, true, true, false, false, true, true] := by decide +kernel

/-! ## Addressing -/

/-- V-A2: 0xCC on the wire. -/
theorem test_skipRom :
    slotBits (after .skipRom (start (List.replicate 16 hi))).port.trace =
      [false, false, true, true, false, false, true, true] := by decide +kernel
/-- V-A1: the first slots are 0x55, the next ones 0x02, the first byte of D; 144 requests in all. -/
theorem test_matchRom :
    let t := after .matchRom
      { start (List.replicate 144 hi) with regs := { Regs.reset with romid := 0xA200000001B81C02#64 } }
    (slotBits t.port.trace).take 16 =
      [true, false, true, false, true, false, true, false, false, true, false, false, false, false, false, false] ∧
      t.port.draws = [] ∧ ends t = (true, .none, false) := by decide +kernel
/-- V-A3: PRESENCE 1, and CC 44 after the reset sequence. -/
theorem test_sendCommand :
    let t := after (.sendCommand 0x44#8 false) (start ([hi, hi, hi, lo] ++ List.replicate 32 hi))
    t.regs.presence = true ∧ slotBits (t.port.trace.drop 7) =
      [false, false, true, true, false, false, true, true, false, false, true, false, false, false, true, false] ∧
      ends t = (true, .none, false) := by decide +kernel
/-- V-A5: no presence, and the bytes are sent all the same. -/
theorem test_sendCommand_empty :
    let t := after (.sendCommand 0x44#8 false) (start ([hi, hi, hi, hi] ++ List.replicate 32 hi))
    t.regs.presence = false ∧ t.port.draws = [] ∧ ends t = (true, .none, false) := by decide +kernel

/-! ## Search -/

/-- V-S10: the devices vanish after the presence: ERR 3 at position 0. -/
theorem test_search_vanished :
    let t := after (.search false false) (start ([hi, hi, hi, lo] ++ List.replicate 24 hi))
    ends t = (true, .unexpectedResponse, false) ∧ t.regs.found = false ∧ t.regs.presence = true ∧
      t.port.draws = [hi, hi] := by decide +kernel
/-- V-S12: SEARCH.R with SDISC = 1 and SLDI = 0 replays nothing and checks position 0, which reads (0, 1): ERR 3. -/
theorem test_search_resume_zero :
    let t := after (.search true false)
      { start ([hi, hi, hi, lo] ++ List.replicate 16 hi ++ [hi, hi, lo, hi, hi, hi]) with
        regs := { Regs.reset with sdisc := 1#64, saddr := 0x2900000000000128#64 } }
    ends t = (true, .unexpectedResponse, false) ∧ t.regs.sdisc = 1#64 ∧ t.regs.saddr = 0x2900000000000128#64 ∧
      t.port.draws = [] := by decide +kernel

/-! ## Errors, acceptance, registers -/

/-- V-X1, OP 0xF: no pin request, ERR 5. -/
theorem test_illegalOpF :
    let t := after (.illegalOpF 0#28) (start [hi])
    t.port.trace = [] ∧ ends t = (true, .illegalCommand, false) ∧ t.busy = false := by decide
/-- R108, OP 0x0. -/
theorem test_illegalOp0 : ends (after (.illegalOp0 0#28) (start [hi])) = (true, .illegalCommand, false) := by decide
/-- R107. -/
theorem test_illegalRsvd :
    ends (after (.illegalRsvd 1#16 0#12 0x6#4) (start [hi])) = (true, .illegalCommand, false) := by decide
/-- V-X2 and V-X3: writes to CMD and SADDR_LO while BUSY = 1. -/
theorem test_rejected :
    let s : State := { start [] with seq := .run [.wait 6] }
    (s.writeWord 0x00#6 0x0000000E#32).regs = { Regs.reset with rej := true } ∧
      (s.writeWord 0x1C#6 0xFFFFFFFF#32).regs = { Regs.reset with rej := true } := by decide
/-- V-X4. -/
theorem test_status_clear :
    let s : State := { start [] with regs := { Regs.reset with done := true, rej := true, presence := true } }
    (s.writeWord 0x04#6 0x00000012#32).regs = { Regs.reset with presence := true } := by decide
/-- V-X5: irq is 1 at the end of a command with IRQEN = 1. -/
theorem test_irq :
    (after .releaseBus { start [hi] with regs := { Regs.reset with doneIe := true } }).irq = true := by decide
/-- V-X6: a W1C to DONE in the cycle the command ends loses. -/
theorem test_done_race :
    (after .releaseBus
      { start [hi] with host := { queue := [⟨.atCycle 0, .write 0x04#6 0x00000002#32⟩], reads := [] } }).regs.done =
      true := by decide
/-- V-X7 and V-X8: offset 0x34 reads 0; offset 0x07 is STATUS, here PRESENCE and DONE (P-1: 0x00000006). -/
theorem test_offsets :
    let s : State := { start [] with regs := { Regs.reset with done := true, presence := true } }
    s.readWord 0x34#6 = 0x00000000#32 ∧ s.readWord 0x07#6 = 0x00000006#32 := by decide
/-- P-5: STATUS = 0x0000001E with DONE, PRESENCE, FOUND and REJ; ERR 5 alone is 0x00000500. -/
theorem test_status_word :
    let s : State :=
      { start [] with regs := { Regs.reset with done := true, presence := true, found := true, rej := true } }
    let t : State := { start [] with regs := { Regs.reset with err := .illegalCommand } }
    s.readWord 0x04#6 = 0x0000001E#32 ∧ t.readWord 0x04#6 = 0x00000500#32 := by decide
/-- R81: the platform's placement of the register space; both ends. -/
theorem test_offsetOf :
    offsetOf cfg 0x3C = some 0x3C#6 ∧ offsetOf cfg 0x40 = none ∧
      offsetOf { cfg with owbBase := 0x40 } 0x44 = some 0x04#6 ∧ offsetOf { cfg with owbBase := 0x40 } 0x3C = none := by
  decide

/-- R42: BYTE at 7:0 and BIT at 8 of RX. -/
theorem test_rx_word :
    ({ start [] with regs := { Regs.reset with rxByte := 0x28#8, rxBit := true } } : State).readWord 0x0C#6 =
      0x00000128#32 := by decide

/-! ## Host sequences (R113) -/

/-- The state a host sequence ends in. -/
def endOf (o : Host.Outcome State Fault Refusal) (s : State) : State :=
  match o with
  | .next t => t
  | _ => s

/-- A block reset due before the first command: both bytes are sent, in order. -/
theorem test_writeBytes_reset :
    let s : State := { start (List.replicate 32 hi) with resets := [0] }
    slotBits ((endOf (writeBytes [0x01#8, 0x80#8] s) s).port.trace.drop 1) =
      [true, false, false, false, false, false, false, false, false, false, false, false, false, false, false, true] := by
  decide +kernel
/-- A block reset within the first READ_BYTE (its first wait is cycles 1 to 6): no byte is kept. -/
theorem test_readBytes_reset :
    (readBytes 2 { start (List.replicate 48 hi) with resets := [4] }).1 = [] := by decide +kernel
/-- An engine held by a silent port: the host waits until the block reset, and the sequence stops there. -/
theorem test_writeBytes_held :
    let s : State := { start [hi] with resets := [500] }
    let t := endOf (writeBytes [0x01#8, 0x80#8] s) s
    t.busy = false ∧ t.regs.done = false ∧ t.now = 500 := by decide +kernel

/-! ## Checksum -/

/-- 3.7: the five values of its table. -/
theorem test_crc :
    crc8 [0x02#8, 0x1C#8, 0xB8#8, 0x01#8, 0x00#8, 0x00#8, 0x00#8] = 0xA2#8 ∧
      crc8 [0x28#8, 0x01#8, 0x00#8, 0x00#8, 0x00#8, 0x00#8, 0x00#8] = 0x29#8 ∧
      crc8 [0x28#8, 0x02#8, 0x00#8, 0x00#8, 0x00#8, 0x00#8, 0x00#8] = 0x70#8 ∧
      crc8 [0x10#8, 0x01#8, 0x00#8, 0x00#8, 0x00#8, 0x00#8, 0x00#8] = 0xCC#8 ∧
      crc8 [0x00#8, 0x00#8, 0x00#8, 0x00#8, 0x00#8, 0x00#8, 0x00#8] = 0x00#8 := by decide +kernel
/-- Section 2: the addresses A and D are valid, E is not. -/
theorem test_crcValid :
    crcValid cfg 0x2900000000000128#64 = true ∧ crcValid cfg 0xA200000001B81C02#64 = true ∧
      crcValid cfg 0x0000000000000128#64 = false := by decide +kernel

/-! ## The step -/

/-- The state after one step. -/
def stepped (s : State) : Option State :=
  match step s with
  | .next t => some t
  | _ => none

/-- The word 0x0000000F placed to run next (V-X1): the very next step runs it, from reset, whatever the parameters. -/
theorem test_step_placed :
    (stepped (State.reset.withFetchWord 32 0x0F)).map (fun t => (t.regs.err, t.regs.cmd)) =
      some (.illegalCommand, 0x0000000F#32) := by decide
/-- An idle engine with nothing to come only counts a cycle (R289). -/
theorem test_step_idle : (stepped State.reset).map (fun t => (t.now, t.seq)) = some (1, .idle) := by decide

/-- R41, R83: a step of an idle engine stores the host's write to IRQEN, whose bits 31:1 read 0. -/
theorem test_step_write :
    let s : State :=
      { start [] with host := { queue := [⟨.whenIdle, .write 0x08#6 0xFFFFFFFF#32⟩, ⟨.whenIdle, .read 0x08#6⟩], reads := [] } }
    ((stepped s).bind stepped).map (fun t => (t.regs.doneIe, t.host.reads, t.host.queue)) =
      some (true, [(0x08#6, 0x00000001#32)], []) := by decide
/-- R33: a held engine accepts a W1C write to STATUS. -/
theorem test_step_held :
    (stepped
      { start [] with
        seq := .await .isHigh [], regs := { Regs.reset with rej := true }
        host := { queue := [⟨.atCycle 3, .write 0x04#6 0x00000010#32⟩], reads := [] } }).map
      (fun t => (t.regs.rej, t.busy, t.now)) = some (false, true, 3) := by decide

/-- R17, R50: DRIVE_LOW with a port that never answers: the request is in the trace, and BUSY = 1. -/
theorem test_driveLow_unanswered :
    let t := after .driveLow (start [])
    t.port.trace = [.issued .driveLow] ∧ t.busy = true ∧ ends t = (false, .none, false) := by decide
/-- R17, R300: a block reset in the fifth cycle of READ_BIT's first wait: the request with its answer, then the wait. -/
theorem test_readBit_cut :
    (after .readBit { start [hi, hi, hi] with resets := [4] }).port.trace =
      [.pin .driveLow .ok, .wait 6, .blockReset (some (.wait 6))] := by decide

/-! ## Witnesses: the hypotheses of the obligations hold together somewhere -/

theorem start_ready (ds : List PinDraw) : (start ds).ready := ⟨⟨rfl, rfl⟩, rfl, rfl, rfl, rfl⟩

/-- A running engine at this step. -/
def running (step : List Micro) (draws : List PinDraw) : State := { start draws with seq := .run step }

theorem witness_DecodeEncodeAgree :
    (Instr.illegalRsvd 0x8000#16 0xABC#12 0x6#4).wf = true ∧ (Instr.sendCommand 0x44#8 true).wf = true := by decide

theorem witness_DecodeFollowsTheOpcodeMap :
    (0x00010000#32).extractLsb' 16 16 ≠ 0#16 ∧ (0x80000007#32).extractLsb' 16 16 ≠ 0#16 ∧
      ∀ op : BitVec 4, ((0#28 ++ op : BitVec 32).extractLsb' 16 16 = 0#16) ∧
        (0#28 ++ op : BitVec 32).extractLsb' 0 4 = op := by decide

/-- The hypotheses of UnusedFieldsAreIgnored on two words. -/
def unusedHyps (v w : Word) : Prop :=
  v.extractLsb' 16 16 = 0#16 ∧ w.extractLsb' 16 16 = 0#16 ∧
    v.extractLsb' 0 4 = w.extractLsb' 0 4 ∧ v.extractLsb' 0 4 ≠ 0x0#4 ∧ v.extractLsb' 0 4 ≠ 0xF#4 ∧
    (v.extractLsb' 0 4 = 0x8#4 → v.getLsbD 7 = w.getLsbD 7) ∧
    (v.extractLsb' 0 4 = 0xA#4 ∨ v.extractLsb' 0 4 = 0xD#4 → v.extractLsb' 8 8 = w.extractLsb' 8 8) ∧
    (v.extractLsb' 0 4 = 0xD#4 → v.getLsbD 6 = w.getLsbD 6) ∧
    (v.extractLsb' 0 4 = 0xE#4 → v.getLsbD 4 = w.getLsbD 4 ∧ v.getLsbD 5 = w.getLsbD 5)

/-- V-E4, V-E9 and other pairs: the two words of each differ in fields their opcode ignores. -/
theorem witness_UnusedFieldsAreIgnored :
    (decode 0x00010006#32).isIllegal = true ∧ (decode 0x0000000F#32).isIllegal = true ∧
    unusedHyps 0x0000FF78#32 0x00000008#32 ∧ unusedHyps 0x000000FE#32 0x0000003E#32 ∧
      unusedHyps 0x0000CCFA#32 0x0000CC0A#32 ∧ unusedHyps 0x000044FD#32 0x0000444D#32 ∧
      unusedHyps 0x0000FFF6#32 0x00000006#32 := by
  refine ⟨rfl, rfl, ?_, ?_, ?_, ?_, ?_⟩ <;> (unfold unusedHyps; decide)

theorem witness_StepRunsTheAcceptedCommand :
    let s : State := { start [hi] with host := { queue := [⟨.atCycle 5, .write 0x03#6 0x01#32⟩], reads := [] }, resets := [6] }
    s.seq = .idle ∧ s.host.queue = ⟨.atCycle 5, .write 0x03#6 0x01#32⟩ :: [] ∧ (0x03#6).extractLsb' 2 4 = 0x0#4 ∧
      s.resetBy (Due.cycle s.now (.atCycle 5)) = none := by decide

theorem witness_PlacedWordRunsNext : (32 : Nat) ≤ 32 ∧ (0 : Nat) ≤ 32 := by decide

/-- Both clauses, each at both ends of its range. -/
theorem witness_LockedWritesAreRejectedWhileBusy :
    (running [.wait 6] []).busy = true ∧ (running [.wait 6] []).regs.rej = false ∧
      (∀ off ∈ [0x00#6, 0x03#6, 0x14#6, 0x2F#6], off.extractLsb' 2 4 = 0x0#4 ∨
        0x5#4 ≤ off.extractLsb' 2 4 ∧ off.extractLsb' 2 4 ≤ 0xB#4) ∧
      (∀ off ∈ [0x04#6, 0x13#6, 0x30#6, 0x3F#6],
        0x1#4 ≤ off.extractLsb' 2 4 ∧ off.extractLsb' 2 4 ≤ 0x4#4 ∨ 0xC#4 ≤ off.extractLsb' 2 4) := by decide

/-- No offset falls under both clauses. -/
theorem witness_LockedWrites_disjoint :
    ∀ w : BitVec 4, ¬((w = 0x0#4 ∨ 0x5#4 ≤ w ∧ w ≤ 0xB#4) ∧ (0x1#4 ≤ w ∧ w ≤ 0x4#4 ∨ 0xC#4 ≤ w)) := by decide

theorem witness_ReservedBitsReadZeroAndIgnoreWrites :
    0x30#6 ≤ 0x30#6 ∧ 0x30#6 ≤ 0x3F#6 ∧
      ((0xFFFFFFFF#32).getLsbD 1 = (0x00000012#32).getLsbD 1 ∧ (0xFFFFFFFF#32).getLsbD 4 = (0x00000012#32).getLsbD 4) ∧
      (0xFFFFFFFF#32).getLsbD 0 = (0x00000001#32).getLsbD 0 ∧
      (0xFFFFFFC5#32).extractLsb' 0 6 = (0x00000005#32).extractLsb' 0 6 := by decide

theorem witness_AccessesReachWholeWords :
    (0x04#6).extractLsb' 2 4 = (0x07#6).extractLsb' 2 4 ∧ (0x3C#6).extractLsb' 2 4 = (0x3F#6).extractLsb' 2 4 := by
  decide

/-- Both ends of a half; the write clauses. -/
theorem witness_OperandRegistersHoldHostWrites : (start []).busy = false ∧ 0 < 32 ∧ 31 < 32 := by decide

theorem witness_InterruptIsDoneAndEnable :
    (0x00000002#32).getLsbD 1 = true ∧ (0x00000000#32).getLsbD 0 = false ∧ (0x00000001#32).getLsbD 0 = true := by decide

/-- A state that meets the invariant while a command runs. -/
theorem running_inv : (running [.pin .driveLow, .finish .nothing] [hi]).Inv where
  drive := by decide
  counters := by decide
  pinerr := by unfold codeFits; decide
  running := fun _ => by decide
  sound := ⟨⟨.finish .nothing, by decide, by decide⟩, by
    intro m hm
    simp only [List.mem_cons, List.not_mem_nil, or_false] at hm
    rcases hm with rfl | rfl <;> trivial⟩
  pending := fun _ _ h => by cases h

/-- An engine held at this request. -/
def waiting (r : PinReq) (rest : List Micro) : State :=
  { start [] with seq := .await r rest, port := { draws := [], trace := [.issued r] } }

/-- A held state that meets the invariant. -/
theorem held_inv : (waiting .isHigh [.finish .rxBit]).Inv where
  drive := by decide
  counters := by decide
  pinerr := by unfold codeFits; decide
  running := fun _ => by decide
  sound := fun h => by cases h
  pending := fun r rest h => by cases h; decide

theorem witness_StepKeepsTheInvariant :
    (running [.pin .driveLow, .finish .nothing] [hi]).Inv ∧
      ∃ t, step (running [.pin .driveLow, .finish .nothing] [hi]) = .next t := ⟨running_inv, _, rfl⟩

theorem witness_InvariantStatesAreSafe : (running [.pin .driveLow, .finish .nothing] [hi]).Inv := running_inv

theorem witness_ConfigurationIsConstant : ∃ t, step (start [hi]) = .next t := ⟨_, rfl⟩

theorem witness_ResultsAppearOnlyAtTheEnd :
    (running [.wait 6, .finish .nothing] []).busy = true ∧ (seqStep (running [.wait 6, .finish .nothing] [])).busy = true := by
  decide

theorem witness_ResultRegistersHaveTheirCommands :
    (start [hi]).resets = [] ∧ (start [hi]).accepted ∧
      (∃ t, exec .releaseBus (start [hi]) = .next t ∧ t.regs.err ≠ .pinFailure) ∧
      Instr.releaseBus ≠ .readByte ∧ Instr.releaseBus ≠ .readBit ∧ Instr.releaseBus ≠ .senseHigh ∧
      Instr.releaseBus ≠ .senseLow ∧ (∀ r a, Instr.releaseBus ≠ .search r a) ∧ Instr.releaseBus ≠ .reset ∧
      (∀ b m, Instr.releaseBus ≠ .sendCommand b m) :=
  ⟨rfl, ⟨rfl, rfl, rfl, rfl⟩, ⟨_, rfl, by decide⟩, by decide, by decide, by decide, by decide, by simp, by decide,
    by simp⟩

/-- PIN_CAN_FAIL = false, with a draw that carries an error code. -/
theorem witness_ResultRegistersHaveTheirCommands_noPinErr :
    let s : State := { start [bad 5#32] with cfg := { cfg with pinCanFail := false } }
    s.resets = [] ∧ s.accepted ∧ (∃ t, exec .releaseBus s = .next t) ∧ s.cfg.pinCanFail = false :=
  ⟨rfl, ⟨rfl, rfl, rfl, rfl⟩, ⟨_, rfl⟩, rfl⟩

theorem witness_FailedCommandKeepsResults :
    (start [bad 5#32]).resets = [] ∧ (start [bad 5#32]).accepted ∧
      ∃ t, exec .senseHigh (start [bad 5#32]) = .next t ∧ t.regs.err ≠ .none :=
  ⟨rfl, ⟨rfl, rfl, rfl, rfl⟩, _, rfl, by decide⟩

theorem witness_HostCannotDisturbACommand : (start [hi]).resets = [] := rfl

theorem witness_HiddenRegistersDoNotSurvive :
    let h : Hidden := { Hidden.reset with i := 5, sh := 0x77#8, r0 := true, wAddr := 3#64, pres := true, tmr := 9 }
    (start [hi]).hid.presV = false ∧ h.presV = false ∧ h.drv = (start [hi]).hid.drv ∧ h ≠ (start [hi]).hid := by decide

/-- A drive request, and WAIT_HIGH with the error in the expiry cycle. -/
theorem witness_PinErrorEndsTheCommand :
    (running [.pin .driveLow, .wait 6] [bad 5#32]).quiet ∧ (bad 5#32).fault cfg = some 5#32 ∧
      (running [.pin .driveLow, .wait 6] [bad 5#32]).seq = .run (.pin .driveLow :: [.wait 6]) ∧
      (running [.pin .driveLow, .wait 6] [bad 5#32]).port.draws = bad 5#32 :: [] ∧
      ({ bad 5#32 with delay := 250 } : PinDraw).fault cfg = some 5#32 ∧ 250 ≤ 250 * cfg.ticksPerUs :=
  ⟨⟨rfl, rfl⟩, by decide, rfl, rfl, by decide, by decide⟩

/-- A request that is answered, one that never is, and one that a block reset cuts off (ACT_LAT = 3); a wait. -/
theorem witness_TraceListsWhatIsIssued :
    let s (m : Micro) (ds : List PinDraw) (rs : List Nat) : State :=
      { running [m, .finish .nothing] ds with resets := rs, cfg := { cfg with actLat := 3 } }
    (s (.pin .driveLow) [hi] []).seq = .run (.pin .driveLow :: [.finish .nothing]) ∧
      (seqStep (s (.pin .driveLow) [hi] [])).port.trace = [.pin .driveLow .ok] ∧
      (seqStep (s (.pin .driveLow) [] [])).port.trace = [.issued .driveLow] ∧
      (seqStep (s (.pin .driveLow) [hi] [2])).port.trace =
        [.issued .driveLow, .blockReset (some (.pin .driveLow))] ∧
      (seqStep (s (.wait 6) [] [])).port.trace = [.wait 6] := by decide

/-- The issue of the request. -/
theorem witness_SilentPortHoldsTheEngine_issue :
    let s := running [.pin .isHigh, .finish .rxBit] []
    s.seq = .run (.pin .isHigh :: [.finish .rxBit]) ∧ PinReq.isHigh ≠ .waitHigh ∧ s.port.draws = [] := by decide

/-- The host does nothing, waits, reads, and writes at both ends of each range of words. -/
theorem witness_SilentPortHoldsTheEngine :
    let s (queue : List Input) : State :=
      { waiting .isHigh [.finish .rxBit] with host := { queue := queue, reads := [] } }
    (s []).seq = .await .isHigh [.finish .rxBit] ∧ (s []).resets = [] ∧ (s []).host.queue = [] ∧
      (s [⟨.whenIdle, .read 0x04#6⟩]).host.queue = ⟨.whenIdle, .read 0x04#6⟩ :: [] ∧
      (s [⟨.atCycle 3, .read 0x04#6⟩]).host.queue = ⟨.atCycle 3, .read 0x04#6⟩ :: [] ∧
      (∀ off : Offset, (s [⟨.atCycle 3, .write off 0x12#32⟩]).host.queue = ⟨.atCycle 3, .write off 0x12#32⟩ :: []) ∧
      (∀ off ∈ [0x00#6, 0x14#6, 0x2F#6],
        off.extractLsb' 2 4 = 0x0#4 ∨ 0x5#4 ≤ off.extractLsb' 2 4 ∧ off.extractLsb' 2 4 ≤ 0xB#4) ∧
      (0x04#6).extractLsb' 2 4 = 0x1#4 ∧ (0x0B#6).extractLsb' 2 4 = 0x2#4 ∧
      (∀ off ∈ [0x0C#6, 0x13#6, 0x30#6, 0x3F#6],
        off.extractLsb' 2 4 = 0x3#4 ∨ off.extractLsb' 2 4 = 0x4#4 ∨ 0xC#4 ≤ off.extractLsb' 2 4) :=
  ⟨rfl, rfl, rfl, rfl, rfl, fun _ => rfl, by decide, by decide, by decide, by decide⟩

/-- Each word falls under one clause of the writes, and under one only. -/
theorem witness_SilentPortHoldsTheEngine_disjoint :
    ∀ w : BitVec 4,
      ([decide (w = 0x0#4 ∨ 0x5#4 ≤ w ∧ w ≤ 0xB#4), decide (w = 0x1#4), decide (w = 0x2#4),
        decide (w = 0x3#4 ∨ w = 0x4#4 ∨ 0xC#4 ≤ w)].filter id).length = 1 := by decide

theorem witness_DrivenLineReadsLow : hi.fault cfg = none := by decide

/-- Idle and held, with an access due in the very cycle of the reset, which comes after it. -/
theorem witness_BlockResetRestoresTheResetValues :
    let host : HostSide := { queue := [⟨.atCycle 5, .write 0x00#6 0x06#32⟩], reads := [] }
    let s : State := { start [] with resets := [5, 9], host := host }
    let u : State := { waiting .isHigh [.finish .rxBit] with resets := [5], host := host }
    (s.resets = 5 :: [9] ∧ s.seq = .idle ∧ ∀ inp queue, s.host.queue = inp :: queue → 5 ≤ inp.due.cycle s.now) ∧
      (u.resets = 5 :: [] ∧ u.held = true ∧
        ∀ c op queue, u.host.queue = ⟨.atCycle c, op⟩ :: queue → 5 ≤ max u.now c) := by
  refine ⟨⟨rfl, rfl, ?_⟩, rfl, rfl, ?_⟩
  · intro inp queue h
    rw [← (List.cons.inj h).1]
    decide
  · intro c op queue h
    have h' := (List.cons.inj h).1
    injection h' with h1 _
    injection h1 with h2
    subst h2
    decide

/-- The last cycle of a wait, of a request with ACT_LAT = 3, of a WAIT_HIGH that is answered with high or with an error
and of one that is not; the end cycle. -/
theorem witness_BlockResetRestoresTheResetValues_running :
    let p : Params := { cfg with actLat := 3 }
    let run (m : Micro) (ds : List PinDraw) (r : Nat) : State :=
      { running [m, .finish .nothing] ds with resets := [r], cfg := p }
    let d : PinDraw := { err := none, high := true, delay := 10 }
    5 < (run (.wait 6) [] 5).now + 6 * p.ticksPerUs ∧
      PinReq.driveLow ≠ .waitHigh ∧ 2 < (run (.pin .driveLow) [hi] 2).now + p.actLat ∧
      d.fault p = none ∧ d.idlesHigh p ∧ (run (.pin .waitHigh) [d] 12).hid.drv = false ∧
      12 < (run (.pin .waitHigh) [d] 12).now + d.delay + p.actLat ∧
      (bad 5#32).fault p ≠ none ∧ (bad 5#32).delay ≤ 250 * p.ticksPerUs ∧
      (run (.pin .waitHigh) [lo] 252).missesHigh ∧
      252 < (run (.pin .waitHigh) [lo] 252).now + 250 * p.ticksPerUs + p.actLat ∧
      0 ≤ (run (.raise .busNotHigh) [] 0).now :=
  ⟨by decide, by decide, by decide, by decide, ⟨rfl, by decide⟩, rfl, by decide, by decide, by decide,
    .inr ⟨_, _, rfl, .inr ⟨by decide, .inl rfl⟩⟩, by decide, by decide⟩

/-- Beside a SEARCH's commit: a read, and a write to CMD and to each end of the operand registers. -/
theorem witness_EndCycleAccessesSeeTheStateBefore :
    let s (op : HostOp) : State :=
      { running [.finish .searchState] [] with host := { queue := [⟨.atCycle 0, op⟩], reads := [] } }
    (s (.read 0x04#6)).seq = .run (.finish .searchState :: []) ∧ (s (.read 0x04#6)).resets = [] ∧
      (s (.read 0x04#6)).host.queue = [⟨.atCycle (s (.read 0x04#6)).now, .read 0x04#6⟩] ∧
      ∀ off ∈ [0x00#6, 0x14#6, 0x1C#6, 0x20#6, 0x28#6, 0x2C#6, 0x2F#6],
        (s (.write off 0x06#32)).host.queue = [⟨.atCycle 0, .write off 0x06#32⟩] ∧
        (off.extractLsb' 2 4 = 0x0#4 ∨ 0x5#4 ≤ off.extractLsb' 2 4 ∧ off.extractLsb' 2 4 ≤ 0xB#4) := by decide

/-- Nothing to come; a read; a write to STATUS and one at the last word, each with a block reset in the next cycle. -/
theorem witness_IdleEngineIssuesNoRequest :
    let s (op : HostOp) : State :=
      { start [hi] with host := { queue := [⟨.atCycle 5, op⟩], reads := [] }, resets := [6] }
    ((start []).seq = .idle ∧ (start []).host.queue = [] ∧ (start []).resets = []) ∧
      ∀ op ∈ [.read 0x00#6, .write 0x04#6 0x12#32, .write 0x3F#6 0x00#32],
        (s op).seq = .idle ∧ (s op).host.queue = ⟨.atCycle 5, op⟩ :: [] ∧
        (s op).resetBy (Due.cycle (s op).now (.atCycle 5)) = none ∧
        (op = .read 0x00#6 ∨ (0x04#6).extractLsb' 2 4 ≠ 0x0#4 ∧ (0x3F#6).extractLsb' 2 4 ≠ 0x0#4) := by decide

/-- The hypotheses of the statements about a command of one request, in both clauses, with the line high and low. -/
def oneRequestHyps : Prop :=
  (∀ d ∈ [hi, lo, bad 5#32], (start [d]).ready ∧ (start [d]).port.draws = d :: []) ∧
    hi.fault cfg = none ∧ lo.fault cfg = none ∧ (bad 5#32).fault cfg = some 5#32

theorem oneRequestHyps_hold : oneRequestHyps :=
  ⟨fun _ _ => ⟨start_ready _, rfl⟩, by decide, by decide, by decide⟩

theorem witness_ReleaseBusReleasesTheLine : oneRequestHyps := oneRequestHyps_hold
theorem witness_DriveLowDrivesTheLine : oneRequestHyps := oneRequestHyps_hold
theorem witness_SenseHighReportsTheLevel : oneRequestHyps := oneRequestHyps_hold
theorem witness_SenseLowReportsTheLevel : oneRequestHyps := oneRequestHyps_hold

/-- At the end of the window. -/
theorem witness_WaitHighSucceedsWithinTheWindow :
    let d : PinDraw := { err := none, high := true, delay := 250 }
    (start [d]).ready ∧ (start [d]).port.draws = d :: [] ∧ d.fault cfg = none ∧ d.idlesHigh cfg ∧
      (start [d]).hid.drv = false :=
  ⟨start_ready _, rfl, by decide, ⟨rfl, by decide⟩, rfl⟩

/-- A silent port; a cycle after the window; a line that stays low; a line the engine drives. -/
theorem witness_WaitHighTimesOut :
    (start []).ready ∧ (start []).missesHigh ∧
      (start [{ err := none, high := true, delay := 251 }]).missesHigh ∧ (start [lo]).missesHigh ∧
      (driven [hi]).missesHigh :=
  ⟨start_ready _, .inl rfl, .inr ⟨_, _, rfl, .inl (by decide)⟩,
    .inr ⟨_, _, rfl, .inr ⟨by decide, .inl rfl⟩⟩, .inr ⟨_, _, rfl, .inr ⟨by decide, .inr rfl⟩⟩⟩

theorem hi_idles : hi.idlesHigh cfg := ⟨rfl, by decide⟩

theorem allOk_replicate (n : Nat) : allOk cfg (List.replicate n hi) := by
  intro d hd
  rw [List.eq_of_mem_replicate hd]
  decide

theorem witness_ResetSamplesPresence :
    (start [hi, hi, hi, lo]).ready ∧ (start [hi, hi, hi, lo]).port.draws = hi :: hi :: hi :: lo :: [] ∧
      allOk cfg [hi, hi, hi, lo] ∧ hi.idlesHigh cfg ∧ (start [hi, hi, hi, lo]).hid.drv = false :=
  ⟨start_ready _, rfl, by unfold allOk; decide, hi_idles, rfl⟩

/-- Each of the three commands; SEARCH.R with a search state. -/
theorem witness_ResetSequenceOnALowLineFails :
    let s : State := { start [lo] with regs := { Regs.reset with sdisc := 8#64, sldi := 3#6 } }
    s.ready ∧ s.missesHigh ∧ Instr.reset = .reset ∧ (∃ b m, Instr.sendCommand 1#8 true = .sendCommand b m) ∧
      ∃ r a, Instr.search true false = .search r a ∧ (r = true → s.regs.sdisc ≠ 0#64) :=
  ⟨⟨⟨rfl, rfl⟩, rfl, rfl, rfl, rfl⟩, .inr ⟨_, _, rfl, .inr ⟨by decide, .inl rfl⟩⟩, rfl, ⟨_, _, rfl⟩, _, _, rfl,
    fun _ => by decide⟩

theorem witness_ReadBitReturnsTheSample :
    (start [hi, hi, lo]).ready ∧ (start [hi, hi, lo]).port.draws = hi :: hi :: lo :: [] ∧ allOk cfg [hi, hi, lo] :=
  ⟨start_ready _, rfl, by unfold allOk; decide⟩

theorem witness_WriteBitSendsOneSlot :
    (start [hi, hi]).ready ∧ (start [hi, hi]).port.draws = hi :: hi :: [] ∧ allOk cfg [hi, hi] :=
  ⟨start_ready _, rfl, by unfold allOk; decide⟩

/-- V-B5: the byte 0x28. -/
theorem witness_ReadByteAssemblesLsbFirst :
    let ds := echoDraws [false, false, false, true, false, true, false, false]
    (start ds).ready ∧ (start ds).port.draws = ds ++ [] ∧ ds.length = 24 ∧ allOk cfg ds ∧
      ∀ k, k < 8 → (0x28#8).getLsbD k = (drawAt ds (3 * k + 2)).high :=
  ⟨start_ready _, rfl, rfl, by unfold allOk; decide, by decide⟩

theorem witness_WriteByteSendsLsbFirst :
    let ds := List.replicate 16 hi
    (start ds).ready ∧ (start ds).port.draws = ds ++ [] ∧ ds.length = 16 ∧ allOk cfg ds :=
  ⟨start_ready _, rfl, rfl, allOk_replicate 16⟩

theorem witness_LoopbackReturnsTheByte :
    let ds := List.replicate 16 hi
    (start ds).ready ∧ (start ds).port.draws = ds ∧ ds.length = 16 ∧ allOk cfg ds ∧
      ∃ t, exec (.writeByte 0xA5#8) (start ds) = .next t ∧
        (start (echoDraws (slotBits (t.port.trace.drop (start ds).port.trace.length)))).ready :=
  ⟨start_ready _, rfl, rfl, allOk_replicate 16, _, rfl, start_ready _⟩

theorem witness_MatchRomSendsTheAddress :
    let ds := List.replicate 144 hi
    (start ds).ready ∧ (start ds).port.draws = ds ++ [] ∧ ds.length = 144 ∧ allOk cfg ds :=
  ⟨start_ready _, (List.append_nil _).symm, by simp, allOk_replicate 144⟩

theorem witness_SkipRomSendsTheSkipByte :
    let ds := List.replicate 16 hi
    (start ds).ready ∧ (start ds).port.draws = ds ++ [] ∧ ds.length = 16 ∧ allOk cfg ds :=
  ⟨start_ready _, rfl, rfl, allOk_replicate 16⟩

/-- With and without a match. -/
theorem witness_SendCommandSelectsAndSends (m : Bool) :
    let ds := List.replicate (if m then 164 else 36) hi
    (start ds).ready ∧ (start ds).port.draws = ds ++ [] ∧ ds.length = (if m then 164 else 36) ∧ allOk cfg ds ∧
      (drawAt ds 0).idlesHigh cfg ∧ (start ds).hid.drv = false :=
  ⟨start_ready _, (List.append_nil _).symm, by simp, allOk_replicate _, by cases m <;> exact hi_idles, rfl⟩

theorem witness_ExhaustedSearchReturnsNone : (start []).ready ∧ (start []).regs.sdisc = 0#64 := ⟨start_ready _, rfl⟩

/-- Fresh, and resumed from a search state. -/
theorem witness_SearchOnAnEmptyBusReturnsNone :
    let s : State := { start [hi, hi, hi, hi] with regs := { Regs.reset with sdisc := 8#64, sldi := 3#6 } }
    s.ready ∧ s.regs.sdisc ≠ 0#64 ∧ s.port.draws = hi :: hi :: hi :: hi :: [] ∧ allOk cfg [hi, hi, hi, hi] ∧
      hi.idlesHigh cfg ∧ s.hid.drv = false ∧ hi.high = true :=
  ⟨⟨⟨rfl, rfl⟩, rfl, rfl, rfl, rfl⟩, by decide, rfl, allOk_replicate 4, hi_idles, rfl, rfl⟩

/-! The four devices of 95_test_vectors.md section 2, and V-S3. -/

/-- Address A. -/
def devA : Rom := 0x2900000000000128#64
/-- Address B. -/
def devB : Rom := 0x7000000000000228#64
/-- Address C. -/
def devC : Rom := 0xCC00000000000110#64
/-- Address D. -/
def devD : Rom := 0xA200000001B81C02#64
/-- The address E, with a bad checksum. -/
def devE : Rom := 0x0000000000000128#64
/-- The four devices. -/
def devs : List Rom := [devA, devB, devC, devD]

/-- V-S3, pass 1: the draws of the bus lead to C, SDISC 0xA, SLDI 3. -/
theorem test_pass_fresh :
    searchPass false 0#64 0#64 0 (respAt (busPass devs devC)) = some ⟨devC, 0xA#64, 3#6⟩ := by decide +kernel
/-- V-S3, pass 2: from C, SEARCH.R leads to B, SDISC 0x102, SLDI 8. -/
theorem test_pass_resumed :
    searchPass true devC 0xA#64 3 (respAt (busPass devs devB)) = some ⟨devB, 0x102#64, 8#6⟩ := by decide +kernel
/-- V-S6: after B on the bus of A and B, with A removed, SEARCH.R meets an unexpected response. -/
theorem test_pass_removed : searchPass true devB 0x100#64 8 (respAt (busPass [devB] devB)) = none := by decide +kernel

theorem allOk_busPass (ds : List Rom) (a : Rom) : allOk cfg (busPass ds a) := by
  have key : ∀ b, (PinDraw.level b).fault cfg = none := by decide
  intro d hd
  simp only [busPass, busDraws, List.mem_append, List.mem_cons, List.not_mem_nil, List.mem_replicate,
    List.mem_flatMap] at hd
  rcases hd with ((h | h | h | h | h) | ⟨-, h⟩) | ⟨i, -, h⟩
  · exact h ▸ key _
  · exact h ▸ key _
  · exact h ▸ key _
  · exact h ▸ key _
  · exact absurd h id
  · exact h ▸ key _
  · rcases h with h | h | h | h | h | h | h | h | h
    all_goals first | exact h ▸ key _ | exact absurd h id

/-- V-S3: a fresh pass. -/
theorem witness_SearchFindsAnAddress :
    let ds := busPass devs devC
    (start ds).ready ∧ (false = true → (start ds).regs.sdisc ≠ 0#64) ∧ (start ds).port.draws = ds ++ [] ∧
      ds.length = 532 ∧ allOk cfg ds ∧ (drawAt ds 0).idlesHigh cfg ∧ (start ds).hid.drv = false ∧
      (drawAt ds 3).high = false ∧
      searchPass false (start ds).regs.saddr (start ds).regs.sdisc (start ds).regs.sldi.toNat (respAt ds) =
        some ⟨devC, 0xA#64, 3#6⟩ ∧
      crcValid cfg devC = true :=
  ⟨start_ready _, by decide, (List.append_nil _).symm, by decide +kernel, allOk_busPass _ _, ⟨rfl, by decide⟩, rfl, rfl,
    test_pass_fresh, by decide +kernel⟩

/-- V-S3: a resumed pass. -/
theorem witness_SearchFindsAnAddress_resumed :
    let ds := busPass devs devB
    let s : State := { start ds with regs := { Regs.reset with saddr := devC, sdisc := 0xA#64, sldi := 3#6 } }
    s.ready ∧ (true = true → s.regs.sdisc ≠ 0#64) ∧ s.port.draws = ds ++ [] ∧ ds.length = 532 ∧ allOk cfg ds ∧
      (drawAt ds 0).idlesHigh cfg ∧ s.hid.drv = false ∧ (drawAt ds 3).high = false ∧
      searchPass true s.regs.saddr s.regs.sdisc s.regs.sldi.toNat (respAt ds) = some ⟨devB, 0x102#64, 8#6⟩ ∧
      crcValid cfg devB = true :=
  ⟨⟨⟨rfl, rfl⟩, rfl, rfl, rfl, rfl⟩, by decide, (List.append_nil _).symm, by decide +kernel, allOk_busPass _ _,
    ⟨rfl, by decide⟩, rfl, rfl, test_pass_resumed, by decide +kernel⟩

/-- V-S8: the bus of E alone. -/
theorem witness_SearchDiscardsABadChecksum :
    let ds := busPass [devE] devE
    (start ds).ready ∧ (false = true → (start ds).regs.sdisc ≠ 0#64) ∧ (start ds).port.draws = ds ++ [] ∧
      ds.length = 532 ∧ allOk cfg ds ∧ (drawAt ds 0).idlesHigh cfg ∧ (start ds).hid.drv = false ∧
      (drawAt ds 3).high = false ∧
      searchPass false (start ds).regs.saddr (start ds).regs.sdisc (start ds).regs.sldi.toNat (respAt ds) =
        some ⟨devE, 0#64, 0#6⟩ ∧
      crcValid cfg devE = false :=
  ⟨start_ready _, by decide, (List.append_nil _).symm, by decide +kernel, allOk_busPass _ _, ⟨rfl, by decide⟩, rfl, rfl,
    by decide +kernel, by decide +kernel⟩

/-- The hypotheses on the draws of a pass that fails at position i, and those on the responses. -/
def failHyps (s : State) (resume : Bool) (ds : List PinDraw) (i : Nat) (b : Rom) : Prop :=
  s.port.draws = ds ++ [] ∧ i < 64 ∧ ds.length = 26 + 8 * i ∧ allOk s.cfg ds ∧ (drawAt ds 0).idlesHigh s.cfg ∧
    s.hid.drv = false ∧ (drawAt ds 3).high = false ∧
    bitsUpTo resume s.regs.saddr s.regs.sdisc s.regs.sldi.toNat (respAt ds) i = some b ∧
    unexpectedAt resume s.regs.sldi.toNat (respAt ds) i

/-- V-S10, the first position: the devices vanish after the presence. -/
theorem witness_SearchFailsOnAnUnexpectedResponse :
    let ds := [hi, hi, hi, lo] ++ List.replicate 22 hi
    (start ds).ready ∧ failHyps (start ds) false ds 0 0#64 :=
  ⟨start_ready _, rfl, by decide, rfl, by unfold allOk; decide, ⟨rfl, by decide⟩, rfl, rfl, by decide +kernel,
    by unfold unexpectedAt; decide +kernel⟩

/-- The last position: the device A vanishes before it. -/
theorem witness_SearchFailsOnAnUnexpectedResponse_last :
    let ds := (busPass [devA] devA).take 524 ++ List.replicate 6 hi
    (start ds).ready ∧ failHyps (start ds) false ds 63 devA :=
  ⟨start_ready _, (List.append_nil _).symm, by decide, by decide +kernel, by unfold allOk; decide +kernel,
    ⟨by decide +kernel, by decide +kernel⟩, rfl, by decide +kernel, by decide +kernel,
    by unfold unexpectedAt; decide +kernel⟩

/-- V-S6, at L = 8: a device removed between two passes. -/
theorem witness_SearchFailsOnAnUnexpectedResponse_at_L :
    let ds := (busPass [devB] devB).take 90
    let s : State := { start ds with regs := { Regs.reset with saddr := devB, sdisc := 0x100#64, sldi := 8#6 } }
    s.ready ∧ s.regs.sdisc ≠ 0#64 ∧ failHyps s true ds 8 devB :=
  ⟨⟨⟨rfl, rfl⟩, rfl, rfl, rfl, rfl⟩, by decide, (List.append_nil _).symm, by decide, by decide +kernel,
    by unfold allOk; decide +kernel, ⟨by decide +kernel, by decide +kernel⟩, rfl, by decide +kernel,
    by decide +kernel, by unfold unexpectedAt; decide +kernel⟩

/-- Above L = 0 of a resumed pass: both respond at 0, none at 1. -/
theorem witness_SearchFailsOnAnUnexpectedResponse_above_L :
    let ds := [hi, hi, hi, lo] ++ List.replicate 16 hi ++ [hi, hi, lo, hi, hi, lo, hi, hi] ++ List.replicate 6 hi
    let s : State := { start ds with regs := { Regs.reset with sdisc := 1#64 } }
    s.ready ∧ s.regs.sdisc ≠ 0#64 ∧ failHyps s true ds 1 1#64 :=
  ⟨⟨⟨rfl, rfl⟩, rfl, rfl, rfl, rfl⟩, by decide, (List.append_nil _).symm, by decide, by decide,
    by unfold allOk; decide +kernel, ⟨rfl, by decide⟩, rfl, rfl, by decide +kernel,
    by unfold unexpectedAt; decide +kernel⟩

theorem searchStateOk_of {disc : Rom} {ldi : BitVec 6} (h : disc.getLsbD ldi.toNat = true)
    (h' : ∀ j, j < 64 → ldi.toNat < j → disc.getLsbD j = false) (h0 : disc ≠ 0#64) : searchStateOk disc ldi :=
  ⟨fun _ => ⟨h, fun j hj => by
    by_cases hl : j < 64
    · exact h' j hl hj
    · exact BitVec.getLsbD_of_ge _ _ (by omega)⟩, fun e => absurd e h0⟩

/-- V-S3: the pass from reset ends Found (by the lemmas of Laws/Search.lean, not by evaluation). -/
theorem witness_FoundKeepsTheSearchStateInvariant :
    let s := start (busPass devs devC)
    s.accepted ∧ s.resets = [] ∧ (false = true → searchStateOk s.regs.sdisc s.regs.sldi) ∧
      ∃ t, exec (.search false false) s = .next t ∧ t.regs.found = true := by
  refine ⟨⟨rfl, rfl, rfl, rfl⟩, rfl, fun h => (by cases h), _, rfl, ?_⟩
  obtain ⟨hr, hx, hd, hl, hok, hi, hv, hp3, hp, hc⟩ := witness_SearchFindsAnAddress
  obtain ⟨h', -, -, -, hw, -, -, hrun⟩ := run_pass hr.1 false false _ [] _ hx hl hok hi hv hp3 hp 2690
  rw [State.runCommand, start_moved, hd, show stepBound = 2690 + 1406 from rfl, hrun,
    show 2690 = 2688 + 1 + 1 from rfl, run_act]
  have hc' : crcValid (start (busPass devs devC)).cfg h'.wAddr = true := by rw [hw]; exact hc
  simp only [Act.next, Act.hid, moved_hid, moved_cfg, hc', if_true, List.append_nil]
  rw [run_finish hr.1]
  rfl

/-- A resumed start: the search state V-S3 leaves after pass 1 meets R48. -/
theorem witness_FoundKeepsTheSearchStateInvariant_resumed : searchStateOk 0xA#64 3#6 :=
  searchStateOk_of (by decide) (by decide) (by decide)

/-- The order of V-S3: C, B, A, D, each told by the first position in which the two differ. -/
theorem order_CBAD :
    txBefore devC devB ∧ txBefore devC devA ∧ txBefore devC devD ∧ txBefore devB devA ∧ txBefore devB devD ∧
      txBefore devA devD :=
  ⟨⟨3, by decide⟩, ⟨3, by decide⟩, ⟨1, by decide⟩, ⟨8, by decide⟩, ⟨1, by decide⟩, ⟨1, by decide⟩⟩

theorem txBefore_irrefl (a : Rom) : ¬txBefore a a := by
  rintro ⟨i, -, -, h0, h1⟩
  rw [h0] at h1
  cases h1

/-- V-S3, pass 1. -/
theorem witness_FreshSearchFindsTheFirstDevice :
    let s := start (busPass devs devC)
    s.ready ∧ s.hid.drv = false ∧ devC ∈ devs ∧ (∀ d ∈ devs, d = devC ∨ txBefore devC d) ∧
      crcValid s.cfg devC = true ∧ s.port.draws = busPass devs devC ++ [] := by
  refine ⟨start_ready _, rfl, by decide, ?_, by decide +kernel, (List.append_nil _).symm⟩
  obtain ⟨h1, h2, h3, -⟩ := order_CBAD
  intro d hd
  simp only [devs, List.mem_cons, List.not_mem_nil, or_false] at hd
  rcases hd with rfl | rfl | rfl | rfl
  · exact .inr h2
  · exact .inr h1
  · exact .inl rfl
  · exact .inr h3

/-- V-S3, pass 2. -/
theorem witness_ResumedSearchFindsTheNextDevice :
    let s : State :=
      { start (busPass devs devB) with regs := { Regs.reset with saddr := devC, sdisc := 0xA#64, sldi := 3#6 } }
    s.ready ∧ s.hid.drv = false ∧ s.regs.saddr ∈ devs ∧ discOf devs s.regs.saddr s.regs.sdisc ∧
      searchStateOk s.regs.sdisc s.regs.sldi ∧ devB ∈ devs ∧ txBefore s.regs.saddr devB ∧
      (∀ d ∈ devs, txBefore s.regs.saddr d → d = devB ∨ txBefore devB d) ∧ crcValid s.cfg devB = true ∧
      s.port.draws = busPass devs devB ++ [] := by
  obtain ⟨h1, h2, h3, h4, h5, h6⟩ := order_CBAD
  refine ⟨⟨⟨rfl, rfl⟩, rfl, rfl, rfl, rfl⟩, rfl, by decide, ?_, witness_FoundKeepsTheSearchStateInvariant_resumed,
    by decide, h1, ?_, by decide +kernel, (List.append_nil _).symm⟩
  · unfold discOf
    decide +kernel
  · intro d hd hb
    simp only [devs, List.mem_cons, List.not_mem_nil, or_false] at hd
    rcases hd with rfl | rfl | rfl | rfl
    · exact .inr h4
    · exact .inl rfl
    · exact absurd hb (txBefore_irrefl _)
    · exact .inr h5

/-- V-S3: the whole enumeration. -/
theorem witness_SearchAllListsEveryDeviceInOrder :
    let ds : List Rom := [devC, devB, devA, devD]
    let s := start (ds.flatMap (busPass ds))
    s.seq = .idle ∧ s.quiet ∧ s.hid.drv = false ∧ ds ≠ [] ∧ ds.Pairwise txBefore ∧
      (∀ a ∈ ds, crcValid s.cfg a = true) ∧ s.port.draws = ds.flatMap (busPass ds) ++ [] := by
  obtain ⟨h1, h2, h3, h4, h5, h6⟩ := order_CBAD
  refine ⟨rfl, ⟨rfl, rfl⟩, rfl, by simp, ?_, ?_, (List.append_nil _).symm⟩
  · simp only [List.pairwise_cons, List.mem_cons, List.not_mem_nil, or_false, forall_eq_or_imp, forall_eq]
    exact ⟨⟨h1, h2, h3⟩, ⟨h4, h5⟩, h6, fun _ h => h.elim, .nil⟩
  · have hc : ∀ a, a = devC ∨ a = devB ∨ a = devA ∨ a = devD → crcValid cfg a = true := by
      rintro a (rfl | rfl | rfl | rfl) <;> decide +kernel
    intro a ha
    exact hc a (by simpa using ha)

theorem witness_DefaultChecksumValues : cfg.crc = .dallas := rfl

theorem witness_IllegalCommandsEndAtOnce :
    (start [hi]).ready ∧ (Instr.illegalRsvd 1#16 0#12 0x6#4).isIllegal = true ∧
      (Instr.illegalOp0 5#28).isIllegal = true ∧ (Instr.illegalOpF 0#28).isIllegal = true :=
  ⟨start_ready _, rfl, rfl, rfl⟩

/-- Both clauses; failures at the first request, at the last one of a byte, and in the second byte. -/
theorem witness_WriteBytesSendsInOrder :
    let vs : List Byte := [0xCC#8, 0x44#8]
    let ds := List.replicate 32 hi
    (start ds).seq = .idle ∧ (start ds).quiet ∧ (start ds).regs.err = .none ∧ (start ds).port.draws = ds ++ [] ∧
      ds.length = 16 * vs.length ∧ allOk cfg ds ∧ (bad 5#32).fault cfg = some 5#32 ∧
      ∀ n ∈ [0, 15, 17, 31],
        (start (List.replicate n hi ++ bad 5#32 :: [hi])).port.draws = List.replicate n hi ++ bad 5#32 :: [hi] ∧
        (List.replicate n hi).length < 16 * vs.length ∧ allOk cfg (List.replicate n hi) :=
  ⟨rfl, ⟨rfl, rfl⟩, rfl, (List.append_nil _).symm, by decide, allOk_replicate 32, by decide, fun n hn =>
    ⟨rfl, by rw [List.length_replicate]; revert n hn; decide, allOk_replicate n⟩⟩

/-- Both clauses; P-2: the bytes 0x50 and 0x05; failures at the first and at the last request of the next byte. -/
theorem witness_ReadBytesKeepsWhatWasRead :
    let vs : List Byte := [0x50#8, 0x05#8]
    let ds := vs.flatMap fun v => echoDraws ((List.range 8).map v.getLsbD)
    (start ds).seq = .idle ∧ (start ds).quiet ∧ (start ds).port.draws = ds ++ [] ∧ vs.length < 3 ∧
      (bad 5#32).fault cfg = some 5#32 ∧
      ∀ n ∈ [0, 23],
        (start (ds ++ List.replicate n hi ++ bad 5#32 :: [])).port.draws =
            ds ++ List.replicate n hi ++ bad 5#32 :: [] ∧
        (List.replicate n hi).length < 24 ∧ allOk cfg (List.replicate n hi) :=
  ⟨rfl, ⟨rfl, rfl⟩, (List.append_nil _).symm, by decide, by decide, fun n hn =>
    ⟨rfl, by rw [List.length_replicate]; revert n hn; decide, allOk_replicate n⟩⟩

end Sys2Proof.Tests
end

section
/-!
PROOFS. The statements of 00_scope.md: a pin error ends the command (R14), and the pin trace lists what is issued (R17).
-/

namespace Sys2Proof.Machine

/-! ## A request answered with an error (R14, 60_exceptions.md R271, R275) -/

/-- A draw with an error answers every request with it; WAIT_HIGH only by the expiry, its cycle included (R279). -/
theorem answer_of_fault {d : PinDraw} {p : Params} {c : Word} {r : PinReq} (h : d.fault p = some c) (drv : Bool)
    (hw : r = .waitHigh → d.delay ≤ timeoutCycles p) : d.answer p drv r = .err c := by
  by_cases hr : r = .waitHigh
  · subst hr
    simp [PinDraw.answer, PinDraw.waitAnswer, h, hw rfl]
  · exact fault_answer h drv r hr

@[simp] theorem drvAfter_err (r : PinReq) (c : Word) (drv : Bool) : drvAfter r (.err c) drv = drv := by
  cases r <;> rfl

/-- A state whose next step is known is the state that a quiet run reaches with no step taken. -/
theorem eq_moved {s : State} {l : List Micro} {ds : List PinDraw} (hs : s.seq = .run l) (hd : s.port.draws = ds) :
    s = s.moved l s.hid [] ds 0 := by
  have hl : ({ s with seq := .run l } : State) = s := by rw [← hs]
  rw [← hd, ← start_moved, hl]

/-- The two steps that a request answered with an error takes: the answer, and `raise` in place of the rest. -/
theorem seqStep_seqStep_of_err {s : State} {r : PinReq} {rest : List Micro} {d : PinDraw} {ds : List PinDraw}
    {c : Word} (hq : s.quiet) (hs : s.seq = .run (.pin r :: rest)) (hd : s.port.draws = d :: ds)
    (ha : d.answer s.cfg s.hid.drv r = .err c) :
    ∃ tmr n, seqStep (seqStep s) = s.failed { s.hid with tmr := tmr } c [.pin r (.err c)] ds n := by
  have h1 : ∃ tmr n, seqStep s =
      s.moved [.raise (.pinFailure c)] { s.hid with tmr := tmr } [.pin r (.err c)] ds n := by
    have hstep := step_pin (rest := rest) (h := s.hid) (evs := []) (ds := d :: ds) (n := 0) hq r (.inr (by simp))
    simp only [← eq_moved hs hd, List.headD_cons, ha, stepAfter, drvAfter_err, bitAfter] at hstep
    exact ⟨_, _, hstep⟩
  obtain ⟨tmr, n, h1⟩ := h1
  exact ⟨tmr, n + 1, by rw [h1, step_raise hq]; rfl⟩

/-- Settles O24: the answer puts `raise` in place of the rest of the procedure, and the next step is that `raise`. -/
theorem pinErrorEndsTheCommand : Obligations.PinErrorEndsTheCommand := by
  unfold Obligations.PinErrorEndsTheCommand
  intro s r rest d ds c hq hs hd hf hw
  obtain ⟨tmr, n, h⟩ := seqStep_seqStep_of_err hq hs hd (answer_of_fault hf s.hid.drv hw)
  rw [h]
  exact ⟨rfl, rfl, rfl, rfl⟩

/-! ## What one step adds to the pin trace (R17) -/

/-- What an undisturbed step issues, as the trace lists it: a request with its answer, or with none if the port never
answers it (10_state.md R50), and a wait. -/
def State.issues (s : State) : Micro → List TraceEv
  | .pin r => if s.answers r then [.pin r (s.nextDraw.answer s.cfg s.hid.drv r)] else [.issued r]
  | .wait us => [.wait us]
  | .act _ => []
  | .finish _ => []
  | .raise _ => []

/-- A step that is neither a request nor a wait issues nothing, and leaves a block reset nothing to cut off. -/
theorem issues_begun_nil {m : Micro} (s : State) (rest : List Micro) (hp : ∀ r, m ≠ .pin r) (hw : ∀ us, m ≠ .wait us) :
    s.issues m = [] ∧ (Sequencer.run (m :: rest)).begun = [] := by
  cases m with
  | pin r => exact absurd rfl (hp r)
  | wait us => exact absurd rfl (hw us)
  | act _ | finish _ | raise _ => exact ⟨rfl, rfl⟩

/-- A request that the port never answers is issued, and nothing else happens. -/
theorem seqStep_unanswered {s : State} {r : PinReq} {rest : List Micro} (hs : s.seq = .run (.pin r :: rest))
    (ha : s.answers r = false) : seqStep s = s.awaitAnswer r rest := by
  simp [seqStep, hs, State.pinStep, ha]

/-- The trace after one step: what the step issues; or what a block reset cuts off, and the mark of the reset. -/
theorem seqStep_trace {s : State} {m : Micro} {rest : List Micro} (hs : s.seq = .run (m :: rest)) :
    (seqStep s).port.trace = s.port.trace ++ s.issues m ∨
    (seqStep s).seq = .idle ∧
      (seqStep s).port.trace = s.port.trace ++ s.seq.begun ++ [.blockReset (some m)] := by
  by_cases hu : ∃ r, m = .pin r ∧ s.answers r = false
  · obtain ⟨r, rfl, ha⟩ := hu
    left
    simp [seqStep_unanswered hs ha, State.issues, ha]
  · have hstep := seqStep_cases hs
    generalize seqStep s = u at hstep ⊢
    cases hstep with
    | reset t r h _ ht =>
      have hseq : t.seq = s.seq := h.seq
      exact .inr ⟨rfl, by simp [ht, hseq, hs, Sequencer.current]⟩
    | pin t q w hm h =>
      have ha : s.answers q = true := by simpa using fun e => hu ⟨q, hm, e⟩
      left
      simp [hm, State.issues, ha, h.port]
    | silent q hm hq hd => exact absurd ⟨q, hm, answers_false.2 ⟨hq, hd⟩⟩ hu
    | wait t us hm h => left; simp [hm, State.issues, h.port]
    | act a hm => left; simp [hm, State.issues]
    | finish t c hm h => left; simp [hm, State.issues, h.port]
    | raise t e hm h => left; simp [hm, State.issues, h.port]

/-- Settles O59: an undisturbed step adds what it issues (`seqStep_trace`), and a block reset leaves the request or the
wait it cut off, then its mark. -/
theorem traceListsWhatIsIssued : Obligations.TraceListsWhatIsIssued := by
  unfold Obligations.TraceListsWhatIsIssued
  intro s m rest hs
  rcases seqStep_trace hs with ht | ⟨hi, ht⟩
  · refine ⟨s.issues m, [], by simpa using ht, .inl rfl, ?_, ?_, ?_⟩
    · rintro r rfl
      refine ⟨fun h => ?_, fun _ h => ?_⟩
      · have ha : s.answers r = false := answers_false.2 (h.resolve_left (by simp))
        simp [State.issues, ha]
      · simp [State.issues, answers_of h, State.nextDraw]
    · rintro us rfl
      rfl
    · exact fun hp hw => (issues_begun_nil s rest hp hw).1
  · refine ⟨s.seq.begun, _, ht, .inr ⟨rfl, hi⟩, ?_, ?_, ?_⟩
    · rintro r rfl
      simp [hs]
    · rintro us rfl
      simp [hs]
    · exact fun hp hw => hs ▸ (issues_begun_nil s rest hp hw).2

end Sys2Proof.Machine
end

section
/-!
PROOFS. The statements of 10_state.md: the host registers and what the host's accesses do to them, the invariant of the
machine, and what a command may change.
-/

namespace Sys2Proof.Machine

/-! ## Commands as runs of their procedures (30_encoding.md R114) -/

/-- The procedure a command runs. -/
def procedureOf : Instr → List Micro
  | .releaseBus => procReleaseBus
  | .driveLow => procDriveLow
  | .senseHigh => procSenseHigh
  | .senseLow => procSenseLow
  | .waitHigh => procWaitHigh
  | .reset => procReset
  | .readBit => procReadBit
  | .writeBit b => procWriteBit b
  | .readByte => procReadByte
  | .writeByte byte => procWriteByte byte
  | .matchRom => procMatchRom
  | .skipRom => procSkipRom
  | .sendCommand byte byMatch => procSendCommand byte byMatch
  | .search resume alarm => procSearch resume alarm
  | .illegalOp0 _ => procIllegal
  | .illegalOpF _ => procIllegal
  | .illegalRsvd _ _ _ => procIllegal

/-- The meaning of a command is the run of its procedure. -/
theorem exec_eq (i : Instr) (s : State) : exec i s = .next (s.runCommand (procedureOf i)) := by
  cases i <;> rfl

section seqStep

variable {s : State} {rest : List Micro}

/-! The step of a running command, by the step its pointer names. -/

theorem seqStep_eq_pin {r : PinReq} (hs : s.seq = .run (.pin r :: rest)) : seqStep s = s.pinStep r rest := by
  simp only [seqStep, hs]

theorem seqStep_eq_wait {us : Nat} (hs : s.seq = .run (.wait us :: rest)) : seqStep s = s.waitStep us rest := by
  simp only [seqStep, hs]

theorem seqStep_eq_act {a : Act} (hs : s.seq = .run (.act a :: rest)) : seqStep s = s.runAct a rest := by
  simp only [seqStep, hs]

theorem seqStep_eq_finish {c : Commit} (hs : s.seq = .run (.finish c :: rest)) :
    seqStep s = s.afterCycles endCycles fun t => t.endFinish c := by
  simp only [seqStep, hs]

theorem seqStep_eq_raise {e : CmdError} (hs : s.seq = .run (.raise e :: rest)) :
    seqStep s = s.afterCycles endCycles fun t => t.endRaise e := by
  simp only [seqStep, hs]

end seqStep

/-- What relates two states at the start of their runs, and is kept by their steps, relates them at the end. -/
theorem runSeq_rel (R : State → State → Prop) (hstop : ∀ s u, R s u → u.stopped = s.stopped)
    (hstep : ∀ s u, s.stopped = false → R s u → R (seqStep s) (seqStep u)) (n : Nat) :
    ∀ s u, R s u → R (runSeq n s) (runSeq n u) := by
  induction n with
  | zero => intro s u h; exact h
  | succ n ih =>
    intro s u h
    by_cases hs : s.stopped = true
    · rwa [runSeq_stopped hs, runSeq_stopped ((hstop s u h).trans hs)]
    · have hs' : s.stopped = false := by simpa using hs
      rw [runSeq_succ hs', runSeq_succ ((hstop s u h).trans hs')]
      exact ih _ _ (hstep s u hs' h)

/-! ## The run of a command beside the run with no host access (10_state.md R38, 60_exceptions.md R278) -/

section HostTwin

/-- Two states at the same point of the same command, t with no host access to come and u with any: they differ in what a
host access can change while a command runs. -/
structure HostTwin (t u : State) : Prop where
  quiet : t.quiet
  resets : u.resets = []
  seq : u.seq = t.seq
  hid : u.hid = t.hid
  port : u.port = t.port
  now : u.now = t.now
  cfg : u.cfg = t.cfg
  locked : u.regs.sameLocked t.regs
  done : t.seq = .idle → u.regs.done = t.regs.done

variable {t u : State}


/-- Registers that agree but for DONE, REJ and DONE_IE, as one equation. -/
theorem Regs.sameLocked.eq {a b : Regs} (h : a.sameLocked b) :
    a = { b with done := a.done, rej := a.rej, doneIe := a.doneIe } := by
  obtain ⟨h1, h2, h3, h4, h5, h6, h7, h8, h9, h10, h11⟩ := h
  cases a
  simp_all

/-- Cycles pass in both runs, with the host's accesses in one of them. -/
theorem HostTwin.afterCycles (h : HostTwin t u) (hb : t.busy = true) (n : Nat) (f : State → State)
    (hf : ∀ t' u', HostTwin t' u' → HostTwin (f t') (f u')) :
    HostTwin (t.afterCycles n f) (u.afterCycles n f) := by
  have hbu : u.busy = true := by simpa [State.busy, h.seq] using hb
  have he := elapseTo_effect (u.now + n) u.host.queue u hbu
  rw [afterCycles_quiet h.quiet, afterCycles_noReset h.resets]
  refine hf _ _ ⟨h.quiet, he.resets.trans h.resets, he.seq.trans h.seq, he.hid.trans h.hid, he.port.trans h.port, ?_,
    he.cfg.trans h.cfg, he.locked.trans h.locked, ?_⟩
  · rw [elapseTo_now, h.now]
  · exact fun hi => absurd hb (by simp [busy_idle (s := t) hi])

/-- The end of a command by `finish`, in both runs. -/
theorem HostTwin.endFinish (h : HostTwin t u) (c : Commit) : HostTwin (t.endFinish c) (u.endFinish c) := by
  refine ⟨h.quiet, h.resets, rfl, h.hid, h.port, h.now, h.cfg, ?_, fun _ => rfl⟩
  rw [State.endFinish_regs, State.endFinish_regs, h.hid, h.locked.eq]
  cases c <;> constructor <;> rfl

/-- The end of a command by `raise`, in both runs. -/
theorem HostTwin.endRaise (h : HostTwin t u) (e : CmdError) : HostTwin (t.endRaise e) (u.endRaise e) := by
  refine ⟨h.quiet, h.resets, rfl, h.hid, h.port, h.now, h.cfg, ?_, fun _ => rfl⟩
  rw [State.endRaise_regs, State.endRaise_regs, h.hid, h.locked.eq]
  cases e <;> constructor <;> rfl

/-- An act reads the hidden registers, the parameters and locked registers only. -/
theorem HostTwin.act_eq (h : HostTwin t u) (a : Act) : a.hid u = a.hid t ∧ a.next u = a.next t := by
  have hr : u.resumeAt = t.resumeAt := by simp [State.resumeAt, h.locked.sldi]
  have hd : u.discAt = t.discAt := by funext i; simp [State.discAt, h.locked.sdisc]
  have ha : u.addrAt = t.addrAt := by funext i; simp [State.addrAt, h.locked.saddr]
  cases a <;>
    simp [Act.hid, Act.next, h.hid, h.cfg, hr, hd, ha, h.locked.saddr, h.locked.sdisc, h.locked.romid]

/-- A pin request, in both runs: the same draw, or none. -/
theorem HostTwin.pinStep (h : HostTwin t u) (hb : t.busy = true) (r : PinReq) (rest : List Micro) :
    HostTwin (t.pinStep r rest) (u.pinStep r rest) := by
  have ha : u.answers r = t.answers r := by simp [State.answers, h.port]
  have hd : u.nextDraw = t.nextDraw := by simp [State.nextDraw, h.port]
  have hans : u.nextDraw.answer u.cfg u.hid.drv r = t.nextDraw.answer t.cfg t.hid.drv r := by rw [hd, h.cfg, h.hid]
  have hw : u.nextDraw.waitCycles u.cfg u.hid.drv r = t.nextDraw.waitCycles t.cfg t.hid.drv r := by
    rw [hd, h.cfg, h.hid]
  have hl : u.cfg.actLat = t.cfg.actLat := by rw [h.cfg]
  have hi : HostTwin { t with port := { t.port with draws := t.port.draws.tail } }
      { u with port := { u.port with draws := u.port.draws.tail } } :=
    ⟨h.quiet, h.resets, h.seq, h.hid, by simp [h.port], h.now, h.cfg, h.locked, h.done⟩
  unfold State.pinStep
  rw [ha]
  split
  · simp only [State.answeredStep, hans, hw, hl]
    refine hi.afterCycles hb _ _ ?_
    refine fun t' u' k => ⟨k.quiet, k.resets, rfl, ?_, ?_, k.now, k.cfg, k.locked, nofun⟩
    · simp [k.hid]
    · simp [k.port]
  · exact ⟨h.quiet, h.resets, rfl, h.hid, by simp [h.port], h.now, h.cfg, h.locked, nofun⟩

/-- A step of the command, in both runs. -/
theorem HostTwin.seqStep (hs : t.stopped = false) (h : HostTwin t u) : HostTwin (seqStep t) (seqStep u) := by
  obtain ⟨m, rest, hm⟩ := not_stopped_run hs
  have hb : t.busy = true := busy_run hm
  have hu : u.seq = .run (m :: rest) := h.seq.trans hm
  cases m with
  | pin r =>
    rw [seqStep_eq_pin hm, seqStep_eq_pin hu]
    exact h.pinStep hb r rest
  | wait us =>
    rw [seqStep_eq_wait hm, seqStep_eq_wait hu]
    simp only [State.waitStep, h.cfg]
    refine h.afterCycles hb _ _ fun t' u' k => ⟨k.quiet, k.resets, rfl, ?_, ?_, k.now, k.cfg, k.locked, nofun⟩
    · simp [k.hid]
    · simp [k.port]
  | act a =>
    rw [seqStep_eq_act hm, seqStep_eq_act hu]
    obtain ⟨hh, hn⟩ := h.act_eq a
    exact ⟨h.quiet, h.resets, by simp [hn], hh, h.port, h.now, h.cfg, h.locked, nofun⟩
  | finish c =>
    rw [seqStep_eq_finish hm, seqStep_eq_finish hu]
    exact h.afterCycles hb _ _ fun _ _ k => k.endFinish c
  | raise e =>
    rw [seqStep_eq_raise hm, seqStep_eq_raise hu]
    exact h.afterCycles hb _ _ fun _ _ k => k.endRaise e

theorem HostTwin.stopped (h : HostTwin t u) : u.stopped = t.stopped := by
  simp [State.stopped, h.seq]

/-- A whole command, from the same state with and without host accesses to come. -/
theorem HostTwin.runCommand {s : State} (hr : s.resets = []) (queue : List Input) (l : List Micro) :
    HostTwin (({ s with host := { s.host with queue := [] } } : State).runCommand l)
      (({ s with host := { s.host with queue := queue } } : State).runCommand l) :=
  runSeq_rel HostTwin (fun _ _ h => h.stopped) (fun _ _ hs h => h.seqStep hs) _ _ _
    ⟨⟨rfl, hr⟩, hr, rfl, rfl, rfl, rfl, rfl, .refl _, nofun⟩

end HostTwin

/-- Settles O22: the two runs stay twins step by step (`HostTwin.seqStep`). -/
theorem hostCannotDisturbACommand : Obligations.HostCannotDisturbACommand := by
  unfold Obligations.HostCannotDisturbACommand
  intro i s queue hr
  have h := HostTwin.runCommand hr queue (procedureOf i)
  exact ⟨_, _, exec_eq i _, exec_eq i _, h.seq, h.hid, h.port, h.now, h.locked.eq, h.done⟩

/-! ## The hidden registers that a point of a procedure still needs (10_state.md R71) -/

section HiddenTwin

/-- The hidden registers that are written before they are read. The others: op_word and tmr are not read in a run; drv, and
pres_v with pres, are compared at every point (`HiddenTwin`). -/
inductive HReg where
  | wAddr | wDisc | wLdi | i | k | j | sh | r0 | r1 | pres | bit

/-- Two hidden states have the same value in a register. -/
def HReg.same (h h' : Hidden) : HReg → Prop
  | .wAddr => h.wAddr = h'.wAddr
  | .wDisc => h.wDisc = h'.wDisc
  | .wLdi => h.wLdi = h'.wLdi
  | .i => h.i = h'.i
  | .k => h.k = h'.k
  | .j => h.j = h'.j
  | .sh => h.sh = h'.sh
  | .r0 => h.r0 = h'.r0
  | .r1 => h.r1 = h'.r1
  | .pres => h.pres = h'.pres
  | .bit => h.bit = h'.bit

/-- The registers an act needs: those it reads, and those that the points it goes on with need. -/
def Act.needs : Act → Set HReg
  | .clearPresV => ∅
  | .latchPresence => {.bit}
  | .loadShift _ => ∅
  | .sendBits => {.sh, .k}
  | .recvBits => {.sh, .k}
  | .storeBit => {.sh, .k, .bit}
  | .nextBit => {.k}
  | .startMatch => ∅
  | .sendRom => {.j}
  | .nextByte => {.j}
  | .latchR0 => {.bit}
  | .latchR1 => {.bit}
  | .searchEnter _ _ => ∅
  | .searchPresence _ _ => {.pres}
  | .searchStart _ => ∅
  | .replay => {.i, .wLdi}
  | .replayWrite => {.i, .wLdi}
  | .confirm => {.r0, .r1, .wAddr, .wLdi}
  | .beginWalk => {.wAddr, .wLdi}
  | .walk => {.i, .wAddr, .wDisc, .wLdi}
  | .choose => {.i, .r0, .r1, .wAddr, .wDisc, .wLdi}
  | .nextPos => {.i}
  | .validate => {.wAddr, .wDisc, .wLdi}

/-- The registers an act writes whatever the state, so that the steps behind it do not need their old value. -/
def Act.sets : Act → Set HReg
  | .latchPresence => {.pres}
  | .loadShift _ => {.sh, .k}
  | .startMatch => {.j}
  | .latchR0 => {.r0}
  | .latchR1 => {.r1}
  | _ => ∅

/-- The registers that hold values of the act's own making after it, in the state s. -/
def Act.writes (a : Act) (s : State) : Set HReg :=
  match a with
  | .searchStart resume => if resume then {.wLdi, .i} else {.wLdi, .wAddr, .wDisc, .i}
  | .replay => if s.hid.i < s.resumeAt then ∅ else {.wAddr}
  | .beginWalk => {.wDisc, .i}
  | a => a.sets

/-- The registers a step needs. -/
def Micro.needs : Micro → Set HReg
  | .act a => a.needs
  | .finish .rxBit => {.bit}
  | .finish .rxByte => {.sh}
  | .finish .searchState => {.wAddr, .wDisc, .wLdi}
  | _ => ∅

/-- The registers a step writes, if the procedure goes on behind it. -/
def Micro.sets : Micro → Set HReg
  | .pin .isHigh => {.bit}
  | .pin .isLow => {.bit}
  | .act a => a.sets
  | _ => ∅

/-- The registers needed before the steps l, if those of the set after are needed behind them. -/
def needsBefore (l : List Micro) (after : Set HReg) : Set HReg :=
  l.foldr (fun m live => m.needs ∪ (live \ m.sets)) after

/-- The registers needed at the step pointer. -/
def Sequencer.needs : Sequencer → Set HReg
  | .run l => needsBefore l ∅
  | _ => ∅

@[simp] theorem needsBefore_nil (after : Set HReg) : needsBefore [] after = after := rfl

@[simp] theorem needsBefore_cons (m : Micro) (l : List Micro) (after : Set HReg) :
    needsBefore (m :: l) after = m.needs ∪ (needsBefore l after \ m.sets) := rfl

theorem needsBefore_append (l l' : List Micro) (after : Set HReg) :
    needsBefore (l ++ l') after = needsBefore l (needsBefore l' after) := List.foldr_append

/-- Two hidden states that a command at the step pointer q cannot tell apart: the same drv and pres_v, the same pres where
pres_v says that it counts (60_exceptions.md R274), and the same value in each register q needs. -/
structure HiddenTwin (q : Set HReg) (h h' : Hidden) : Prop where
  drv : h'.drv = h.drv
  presV : h'.presV = h.presV
  pres : h.presV = true → h.pres = h'.pres
  live : ∀ r ∈ q, r.same h h'

variable {s : State} {h : Hidden} {q q' : Set HReg}

theorem HiddenTwin.mono (k : HiddenTwin q' s.hid h) (hq : q ⊆ q') : HiddenTwin q s.hid h :=
  ⟨k.drv, k.presV, k.pres, fun r hr => k.live r (hq hr)⟩

/-- An act goes on with the same steps. -/
theorem HiddenTwin.act_next (a : Act) (k : HiddenTwin a.needs s.hid h) :
    a.next { s with hid := h } = a.next s := by
  have hn := k.live
  clear k
  obtain ⟨regs, seq, ⟨⟩, port, host, resets, now, cfg⟩ := s
  cases h
  revert hn
  cases a <;>
    simp only [Act.needs, Set.mem_empty_iff_false, Set.mem_insert_iff, Set.mem_singleton_iff, forall_eq_or_imp,
      forall_eq, HReg.same, and_imp] <;>
    intros <;> subst_vars <;> rfl

/-- The registers that an act goes on to need, whatever the steps behind it need: its own, or those it writes. -/
theorem needs_next (a : Act) (s : State) (q : Set HReg) :
    needsBefore (a.next s) q ⊆ a.needs ∪ q ∪ a.writes s := by
  intro r hr
  cases a <;> simp only [Act.next] at hr
  case' sendBits | recvBits | sendRom | searchEnter | searchPresence | searchStart | replay | confirm | walk | choose
    | validate => split at hr
  all_goals
    simp_all [writeSlot, readSlot, twoRead, resetSeq, waitForHigh, writeByteSeq, Micro.needs, Micro.sets,
      Act.needs, Act.sets, Act.writes] <;> tauto

/-- The starting point of a pass: wLdi and i are cleared, and w_addr and w_disc in a fresh pass. -/
theorem hid_searchStart (s : State) (resume : Bool) : (Act.searchStart resume).hid s =
    { s.hid with
      wLdi := 0#6, i := 0, wAddr := if resume then s.hid.wAddr else 0#64
      wDisc := if resume then s.hid.wDisc else 0#64 } := by
  cases resume <;> rfl

theorem hid_replay (s : State) : Act.replay.hid s =
    { s.hid with wAddr := if s.hid.i < s.resumeAt then s.hid.wAddr else s.regs.saddr } := by
  simp only [Act.hid]
  split <;> rfl

theorem hid_confirm (s : State) : Act.confirm.hid s =
    { s.hid with
      wAddr := if bothRespond s.hid then assignBit s.hid.wAddr s.resumeAt true else s.hid.wAddr } := by
  simp only [Act.hid]
  split <;> rfl

theorem hid_choose (s : State) : Act.choose.hid s =
    { s.hid with
      wAddr := if !s.hid.r0 && !s.hid.r1 then s.hid.wAddr else assignBit s.hid.wAddr s.hid.i (chosenBit s.hid)
      wDisc := if bothRespond s.hid then assignBit s.hid.wDisc s.hid.i true else s.hid.wDisc
      wLdi := if bothRespond s.hid then BitVec.ofNat 6 s.hid.i else s.hid.wLdi } := by
  simp only [Act.hid]
  split
  next hc =>
    have hb : bothRespond s.hid = false := by revert hc; unfold bothRespond; cases s.hid.r0 <;> simp
    simp only [hb, Bool.false_eq_true, if_false]
  next => rfl

/-- The acts other than those that clear or take the presence sample leave it. -/
theorem hid_presV (a : Act) (s : State) (h1 : a ≠ .clearPresV) (h2 : a ≠ .latchPresence) :
    (a.hid s).presV = s.hid.presV ∧ (a.hid s).pres = s.hid.pres := by
  cases a
  case clearPresV => exact absurd rfl h1
  case latchPresence => exact absurd rfl h2
  case' searchStart => rw [hid_searchStart]
  case' replay => rw [hid_replay]
  case' confirm => rw [hid_confirm]
  case' choose => rw [hid_choose]
  all_goals exact ⟨rfl, rfl⟩

/-- After an act, a register has the same value in both states if it had it before or the act writes it. -/
theorem same_hid (a : Act) (r : HReg) (hn : ∀ r ∈ a.needs, r.same s.hid h)
    (hr : r ∉ a.writes s → r.same s.hid h) : r.same (a.hid s) (a.hid { s with hid := h }) := by
  cases a
  case replay =>
    have hi : s.hid.i = h.i := hn .i (by simp [Act.needs])
    rw [hid_replay, hid_replay]
    cases r
    case wAddr =>
      change (if s.hid.i < s.resumeAt then _ else _) = if h.i < s.resumeAt then _ else _
      rw [hi]
      split
      next hlt => exact hr (by simp [Act.writes, hi, hlt])
      next => rfl
    all_goals exact hr (by simp [Act.writes])
  case' searchStart resume => rw [hid_searchStart, hid_searchStart]; cases resume
  case' confirm => rw [hid_confirm, hid_confirm]
  case' choose => rw [hid_choose, hid_choose]
  all_goals
    obtain ⟨regs, seq, ⟨⟩, port, host, resets, now, cfg⟩ := s
    cases h
    simp only [Act.needs, Set.mem_empty_iff_false, Set.mem_insert_iff, Set.mem_singleton_iff, forall_eq_or_imp,
      forall_eq, HReg.same] at hn
    (try casesm* _ ∧ _)
    subst_vars
    -- Either the act computes the register from what it needs, or it leaves it.
    cases r <;> first | exact rfl | exact hr (by simp [Act.writes, Act.sets])

/-- An act leaves the same value in each register that the steps behind it need. -/
theorem HiddenTwin.act_hid (a : Act) (k : HiddenTwin (a.needs ∪ (q \ a.sets)) s.hid h) :
    HiddenTwin (needsBefore (a.next s) q) (a.hid s) (a.hid { s with hid := h }) := by
  have hn : ∀ r ∈ a.needs, r.same s.hid h := fun r hr => k.live r (.inl hr)
  have hw : a.sets ⊆ a.writes s := by cases a <;> simp [Act.sets, Act.writes]
  have hp : (a.hid { s with hid := h }).presV = (a.hid s).presV ∧
      ((a.hid s).presV = true → (a.hid s).pres = (a.hid { s with hid := h }).pres) := by
    by_cases h1 : a = .clearPresV
    · subst h1; exact ⟨rfl, nofun⟩
    · by_cases h2 : a = .latchPresence
      · subst h2; exact ⟨rfl, fun _ => hn .bit rfl⟩
      · have e := hid_presV a s h1 h2
        have e' := hid_presV a { s with hid := h } h1 h2
        rw [e.1, e.2, e'.1, e'.2]
        exact ⟨k.presV, k.pres⟩
  refine ⟨?_, hp.1, hp.2, fun r hr => same_hid a r hn fun hr' => k.live r ?_⟩
  · rw [act_drv, act_drv, k.drv]
  · rcases needs_next a s q hr with (hr | hr) | hr
    · exact .inl hr
    · exact .inr ⟨hr, fun hs => hr' (hw hs)⟩
    · exact absurd hr hr'

end HiddenTwin

/-! ## Runs from states that differ in hidden registers (10_state.md R71) -/

section SameButHidden

variable {s u : State} {h h' : Hidden} {q : Set HReg}

/-- The host reads no hidden register but drv. -/
theorem readWord_hid (s : State) {h : Hidden} (hd : h.drv = s.hid.drv) (off : Offset) :
    ({ s with hid := h } : State).readWord off = s.readWord off := by
  have hw : ({ s with hid := h } : State).statusWord = s.statusWord := by
    simp only [State.statusWord, State.driving, State.busy, hd]
  unfold State.readWord
  split
  next r _ =>
    cases r
    case status => exact hw
    all_goals rfl
  next => rfl

/-- An access leaves the hidden registers, and depends on none but drv. -/
theorem access_hid (s : State) {h : Hidden} (hd : h.drv = s.hid.drv) (op : HostOp) :
    (s.access op).hid = s.hid ∧ ({ s with hid := h } : State).access op = { s.access op with hid := h } := by
  cases op with
  | read off => exact ⟨rfl, by simp only [State.access, State.hostRead, readWord_hid s hd]⟩
  | write off v =>
    simp only [State.access, State.writeWord]
    split <;> exact ⟨rfl, rfl⟩

/-- The passing of time leaves the hidden registers, and depends on none but drv. -/
theorem elapseTo_hid (t : Nat) (queue : List Input) : ∀ (s : State) {h : Hidden}, h.drv = s.hid.drv →
    (elapseTo t queue s).hid = s.hid ∧
      elapseTo t queue { s with hid := h } = { elapseTo t queue s with hid := h } := by
  induction queue with
  | nil => exact fun _ _ _ => ⟨rfl, rfl⟩
  | cons inp queue ih =>
    intro s h hd
    unfold elapseTo
    split
    · obtain ⟨h1, h2⟩ := access_hid (s.takeInput inp.due queue) (h := h) hd inp.op
      obtain ⟨h3, h4⟩ := ih ((s.takeInput inp.due queue).access inp.op) (h := h) (by rw [h1]; exact hd)
      exact ⟨h3.trans h1, by rw [← h4, ← h2]; rfl⟩
    · exact ⟨rfl, rfl⟩

/-- u is s but for hidden registers that the command cannot tell apart at the step pointer. -/
def SameButHidden (s u : State) : Prop := ∃ h, u = { s with hid := h } ∧ HiddenTwin s.seq.needs s.hid h

theorem SameButHidden.refl (s : State) : SameButHidden s s :=
  ⟨s.hid, rfl, rfl, rfl, fun _ => rfl, fun r _ => by cases r <;> rfl⟩

/-- Cycles pass in both states. A block reset ends in the same state. -/
theorem SameButHidden.afterCycles (hb : s.busy = true) (hd : h.drv = s.hid.drv) (n : Nat) (f g : State → State)
    (hf : ∀ t : State, t.seq = s.seq → t.hid = s.hid → SameButHidden (f t) (g { t with hid := h })) :
    SameButHidden (s.afterCycles n f) (({ s with hid := h } : State).afterCycles n g) := by
  have hr : ({ s with hid := h } : State).resetBefore (s.now + n) = s.resetBefore (s.now + n) := rfl
  unfold State.afterCycles
  simp only [hr]
  split
  next r _ =>
    rw [(elapseTo_hid r s.host.queue s hd).2]
    exact .refl _
  next =>
    rw [(elapseTo_hid (s.now + n) s.host.queue s hd).2]
    exact hf _ (elapseTo_effect _ _ s hb).seq (elapseTo_hid _ _ s hd).1

/-- Behind an answered request, no more is needed than at the rest of the procedure. -/
theorem stepAfter_needs (a : PinAns) (rest : List Micro) :
    (Sequencer.run (stepAfter a rest)).needs ⊆ needsBefore rest ∅ := by
  cases a <;> simp [stepAfter, Sequencer.needs, Micro.needs]

/-- A request whose sample the procedure takes is answered with a level or an error. -/
theorem sets_bit_cases (d : PinDraw) (p : Params) (drv : Bool) (r : PinReq) :
    (∃ b, d.answer p drv r = .level b) ∨ (∃ c, d.answer p drv r = .err c) ∨ .bit ∉ (Micro.pin r).sets := by
  cases r
  case isHigh | isLow =>
    cases hf : d.fault p with
    | none => exact .inl ⟨_, by simp only [PinDraw.answer, hf]; rfl⟩
    | some c => exact .inr (.inl ⟨c, by simp only [PinDraw.answer, hf]; rfl⟩)
  all_goals exact .inr (.inr nofun)

/-- A request writes no register but bit. -/
theorem sets_pin {r : PinReq} {x : HReg} (hx : x ∈ (Micro.pin r).sets) : x = .bit := by
  cases r
  case isHigh | isLow => exact hx
  all_goals cases hx

/-- An answered request leaves the same value in each register that the rest of the procedure needs: a sample is the
answer's, and a failure drops the rest. -/
theorem HiddenTwin.answered {rest : List Micro} {r : PinReq} (d : PinDraw) (p : Params) (w : Nat)
    (k : HiddenTwin (needsBefore (.pin r :: rest) ∅) h h') :
    HiddenTwin (Sequencer.run (stepAfter (d.answer p h.drv r) rest)).needs
      { h with
        tmr := if r = .waitHigh then w else h.tmr, drv := drvAfter r (d.answer p h.drv r) h.drv
        bit := bitAfter (d.answer p h.drv r) h.bit }
      { h' with
        tmr := if r = .waitHigh then w else h'.tmr, drv := drvAfter r (d.answer p h.drv r) h'.drv
        bit := bitAfter (d.answer p h.drv r) h'.bit } := by
  refine ⟨by simp [k.drv], k.presV, k.pres, fun x hx => ?_⟩
  have hr := stepAfter_needs _ _ hx
  by_cases hb : x = .bit
  · subst hb
    change bitAfter _ h.bit = bitAfter _ h'.bit
    rcases sets_bit_cases d p h.drv r with ⟨b, hl⟩ | ⟨c, hf⟩ | hs
    · rw [hl]
      rfl
    · rw [hf] at hx
      simp [stepAfter, Sequencer.needs, Micro.needs] at hx
    · rw [show h.bit = h'.bit from k.live .bit (.inr ⟨hr, hs⟩)]
  · have := k.live x (.inr ⟨hr, fun h => hb (sets_pin h)⟩)
    cases x
    case bit => exact absurd rfl hb
    all_goals exact this

/-- The presence sample is the same, if there is one. -/
theorem HiddenTwin.latchPresence (k : HiddenTwin q h h') (r : Regs) : r.latchPresence h' = r.latchPresence h := by
  unfold Regs.latchPresence
  rw [k.presV]
  split
  next hp => rw [k.pres hp]
  next => rfl

/-- `finish` commits the same values. -/
theorem HiddenTwin.endFinish (c : Commit) (k : HiddenTwin (Micro.finish c).needs s.hid h) :
    ({ s with hid := h } : State).endFinish c = { s.endFinish c with hid := h } := by
  have hc : s.regs.commit h c = s.regs.commit s.hid c := by
    have hl := k.live
    cases c <;> simp [Micro.needs, HReg.same] at hl <;> simp [Regs.commit, hl]
  simp only [State.endFinish, hc, k.latchPresence]

theorem HiddenTwin.endRaise (e : CmdError) (k : HiddenTwin q s.hid h) :
    ({ s with hid := h } : State).endRaise e = { s.endRaise e with hid := h } := by
  simp only [State.endRaise, k.latchPresence]

/-- A pin request in both states: the same draw, or none. -/
theorem SameButHidden.pinStep {r : PinReq} {rest : List Micro} (hm : s.seq = .run (.pin r :: rest))
    (k : HiddenTwin s.seq.needs s.hid h) :
    SameButHidden (s.pinStep r rest) (({ s with hid := h } : State).pinStep r rest) := by
  have ha : ({ s with hid := h } : State).answers r = s.answers r := rfl
  have hd : ({ s with hid := h } : State).nextDraw = s.nextDraw := rfl
  unfold State.pinStep
  rw [ha]
  split
  · simp only [State.answeredStep, hd, k.drv]
    refine SameButHidden.afterCycles (s := { s with port := { s.port with draws := s.port.draws.tail } }) (busy_run hm)
      k.drv _ _ _ ?_
    refine fun t _ ht => ⟨_, rfl, ?_⟩
    simp only [State.takeAnswer_hid, State.takeAnswer_seq, State.mapHid_hid, ht]
    rw [hm] at k
    exact k.answered s.nextDraw s.cfg _
  · exact ⟨h, rfl, k.mono nofun⟩

/-- A step of the command in both states. -/
theorem SameButHidden.seqStep (hs : s.stopped = false) (k : SameButHidden s u) :
    SameButHidden (seqStep s) (seqStep u) := by
  obtain ⟨m, rest, hm⟩ := not_stopped_run hs
  obtain ⟨h, rfl, k⟩ := k
  have hlive : HiddenTwin (m.needs ∪ (needsBefore rest ∅ \ m.sets)) s.hid h := by rwa [hm] at k
  have hb : s.busy = true := busy_run hm
  have hu : ({ s with hid := h } : State).seq = .run (m :: rest) := hm
  cases m with
  | pin r =>
    rw [seqStep_eq_pin hm, seqStep_eq_pin hu]
    exact .pinStep hm k
  | wait us =>
    rw [seqStep_eq_wait hm, seqStep_eq_wait hu]
    refine SameButHidden.afterCycles hb k.drv _ _ _ fun t _ ht => ⟨{ h with tmr := usCycles s.cfg us }, rfl, ?_⟩
    simp only [State.log_hid, State.mapHid_hid, ht]
    refine ⟨k.drv, k.presV, k.pres, fun r hr => ?_⟩
    have := hlive.live r (.inr ⟨hr, nofun⟩)
    cases r <;> exact this
  | act a =>
    rw [seqStep_eq_act hm, seqStep_eq_act hu]
    refine ⟨a.hid { s with hid := h }, ?_, ?_⟩
    · simp only [State.runAct, (hlive.mono Set.subset_union_left).act_next a]
    · rw [State.runAct_seq, Sequencer.needs, needsBefore_append]
      exact hlive.act_hid a
  | finish c =>
    rw [seqStep_eq_finish hm, seqStep_eq_finish hu]
    refine SameButHidden.afterCycles hb k.drv _ _ _ fun t _ ht => ⟨h, ?_, ?_⟩
    · exact HiddenTwin.endFinish c (ht ▸ hlive.mono Set.subset_union_left)
    · exact (ht ▸ k).mono nofun
  | raise e =>
    rw [seqStep_eq_raise hm, seqStep_eq_raise hu]
    refine SameButHidden.afterCycles hb k.drv _ _ _ fun t _ ht => ⟨h, ?_, ?_⟩
    · exact HiddenTwin.endRaise e (ht ▸ k)
    · exact (ht ▸ k).mono nofun

theorem SameButHidden.stopped (k : SameButHidden s u) : u.stopped = s.stopped := by
  obtain ⟨h, rfl, -⟩ := k
  rfl

/-- No procedure needs a hidden register at its start. -/
theorem procedureOf_needs (i : Instr) : (Sequencer.run (procedureOf i)).needs = ∅ := by
  cases i
  case' sendCommand byte byMatch => cases byMatch
  all_goals
    simp [procedureOf, procReleaseBus, procDriveLow, procSenseHigh, procSenseLow, procWaitHigh, procReset, procReadBit,
      procWriteBit, procReadByte, procWriteByte, procMatchRom, procSkipRom, procSendCommand, procSearch, procIllegal,
      readSlot, writeSlot, resetSeq, waitForHigh, matchSeq, skipSeq, readByteSeq, writeByteSeq, Sequencer.needs,
      Micro.needs, Micro.sets, Act.needs, Act.sets]

end SameButHidden

/-- Settles O23: at each point of the run the two states agree in the hidden registers that the point still needs, and
no procedure needs one at its start. -/
theorem hiddenRegistersDoNotSurvive : Obligations.HiddenRegistersDoNotSurvive := by
  unfold Obligations.HiddenRegistersDoNotSurvive
  intro i s h hp hp' hd
  have start : SameButHidden { s with seq := .run (procedureOf i) } { s with seq := .run (procedureOf i), hid := h } :=
    ⟨h, rfl, hd, hp'.trans hp.symm, fun e => absurd (hp.symm.trans e) (by decide), by
      simp [procedureOf_needs]⟩
  obtain ⟨h', he, k⟩ := runSeq_rel SameButHidden (fun _ _ k => k.stopped) (fun _ _ hs k => k.seqStep hs) stepBound _ _ start
  refine ⟨_, _, exec_eq i _, exec_eq i _, ?_⟩
  simp only [State.runCommand, he, true_and]
  exact k.drv

/-! ## The step of the machine -/

/-- What every kind of step keeps, the step of the machine keeps. The commands of an idle engine start from their
procedures, and run by the steps of the sequencer. -/
theorem step_keeps (P : State → Prop)
    (tick : ∀ s, P s → P s.tick)
    (reset : ∀ s r, P s → P (s.resetNow r))
    (take : ∀ s due queue, P s → P (s.takeInput due queue))
    (access : ∀ s op, P s → P (s.access op))
    (start : ∀ s w i, s.seq = .idle → P s → P { s.accept w with seq := .run (procedureOf i) })
    (go : ∀ s, s.stopped = false → P s → P (seqStep s))
    {s t : State} (hs : P s) (h : step s = .next t) : P t := by
  have wait : P s.resetOrTick := by
    unfold State.resetOrTick
    split
    · exact tick s hs
    · exact reset s _ hs
  unfold step at h
  split at h
  next hi =>
    unfold State.idleStep at h
    split at h
    next => injection h with h; exact h ▸ wait
    next inp queue _ =>
      split at h
      next r _ => injection h with h; exact h ▸ reset s r hs
      next =>
        have ht := take s inp.due queue hs
        split at h
        next off v _ =>
          unfold State.idleWrite at h
          split at h
          next =>
            rw [State.startCommand, exec_eq] at h
            injection h with h
            exact h ▸ runSeq_induct P go _ _ (start _ v _ hi ht)
          next => injection h with h; exact h ▸ access _ (.write off v) ht
        next off _ => injection h with h; exact h ▸ access _ (.read off) ht
  next => cases h
  next => injection h with h; exact h ▸ runSeq_induct P go _ _ hs
  next =>
    injection h with h
    rw [← h]
    unfold State.heldStep
    split
    · exact wait
    · exact wait
    · split
      · exact reset s _ hs
      · exact access _ _ (take s _ _ hs)

/-! ## The parameters (10_state.md R30) -/

theorem access_cfg (s : State) (op : HostOp) : (s.access op).cfg = s.cfg := by
  cases op with
  | read off => rfl
  | write off v =>
    simp only [State.access, State.writeWord]
    split <;> rfl

theorem seqStep_cfg {s : State} (hs : s.stopped = false) : (seqStep s).cfg = s.cfg := by
  obtain ⟨m, rest, hm⟩ := not_stopped_run hs
  have hstep := seqStep_cases hm
  generalize seqStep s = u at hstep ⊢
  cases hstep with
  | reset t r h _ _ => exact h.cfg
  | pin t q w _ h => exact h.cfg
  | silent q _ _ _ => rfl
  | wait t us _ h => exact h.cfg
  | act a _ => rfl
  | finish t c _ h => exact h.cfg
  | raise t e _ h => exact h.cfg

/-- Settles O18: neither the host, nor time, nor a reset, nor a step of a command touches the parameters. -/
theorem configurationIsConstant : Obligations.ConfigurationIsConstant := by
  unfold Obligations.ConfigurationIsConstant
  intro s t
  exact step_keeps (fun u => u.cfg = s.cfg) (fun _ h => h) (fun _ _ h => h) (fun _ _ _ h => h)
    (fun u op h => (access_cfg u op).trans h) (fun _ _ _ _ h => h) (fun u hu h => (seqStep_cfg hu).trans h) rfl

/-! ## The invariant -/

/-- A block reset leads to a state that meets the invariant. -/
theorem resetNow_inv (s : State) (r : Nat) : (s.resetNow r).Inv where
  drive := by rw [State.resetNow_port, lastDrive_append]; rfl
  counters := by simp [Hidden.reset]
  pinerr := by simp [codeFits, Regs.reset]
  running := nofun
  sound := trivial
  pending := nofun

/-- What a state must keep of another that meets the invariant. -/
theorem State.Inv.of_same {s t : State} (h : s.Inv) (hq : t.seq = s.seq) (hh : t.hid = s.hid) (hp : t.port = s.port)
    (hc : t.cfg = s.cfg) (hr : t.regs.pinerr = s.regs.pinerr ∧ t.regs.err = s.regs.err ∧ t.regs.found = s.regs.found)
    (hd : t.regs.done = true → s.regs.done = true) : t.Inv := by
  obtain ⟨h1, h2, h3⟩ := hr
  refine ⟨by rw [hh, hp]; exact h.drive, by rw [hh]; exact h.counters, by rw [h1, hc]; exact h.pinerr, fun hb => ?_,
    by rw [hq, hc]; exact h.sound, by rw [hq, hp]; exact h.pending⟩
  obtain ⟨k1, k2, k3⟩ := h.running (by simpa [State.busy, hq] using hb)
  exact ⟨by simpa [k1] using hd, h2.trans k2, h3.trans k3⟩

/-- No write touches PINERR, ERR or FOUND, or sets DONE. -/
theorem store_flags (r : Regs) (v : Word) (x : Reg) :
    ((r.store v x).pinerr = r.pinerr ∧ (r.store v x).err = r.err ∧ (r.store v x).found = r.found) ∧
      ((r.store v x).done = true → r.done = true) := by
  cases x
  case status => exact ⟨⟨rfl, rfl, rfl⟩, by simp +contextual [Regs.store]⟩
  all_goals exact ⟨⟨rfl, rfl, rfl⟩, id⟩

theorem access_inv (s : State) (op : HostOp) (h : s.Inv) : (s.access op).Inv := by
  cases op with
  | read off => exact h.of_same rfl rfl rfl rfl ⟨rfl, rfl, rfl⟩ id
  | write off v =>
    simp only [State.access, State.writeWord]
    split
    next r _ =>
      split
      · exact h.of_same rfl rfl rfl rfl ⟨rfl, rfl, rfl⟩ id
      · obtain ⟨h1, h2⟩ := store_flags s.regs v r
        exact h.of_same rfl rfl rfl rfl h1 h2
    next => exact h

theorem accessEffect_inv {s t : State} (h : s.Inv) (e : s.accessEffect t) : t.Inv :=
  h.of_same e.seq e.hid e.port e.cfg ⟨e.locked.pinerr, e.locked.err, e.locked.found⟩ e.done

/-- Every procedure has an end, and its steps raise no pin error. -/
theorem procedureOf_sound (p : Params) (i : Instr) : (Sequencer.run (procedureOf i)).sound p := by
  cases i
  case' sendCommand byte byMatch => cases byMatch
  all_goals
    simp [procedureOf, procReleaseBus, procDriveLow, procSenseHigh, procSenseLow, procWaitHigh, procReset, procReadBit,
      procWriteBit, procReadByte, procWriteByte, procMatchRom, procSkipRom, procSendCommand, procSearch, procIllegal,
      readSlot, writeSlot, resetSeq, waitForHigh, matchSeq, skipSeq, readByteSeq, writeByteSeq, Sequencer.sound,
      Micro.endsProcedure, Micro.fits]

theorem start_inv (s : State) (w : Word) (i : Instr) (h : s.Inv) :
    ({ s.accept w with seq := .run (procedureOf i) } : State).Inv where
  drive := h.drive
  counters := h.counters
  pinerr := h.pinerr
  running := fun _ => ⟨rfl, rfl, rfl⟩
  sound := procedureOf_sound s.cfg i
  pending := nofun

/-- drv after an answered request is what the trace says with it (10_state.md R69). -/
theorem drvAfter_lastDrive (r : PinReq) (a : PinAns) (xs : List TraceEv) :
    drvAfter r a (lastDrive xs) = lastDrive (xs ++ [.pin r a]) := by
  rw [lastDrive_append]
  cases r <;> cases a <;> rfl

/-- A sound step pointer stays sound past an answered request, which raises a code of its own width at most. -/
theorem sound_stepAfter {p : Params} {r : PinReq} {rest : List Micro} (h : (Sequencer.run (.pin r :: rest)).sound p)
    (d : PinDraw) (drv : Bool) : (Sequencer.run (stepAfter (d.answer p drv r) rest)).sound p := by
  have hr := sound_tail h rfl
  cases ha : d.answer p drv r with
  | ok | level b | high => exact hr
  | timeout => simp [stepAfter, Sequencer.sound, Micro.endsProcedure, Micro.fits]
  | err c => simpa [stepAfter, Sequencer.sound, Micro.endsProcedure, Micro.fits] using answer_fits ha

/-- The code that `raise` records fits PIN_ERR_W. -/
theorem recordPinErr_fits {p : Params} {r : Regs} {e : CmdError} (hr : codeFits p r.pinerr)
    (he : (Micro.raise e).fits p) : codeFits p (r.recordPinErr e).pinerr := by
  cases e with
  | pinFailure c => exact he
  | busNotHigh | unexpectedResponse | checksumMismatch | illegalCommand => exact hr

/-- `finish` leaves PINERR. -/
theorem commit_pinerr (r : Regs) (h : Hidden) (c : Commit) : (r.commit h c).pinerr = r.pinerr := by
  cases c <;> rfl

theorem seqStep_inv (s : State) (hs : s.stopped = false) (h : s.Inv) : (seqStep s).Inv := by
  obtain ⟨m, rest, hm⟩ := not_stopped_run hs
  have hsound := hm ▸ h.sound
  have hstep := seqStep_cases hm
  generalize seqStep s = u at hstep ⊢
  cases hstep with
  | reset t r _ _ _ => exact resetNow_inv t r
  | pin t q w hq e =>
    subst hq
    have hi : State.Inv { s with port := { s.port with draws := s.port.draws.tail } } :=
      ⟨h.drive, h.counters, h.pinerr, h.running, h.sound, h.pending⟩
    have k := accessEffect_inv hi e
    have hc : s.cfg = t.cfg := e.cfg.symm
    exact {
      drive := by simp [← drvAfter_lastDrive, k.drive]
      counters := k.counters
      pinerr := k.pinerr
      running := fun _ => k.running (e.busy.trans (busy_run hm))
      sound := by simpa [hc] using sound_stepAfter (hc ▸ hsound) s.nextDraw s.hid.drv
      pending := nofun }
  | silent q hq hw hd =>
    exact {
      drive := by simpa [lastDrive_append] using h.drive
      counters := h.counters
      pinerr := h.pinerr
      running := fun _ => h.running (busy_run hm)
      sound := hw
      pending := fun r l hl => by cases hl; simp }
  | wait t us hw e =>
    subst hw
    have k := accessEffect_inv h e
    exact {
      drive := by simpa [lastDrive_append] using k.drive
      counters := k.counters
      pinerr := k.pinerr
      running := fun _ => k.running (e.busy.trans (busy_run hm))
      sound := by simpa [e.cfg] using sound_tail hsound rfl
      pending := nofun }
  | act a ha =>
    subst ha
    exact {
      drive := (act_drv a s).trans h.drive
      counters := act_counters a s h.counters
      pinerr := h.pinerr
      running := fun _ => h.running (busy_run hm)
      sound := sound_act s hsound
      pending := nofun }
  | finish t c _ e =>
    have k := accessEffect_inv h e
    exact {
      drive := k.drive
      counters := k.counters
      pinerr := by simpa [commit_pinerr] using k.pinerr
      running := nofun
      sound := trivial
      pending := nofun }
  | raise t x hx e =>
    subst hx
    have k := accessEffect_inv h e
    exact {
      drive := k.drive
      counters := k.counters
      pinerr := recordPinErr_fits k.pinerr (e.cfg ▸ hsound.2 _ (by simp))
      running := nofun
      sound := trivial
      pending := nofun }

/-- Settles O15, clause by clause. -/
theorem resetMeetsTheInvariant : Obligations.ResetMeetsTheInvariant where
  drive := rfl
  counters := by simp [State.reset, Hidden.reset]
  pinerr := by simp [codeFits, State.reset, Regs.reset]
  running := nofun
  sound := trivial
  pending := nofun

/-- Settles O14: each kind of step keeps the invariant. -/
theorem stepKeepsTheInvariant : Obligations.StepKeepsTheInvariant := by
  unfold Obligations.StepKeepsTheInvariant
  intro s t
  exact step_keeps State.Inv (fun _ h => h.of_same rfl rfl rfl rfl ⟨rfl, rfl, rfl⟩ id) (fun s r _ => resetNow_inv s r)
    (fun _ _ _ h => h.of_same rfl rfl rfl rfl ⟨rfl, rfl, rfl⟩ id) access_inv (fun s w i _ h => start_inv s w i h)
    seqStep_inv

/-! ## What a command leaves in its registers, whatever the pin port and the host do -/

section EndRegs

/-- An assertion on the steps to come and the hidden registers that every step of a command keeps, with the registers r of
a host that does nothing. -/
structure KeptBySteps (r : Regs) (p : Params) (P : List Micro → Hidden → Prop) : Prop where
  pin : ∀ q rest h (d : PinDraw) w, P (.pin q :: rest) h →
    P (stepAfter (d.answer p h.drv q) rest)
      { h with
        tmr := if q = .waitHigh then w else h.tmr, drv := drvAfter q (d.answer p h.drv q) h.drv
        bit := bitAfter (d.answer p h.drv q) h.bit }
  wait : ∀ us rest h n, P (.wait us :: rest) h → P rest { h with tmr := n }
  act : ∀ a rest (x : State), x.regs = r → x.cfg = p → P (.act a :: rest) x.hid → P (a.next x ++ rest) (a.hid x)

/-- The registers that a run from the registers r can leave: r while the command goes on; or the registers after
`finish` or `raise`, at which the assertion holds. -/
inductive EndRegs (r : Regs) (P : List Micro → Hidden → Prop) : Regs → Prop where
  | going : EndRegs r P r
  | finish (c : Commit) (rest : List Micro) (h : Hidden) (hP : P (.finish c :: rest) h) :
      EndRegs r P ((r.commit h c).latchPresence h).finishFlags
  | raise (e : CmdError) (rest : List Micro) (h : Hidden) (hP : P (.raise e :: rest) h) :
      EndRegs r P (((r.latchPresence h).recordPinErr e).raiseFlags e)

variable {s t : State} {P : List Micro → Hidden → Prop}

theorem runSeq_moved_endRegs (hq : s.quiet) (k : KeptBySteps s.regs s.cfg P) (n : Nat) :
    ∀ l h evs ds c, P l h → EndRegs s.regs P (runSeq n (s.moved l h evs ds c)).regs := by
  induction n with
  | zero => intro l h evs ds c _; exact .going
  | succ n ih =>
    intro l h evs ds c hP
    cases l with
    | nil => exact .going
    | cons m rest =>
      rw [runSeq_succ moved_not_stopped]
      cases m with
      | pin q =>
        by_cases hd : q = .waitHigh ∨ ds ≠ []
        · rw [step_pin hq q hd]
          exact ih _ _ _ _ _ (k.pin q rest h _ _ hP)
        · rw [not_or, not_not] at hd
          rw [seqStep_unanswered (moved_seq ..) (answers_false.2 hd), runSeq_stopped rfl]
          exact .going
      | wait us =>
        rw [step_wait hq]
        exact ih _ _ _ _ _ (k.wait us rest h _ hP)
      | act a =>
        rw [step_act]
        exact ih _ _ _ _ _ (k.act a rest (s.moved ..) rfl rfl hP)
      | finish x =>
        rw [step_finish hq, runSeq_stopped rfl]
        exact .finish x rest h hP
      | raise e =>
        rw [step_raise hq, runSeq_stopped rfl]
        exact .raise e rest h hP

/-- The registers after a command: the host changes no more than DONE, REJ and DONE_IE (`HostTwin`), so that the run with
no host access tells the others. -/
theorem exec_endRegs {i : Instr} (hr : s.resets = []) (k : KeptBySteps s.regs s.cfg P)
    (h0 : P (procedureOf i) s.hid) (he : exec i s = .next t) : ∃ r, EndRegs s.regs P r ∧ t.regs.sameLocked r := by
  have hq : ({ s with host := { s.host with queue := [] } } : State).quiet := ⟨rfl, hr⟩
  have ht := HostTwin.runCommand hr s.host.queue (procedureOf i)
  rw [exec_eq] at he
  injection he with he
  refine ⟨_, ?_, he ▸ ht.locked⟩
  rw [State.runCommand, start_moved]
  exact runSeq_moved_endRegs hq k _ _ _ _ _ _ h0

end EndRegs

/-! ## Each result register has its commands (10_state.md R36, R37, R42 to R47, R57) -/

section Permitted

variable {p : Params} {i : Instr}

/-- The commands that sample presence (R36). -/
def samplesPresence (i : Instr) : Prop := i = .reset ∨ (∃ b m, i = .sendCommand b m) ∨ ∃ r a, i = .search r a

/-- The steps that the command i may come to: it samples presence, commits and searches only if it is a command that does,
and raises a pin failure only if the pin port can fail (log 21). -/
def Micro.permitted (p : Params) (i : Instr) : Micro → Prop
  | .pin _ => True
  | .wait _ => True
  | .act a =>
    (a = .latchPresence → samplesPresence i) ∧ ((Micro.act a).endsProcedure = true → ∃ r b, i = .search r b)
  | .finish .nothing => True
  | .finish .rxBit => i = .readBit ∨ i = .senseHigh ∨ i = .senseLow
  | .finish .rxByte => i = .readByte
  | .finish .searchState => ∃ r a, i = .search r a
  | .raise (.pinFailure _) => p.pinCanFail = true
  | .raise _ => True

theorem procedureOf_permitted (p : Params) (i : Instr) : ∀ m ∈ procedureOf i, m.permitted p i := by
  cases i
  case' sendCommand byte byMatch => cases byMatch
  all_goals
    simp [procedureOf, procReleaseBus, procDriveLow, procSenseHigh, procSenseLow, procWaitHigh, procReset, procReadBit,
      procWriteBit, procReadByte, procWriteByte, procMatchRom, procSkipRom, procSendCommand, procSearch, procIllegal,
      readSlot, writeSlot, resetSeq, waitForHigh, matchSeq, skipSeq, readByteSeq, writeByteSeq, Micro.permitted,
      Micro.endsProcedure, samplesPresence]

/-- An act goes on with permitted steps: one that ends the procedure is a point of SEARCH. -/
theorem permitted_next {a : Act} (ha : (Micro.act a).permitted p i) (s : State) :
    ∀ m ∈ a.next s, m.permitted p i := by
  obtain ⟨-, hs⟩ := ha
  cases a <;> simp only [Act.next]
  case' sendBits | recvBits | sendRom | searchEnter | searchPresence | searchStart | replay | confirm | walk | choose
    | validate => split
  all_goals
    simp_all [writeSlot, readSlot, twoRead, resetSeq, waitForHigh, writeByteSeq, Micro.permitted, Micro.endsProcedure,
      samplesPresence]

/-- A pin port that cannot fail answers with no error. -/
theorem pinCanFail_of_err {d : PinDraw} {drv : Bool} {r : PinReq} {c : Word} (h : d.answer p drv r = .err c) :
    p.pinCanFail = true := by
  by_contra hp
  have hf : d.fault p = none := by
    unfold PinDraw.fault
    split
    · rfl
    · exact if_neg hp
  cases r <;> simp only [PinDraw.answer, PinDraw.waitAnswer, hf, Option.elim] at h
  case waitHigh => split at h <;> cases h
  all_goals cases h

/-- The assertion of these statements: permitted steps, and a presence sample in the commands that take one. -/
def permittedPoint (p : Params) (i : Instr) (l : List Micro) (h : Hidden) : Prop :=
  (∀ m ∈ l, m.permitted p i) ∧ (h.presV = true → samplesPresence i)

theorem permittedPoint_kept (r : Regs) (p : Params) (i : Instr) : KeptBySteps r p (permittedPoint p i) where
  pin := by
    rintro q rest h d w ⟨hl, hp⟩
    refine ⟨?_, hp⟩
    cases ha : d.answer p h.drv q with
    | ok | level b | high => exact fun m hm => hl m (List.mem_cons_of_mem _ hm)
    | timeout => simp [stepAfter, Micro.permitted]
    | err c => simpa [stepAfter, Micro.permitted] using pinCanFail_of_err ha
  wait := fun _ _ _ _ ⟨hl, hp⟩ => ⟨fun m hm => hl m (List.mem_cons_of_mem _ hm), hp⟩
  act := by
    rintro a rest x - - ⟨hl, hp⟩
    have ha := hl (.act a) List.mem_cons_self
    refine ⟨fun m hm => ?_, fun hv => ?_⟩
    · rcases List.mem_append.1 hm with hm | hm
      · exact permitted_next ha x m hm
      · exact hl m (List.mem_cons_of_mem _ hm)
    · by_cases h1 : a = .clearPresV
      · subst h1; cases hv
      · by_cases h2 : a = .latchPresence
        · exact ha.1 h2
        · exact hp ((hid_presV a x h1 h2).1 ▸ hv)

/-- The registers that the command i leaves, beside those it started from. -/
def resultsOf (p : Params) (i : Instr) (r r' : Regs) : Prop :=
  r'.cmd = r.cmd ∧ r'.romid = r.romid ∧
  (i ≠ .readByte → r'.rxByte = r.rxByte) ∧
  (i ≠ .readBit → i ≠ .senseHigh → i ≠ .senseLow → r'.rxBit = r.rxBit) ∧
  (r'.err ≠ .pinFailure → r'.pinerr = r.pinerr) ∧
  (p.pinCanFail = false → r'.err ≠ .pinFailure) ∧
  ((∀ r a, i ≠ .search r a) →
    r'.found = false ∧ r'.saddr = r.saddr ∧ r'.sdisc = r.sdisc ∧ r'.sldi = r.sldi) ∧
  (i ≠ .reset → (∀ b m, i ≠ .sendCommand b m) → (∀ r a, i ≠ .search r a) → r'.presence = r.presence)

/-- A command that samples no presence has the PRESENCE of before. -/
theorem presence_of_not_sampled {h : Hidden} (r : Regs) (hp : h.presV = true → samplesPresence i) (h1 : i ≠ .reset)
    (h2 : ∀ b m, i ≠ .sendCommand b m) (h3 : ∀ r a, i ≠ .search r a) : (r.latchPresence h).presence = r.presence := by
  have hv : ¬h.presV = true := by
    intro hv
    rcases hp hv with e | ⟨b, m, e⟩ | ⟨r, a, e⟩
    · exact h1 e
    · exact h2 b m e
    · exact h3 r a e
  simp [hv]

theorem EndRegs.resultsOf {r r' : Regs} (hf : r.found = false) (he : r.err = .none)
    (k : EndRegs r (permittedPoint p i) r') : resultsOf p i r r' := by
  have hne : r.err ≠ .pinFailure := by simp [he]
  cases k with
  | going => exact ⟨rfl, rfl, fun _ => rfl, fun _ _ _ => rfl, fun _ => rfl, fun _ => hne, fun _ => ⟨hf, rfl, rfl, rfl⟩,
      fun _ _ _ => rfl⟩
  | finish c rest h hP =>
    obtain ⟨hl, hp⟩ := hP
    have hc := hl (.finish c) List.mem_cons_self
    have hpres := presence_of_not_sampled r hp
    cases c with
    | nothing => exact ⟨rfl, rfl, fun _ => rfl, fun _ _ _ => rfl, fun _ => rfl, fun _ => hne,
        fun _ => ⟨hf, rfl, rfl, rfl⟩, hpres⟩
    | rxBit =>
      have hc : i = .readBit ∨ i = .senseHigh ∨ i = .senseLow := hc
      exact ⟨rfl, rfl, fun _ => rfl, by tauto, fun _ => rfl, fun _ => hne, fun _ => ⟨hf, rfl, rfl, rfl⟩, hpres⟩
    | rxByte => exact ⟨rfl, rfl, fun h => absurd hc h, fun _ _ _ => rfl, fun _ => rfl, fun _ => hne,
        fun _ => ⟨hf, rfl, rfl, rfl⟩, hpres⟩
    | searchState =>
      obtain ⟨resume, alarm, hi⟩ := hc
      exact ⟨rfl, rfl, fun _ => rfl, fun _ _ _ => rfl, fun _ => rfl, fun _ => hne, fun h => absurd hi (h _ _), hpres⟩
  | raise e rest h hP =>
    obtain ⟨hl, hp⟩ := hP
    have hc := hl (.raise e) List.mem_cons_self
    have hpres := presence_of_not_sampled r hp
    cases e with
    | pinFailure c => exact ⟨rfl, rfl, fun _ => rfl, fun _ _ _ => rfl, fun h => absurd rfl h,
        fun h => absurd (hc.symm.trans h) (by decide), fun _ => ⟨rfl, rfl, rfl, rfl⟩, hpres⟩
    | busNotHigh | unexpectedResponse | checksumMismatch | illegalCommand =>
      exact ⟨rfl, rfl, fun _ => rfl, fun _ _ _ => rfl, fun _ => rfl, nofun, fun _ => ⟨rfl, rfl, rfl, rfl⟩, hpres⟩

end Permitted

/-- Settles O20: a command comes to the steps permitted to it only, and those that write a result register are permitted to
the commands of that register. -/
theorem resultRegistersHaveTheirCommands : Obligations.ResultRegistersHaveTheirCommands := by
  unfold Obligations.ResultRegistersHaveTheirCommands
  intro i s t hr ha he
  obtain ⟨-, herr, hfound, hpv⟩ := ha
  obtain ⟨r, hk, hl⟩ := exec_endRegs hr (permittedPoint_kept s.regs s.cfg i)
    ⟨procedureOf_permitted s.cfg i, by simp [hpv]⟩ he
  have h := hk.resultsOf hfound herr
  rw [hl.eq]
  exact h

/-! ## A Found outcome and R48 (43_search.md R242) -/

section Found

/-- Position l is the highest set bit of the mask d. -/
def topBit (d : Rom) (l : Nat) : Prop := d.getLsbD l = true ∧ ∀ j, l < j → d.getLsbD j = false

/-- The mask d and the index ldi of a walk that has come to position i: they meet 10_state.md R48 (a) and (b), and no bit
from i on is set. -/
def walkOk (i : Nat) (d : Rom) (ldi : BitVec 6) : Prop :=
  searchStateOk d ldi ∧ ∀ j, i ≤ j → d.getLsbD j = false

theorem searchStateOk_of_topBit {d : Rom} {ldi : BitVec 6} (h : topBit d ldi.toNat) : searchStateOk d ldi :=
  ⟨fun _ => h, fun h0 => by simp [topBit, h0] at h⟩

theorem walkOk_start : walkOk 0 0#64 0#6 := by
  simp [walkOk, searchStateOk]

/-- One position of the walk: both responses set its bit, and make it the index (R233, R234). -/
theorem walkOk.next {i : Nat} {d : Rom} {ldi : BitVec 6} (h : walkOk i d ldi) (hi : i < 64) (b : Bool) :
    walkOk (i + 1) (if b then assignBit d i true else d) (if b then BitVec.ofNat 6 i else ldi) := by
  obtain ⟨hs, hz⟩ := h
  cases b with
  | false => exact ⟨hs, fun j hj => hz j (by omega)⟩
  | true =>
    have habove : ∀ j, i < j → (assignBit d i true).getLsbD j = false := fun j hj => by
      rw [getLsbD_assignBit, if_neg (by omega), hz j (by omega)]
    refine ⟨searchStateOk_of_topBit ?_, habove⟩
    simp only [if_true, BitVec.toNat_ofNat, Nat.mod_eq_of_lt (show i < 2 ^ 6 by omega)]
    exact ⟨by rw [getLsbD_assignBit, if_pos ⟨rfl, hi⟩], habove⟩

/-- The re-derived index is the highest set bit below l, or 0 (R229). -/
theorem rederive_cases (d : Rom) (l : Nat) :
    (∃ k, k < l ∧ rederive d l = BitVec.ofNat 6 k ∧ d.getLsbD k = true ∧ ∀ j, k < j → j < l → d.getLsbD j = false) ∨
      rederive d l = 0#6 ∧ ∀ j, j < l → d.getLsbD j = false := by
  induction l with
  | zero => exact .inr ⟨rfl, nofun⟩
  | succ l ih =>
    rw [rederive]
    by_cases hl : d.getLsbD l = true
    · exact .inl ⟨l, by omega, if_pos hl, hl, fun j _ _ => by omega⟩
    · have hl' : d.getLsbD l = false := by simpa using hl
      rw [if_neg hl]
      rcases ih with ⟨k, hk, he, hb, hz⟩ | ⟨he, hz⟩
      · refine .inl ⟨k, by omega, he, hb, fun j h1 h2 => ?_⟩
        rcases Nat.lt_succ_iff_lt_or_eq.1 h2 with h | rfl
        · exact hz j h1 h
        · exact hl'
      · refine .inr ⟨he, fun j h2 => ?_⟩
        rcases Nat.lt_succ_iff_lt_or_eq.1 h2 with h | rfl
        · exact hz j h
        · exact hl'

/-- The flip at L (R231): the mask without its highest bit, and the re-derived index. -/
theorem walkOk_flip {d : Rom} {l : Nat} (h : topBit d l) (hl : l < 64) :
    walkOk (l + 1) (assignBit d l false) (rederive d l) := by
  have hbit : ∀ j, (assignBit d l false).getLsbD j = if j < l then d.getLsbD j else false := by
    intro j
    rw [getLsbD_assignBit]
    rcases Nat.lt_trichotomy j l with hj | rfl | hj
    · rw [if_neg (by omega), if_pos hj]
    · simp [hl]
    · rw [if_neg (by omega), if_neg (by omega), h.2 j hj]
  refine ⟨?_, fun j hj => by rw [hbit, if_neg (by omega)]⟩
  rcases rederive_cases d l with ⟨k, hk, he, hb, hz⟩ | ⟨he, hz⟩
  · refine searchStateOk_of_topBit ?_
    rw [he, BitVec.toNat_ofNat, Nat.mod_eq_of_lt (by omega)]
    refine ⟨by rw [hbit, if_pos hk, hb], fun j hj => ?_⟩
    rw [hbit]
    split
    · exact hz j hj ‹_›
    · rfl
  · have h0 : assignBit d l false = 0#64 := BitVec.eq_of_getLsbD_eq fun j _ => by
      rw [hbit]
      split
      · simp [hz j ‹_›]
      · simp
    exact ⟨fun h => absurd h0 h, fun _ => he⟩

/-- What holds at each point of a pass (43_search.md R227 to R239) with the search state of the registers r: at a point of
SEARCH, its assertion; before the two assignments to w_ldi and i that lie between points, the assertion behind them. -/
def passPoint (r : Regs) (p : Params) : List Micro → Hidden → Prop
  | [], _ => True
  | .pin _ :: rest, h => passPoint r p rest h
  | .wait _ :: rest, h => passPoint r p rest h
  | .finish c :: _, h => c = .searchState → searchStateOk h.wDisc h.wLdi ∧ crcValid p h.wAddr = true
  | .raise _ :: _, _ => True
  | .act (.searchEnter resume _) :: _, _ => resume = true → searchStateOk r.sdisc r.sldi
  | .act (.searchPresence resume _) :: _, _ => resume = true → topBit r.sdisc r.sldi.toNat
  | .act (.searchStart resume) :: _, _ => resume = true → topBit r.sdisc r.sldi.toNat
  | .act .replay :: _, h =>
    topBit r.sdisc r.sldi.toNat ∧ h.i ≤ r.sldi.toNat ∧ h.wLdi = rederive r.sdisc h.i
  | .act .replayWrite :: rest, h =>
    passPoint r p rest { h with wLdi := if r.sdisc.getLsbD h.i then BitVec.ofNat 6 h.i else h.wLdi }
  | .act .confirm :: _, h => topBit r.sdisc r.sldi.toNat ∧ h.wLdi = rederive r.sdisc r.sldi.toNat
  | .act .beginWalk :: _, h => topBit r.sdisc r.sldi.toNat ∧ h.wLdi = rederive r.sdisc r.sldi.toNat
  | .act .walk :: _, h => walkOk h.i h.wDisc h.wLdi
  | .act .choose :: _, h => h.i < 64 ∧ walkOk h.i h.wDisc h.wLdi
  | .act .nextPos :: rest, h => passPoint r p rest { h with i := countUp 64 h.i }
  | .act .validate :: _, h => searchStateOk h.wDisc h.wLdi
  | .act _ :: rest, h => passPoint r p rest h

variable {r : Regs} {p : Params}

/-- The assertions speak of w_addr, w_disc, w_ldi and i only. -/
theorem passPoint_congr (l : List Micro) : ∀ h h' : Hidden, h'.wAddr = h.wAddr → h'.wDisc = h.wDisc →
    h'.wLdi = h.wLdi → h'.i = h.i → passPoint r p l h → passPoint r p l h' := by
  induction l with
  | nil => intros; trivial
  | cons m rest ih =>
    intro h h' h1 h2 h3 h4 k
    cases m with
    | pin q => exact ih h h' h1 h2 h3 h4 k
    | wait us => exact ih h h' h1 h2 h3 h4 k
    | finish c => simpa only [passPoint, h1, h2, h3] using k
    | raise e => trivial
    | act a =>
      cases a
      case replayWrite =>
        exact ih { h with wLdi := if r.sdisc.getLsbD h.i then BitVec.ofNat 6 h.i else h.wLdi } _ h1 h2
          (by simp only [h3, h4]) h4 k
      case nextPos => exact ih { h with i := countUp 64 h.i } _ h1 h2 h3 (by simp only [h4]) k
      case replay | confirm | beginWalk | walk | choose | validate => simpa only [passPoint, h2, h3, h4] using k
      case searchEnter | searchPresence | searchStart => exact k
      all_goals exact ih h h' h1 h2 h3 h4 k

/-- Every act keeps the assertions. -/
theorem passPoint_act (a : Act) (rest : List Micro) (x : State) (k : passPoint x.regs x.cfg (.act a :: rest) x.hid) :
    passPoint x.regs x.cfg (a.next x ++ rest) (a.hid x) := by
  have hL : x.resumeAt < 64 := x.regs.sldi.isLt
  cases a
  case searchEnter resume alarm =>
    simp only [Act.next]
    split
    next => exact nofun
    next hx =>
      simp only [resetSeq, waitForHigh, List.cons_append, List.nil_append, passPoint]
      intro hr
      exact (k hr).1 (by simpa [hr] using hx)
  case searchPresence resume alarm =>
    simp only [Act.next]
    split
    next => exact k
    next => exact nofun
  case searchStart resume =>
    cases resume with
    | true => exact ⟨k rfl, Nat.zero_le _, rfl⟩
    | false => exact walkOk_start
  case replay =>
    obtain ⟨ht, hi, hw⟩ := k
    simp only [Act.next, Act.hid]
    split
    next hlt =>
      have hc : countUp 64 x.hid.i = x.hid.i + 1 := by simp only [countUp]; omega
      refine ⟨ht, ?_, ?_⟩
      · exact hc ▸ hlt
      · simp only [hc, rederive, hw]
    next hge =>
      have he : x.hid.i = x.regs.sldi.toNat := Nat.le_antisymm hi (Nat.le_of_not_lt hge)
      exact ⟨ht, he ▸ hw⟩
  case replayWrite => exact k
  case confirm =>
    obtain ⟨ht, hw⟩ := k
    simp only [Act.next, Act.hid]
    split
    next => exact ⟨ht, hw⟩
    next => trivial
  case beginWalk =>
    obtain ⟨ht, hw⟩ := k
    change walkOk (x.resumeAt + 1) _ x.hid.wLdi
    rw [hw]
    exact walkOk_flip ht hL
  case walk =>
    simp only [Act.next, Act.hid]
    split
    next hi => exact ⟨Nat.lt_succ_of_le hi, k⟩
    next => exact k.1
  case choose =>
    obtain ⟨hi, hw⟩ := k
    have hc : countUp 64 x.hid.i = x.hid.i + 1 := by simp only [countUp]; omega
    rw [hid_choose]
    simp only [Act.next]
    split
    next => trivial
    next =>
      change walkOk (countUp 64 x.hid.i) _ _
      rw [hc]
      exact hw.next hi _
  case nextPos => exact k
  case validate =>
    simp only [Act.next, Act.hid]
    split
    next hv => exact fun _ => ⟨k, hv⟩
    next => trivial
  case sendBits | recvBits | sendRom =>
    simp only [Act.next, Act.hid]
    split <;> exact k
  all_goals exact passPoint_congr rest x.hid _ rfl rfl rfl rfl k

theorem passPoint_kept (r : Regs) (p : Params) : KeptBySteps r p (passPoint r p) where
  pin := by
    intro q rest h d w k
    cases d.answer p h.drv q with
    | ok | level b | high => exact passPoint_congr rest h _ rfl rfl rfl rfl k
    | timeout | err c => trivial
  wait := fun _ rest h _ k => passPoint_congr rest h _ rfl rfl rfl rfl k
  act := by
    rintro a rest x rfl rfl k
    exact passPoint_act a rest x k

/-- A run that leaves FOUND set has ended by the `finish` of SEARCH, and its assertion holds of what was committed. -/
theorem EndRegs.found {r' : Regs} (hf : r.found = false) (k : EndRegs r (passPoint r p) r') (h : r'.found = true) :
    searchStateOk r'.sdisc r'.sldi ∧ crcValid p r'.saddr = true := by
  cases k with
  | going => simp [hf] at h
  | finish c rest x hP =>
    cases c with
    | searchState => exact hP rfl
    | nothing | rxBit | rxByte => exact absurd (hf.symm.trans h) (by decide)
  | raise e rest x _ => cases h

end Found

/-- Settles O51: the assertions of a pass (`passPoint`) hold at its start and are kept by every step. -/
theorem foundKeepsTheSearchStateInvariant : Obligations.FoundKeepsTheSearchStateInvariant := by
  unfold Obligations.FoundKeepsTheSearchStateInvariant
  intro resume alarm s t ha hr hok he hfound
  obtain ⟨-, -, hf, -⟩ := ha
  obtain ⟨r, hk, hl⟩ := exec_endRegs hr (passPoint_kept s.regs s.cfg) (i := .search resume alarm) hok he
  have hcfg : t.cfg = s.cfg := by
    rw [exec_eq] at he
    injection he with he
    rw [← he]
    exact runSeq_induct (fun u => u.cfg = s.cfg) (fun u hu h => (seqStep_cfg hu).trans h) _ _ rfl
  rw [hcfg, hl.saddr, hl.sdisc, hl.sldi]
  exact hk.found hf (hl.found ▸ hfound)

/-! ## The register map (20_memory.md R82, R83; 10_state.md R38, R49) -/

/-- The unmapped words are those from offset 0x30 on. -/
theorem regAt_none_of_le {off : Offset} (h : 0x30#6 ≤ off) : regAt off = none := by
  revert off
  decide

theorem regAt_status {off : Offset} : regAt off = some .status ↔ off.extractLsb' 2 4 = 0x1#4 := by
  revert off
  decide

theorem regAt_irqen {off : Offset} : regAt off = some .irqen ↔ off.extractLsb' 2 4 = 0x2#4 := by
  revert off
  decide

/-- The words of RX and PINERR, which the host cannot write, and the unmapped ones. -/
theorem regAt_readOnly {off : Offset} :
    (off.extractLsb' 2 4 = 0x3#4 ∨ off.extractLsb' 2 4 = 0x4#4 ∨ 0xC#4 ≤ off.extractLsb' 2 4) ↔
      regAt off = some .rx ∨ regAt off = some .pinerr ∨ regAt off = none := by
  revert off
  decide

/-- The words of CMD and of the operand registers. -/
theorem regAt_locked {off : Offset} :
    (off.extractLsb' 2 4 = 0x0#4 ∨ 0x5#4 ≤ off.extractLsb' 2 4 ∧ off.extractLsb' 2 4 ≤ 0xB#4) ↔
      (regAt off).any Reg.locked = true := by
  revert off
  decide

/-- The words of the registers that the host may write at any time, and the unmapped ones. -/
theorem regAt_not_locked {off : Offset} :
    (0x1#4 ≤ off.extractLsb' 2 4 ∧ off.extractLsb' 2 4 ≤ 0x4#4 ∨ 0xC#4 ≤ off.extractLsb' 2 4) ↔
      (regAt off).any Reg.locked = false := by
  revert off
  decide

section access

variable (s : State) {off : Offset} (v : Word) {x : Reg}

theorem readWord_of_some (h : regAt off = some x) : s.readWord off = s.readReg x := by
  simp only [State.readWord, h]

theorem readWord_of_none (h : regAt off = none) : s.readWord off = 0#32 := by
  simp only [State.readWord, h]

theorem writeWord_of_none (h : regAt off = none) : s.writeWord off v = s := by
  simp only [State.writeWord, h]

/-- A write is stored while no command runs, and at any time if the register is not locked. -/
theorem writeWord_stored (h : regAt off = some x) (hx : (s.busy && x.locked) = false) :
    s.writeWord off v = { s with regs := s.regs.store v x } := by
  simp only [State.writeWord, h, hx, Bool.false_eq_true, if_false]

/-- A write to a locked register while a command runs only sets REJ. -/
theorem writeWord_rejected (hb : s.busy = true) (h : (regAt off).any Reg.locked = true) :
    s.writeWord off v = { s with regs := { s.regs with rej := true } } := by
  obtain ⟨x, hx, hl⟩ := (Option.any_eq_true _ _).1 h
  simp only [State.writeWord, hx, hb, hl, Bool.and_self, if_true, Regs.reject]

theorem writeStatus_eq (r : Regs) : r.writeStatus v =
    { r with done := if v.getLsbD 1 then false else r.done, rej := if v.getLsbD 4 then false else r.rej } := by
  have clear (old w1c : Bool) : (old && !w1c) = if w1c then false else old := by cases w1c <;> simp
  simp only [Regs.writeStatus, clear]

theorem writeWord_status (h : regAt off = some .status) : s.writeWord off v =
    { s with regs := { s.regs with
        done := if v.getLsbD 1 then false else s.regs.done
        rej := if v.getLsbD 4 then false else s.regs.rej } } := by
  rw [writeWord_stored s v h (Bool.and_false _)]
  simp only [Regs.store, writeStatus_eq]

theorem writeWord_irqen (h : regAt off = some .irqen) :
    s.writeWord off v = { s with regs := { s.regs with doneIe := v.getLsbD 0 } } :=
  writeWord_stored s v h (Bool.and_false _)

theorem writeWord_readOnly (h : regAt off = some .rx ∨ regAt off = some .pinerr ∨ regAt off = none) :
    s.writeWord off v = s := by
  rcases h with h | h | h
  · exact writeWord_stored s v h (Bool.and_false _)
  · exact writeWord_stored s v h (Bool.and_false _)
  · exact writeWord_of_none s v h

end access

/-! ## The fields of the words read (10_state.md R33, R41, R42, R47, R49) -/

section fields

variable (s : State)

/-- STATUS from its flags, the fields above them apart. -/
theorem statusWord_eq : s.statusWord =
    (((((((0#21 ++ s.regs.err.code ++ 0#2 : BitVec 26).concat s.hid.drv).concat s.regs.rej).concat s.regs.found).concat
      s.regs.presence).concat s.regs.done).concat s.busy : BitVec 32) := rfl

/-- The bits of STATUS below ERR. -/
theorem statusWord_flags :
    s.statusWord.getLsbD 0 = s.busy ∧ s.statusWord.getLsbD 1 = s.regs.done ∧
      s.statusWord.getLsbD 2 = s.regs.presence ∧ s.statusWord.getLsbD 3 = s.regs.found ∧
      s.statusWord.getLsbD 4 = s.regs.rej ∧ s.statusWord.getLsbD 5 = s.hid.drv := by
  simp only [statusWord_eq, BitVec.getLsbD_concat_zero, BitVec.getLsbD_concat_succ, and_self]

/-- A field above bit 0 is a field of the bits above it. -/
theorem extractLsb'_concat_succ {w : Nat} (x : BitVec w) (b : Bool) (start len : Nat) :
    (x.concat b).extractLsb' (start + 1) len = x.extractLsb' start len :=
  BitVec.extractLsb'_append_eq_of_le (Nat.le_add_left 1 start)

/-- The fields of STATUS from bit 6 on. -/
theorem statusWord_fields :
    s.statusWord.extractLsb' 6 2 = 0#2 ∧ s.statusWord.extractLsb' 8 3 = s.regs.err.code ∧
      s.statusWord.extractLsb' 11 21 = 0#21 := by
  simp only [statusWord_eq, extractLsb'_concat_succ]
  exact ⟨BitVec.extractLsb'_append_eq_right,
    (BitVec.extractLsb'_append_eq_of_le (by decide)).trans BitVec.extractLsb'_append_eq_right,
    (BitVec.extractLsb'_append_eq_of_le (by decide)).trans BitVec.extractLsb'_append_eq_left⟩

theorem ErrCode.code_inj {a b : ErrCode} : a = b ↔ a.code = b.code := by
  cases a <;> cases b <;> decide

theorem readReg_irqen :
    (s.readReg .irqen).getLsbD 0 = s.regs.doneIe ∧ (s.readReg .irqen).extractLsb' 1 31 = 0#31 :=
  ⟨BitVec.getLsbD_concat_zero, BitVec.extractLsb'_append_eq_left⟩

theorem readReg_rx :
    (s.readReg .rx).extractLsb' 0 8 = s.regs.rxByte ∧ (s.readReg .rx).getLsbD 8 = s.regs.rxBit ∧
      (s.readReg .rx).extractLsb' 9 23 = 0#23 :=
  ⟨BitVec.extractLsb'_append_eq_right, BitVec.getLsbD_append.trans BitVec.getLsbD_concat_zero,
    (BitVec.extractLsb'_append_eq_of_le (by decide)).trans BitVec.extractLsb'_append_eq_left⟩

theorem readReg_sldi :
    (s.readReg .sldi).extractLsb' 0 6 = s.regs.sldi ∧ (s.readReg .sldi).extractLsb' 6 26 = 0#26 :=
  ⟨BitVec.extractLsb'_append_eq_right, BitVec.extractLsb'_append_eq_left⟩

theorem getLsbD_lowHalf (v : Rom) {j : Nat} (h : j < 32) : (lowHalf v).getLsbD j = v.getLsbD j := by
  simp [lowHalf, h]

theorem getLsbD_highHalf (v : Rom) {j : Nat} (h : j < 32) : (highHalf v).getLsbD j = v.getLsbD (32 + j) := by
  simp [highHalf, h]

theorem reset_readReg (x : Reg) : State.reset.readReg x = 0#32 := by
  cases x <;> decide

end fields

/-- Settles O7: STATUS reads `State.statusWord`, field by field, and a write is stored as `writeWord_status` says. -/
theorem statusRegisterLayout : Obligations.StatusRegisterLayout := by
  unfold Obligations.StatusRegisterLayout
  intro s v
  have hat : regAt 0x04#6 = some .status := rfl
  obtain ⟨h6, herr, h11⟩ := statusWord_fields s
  have hkind (e : ErrCode) : s.regs.err = e ↔ s.statusWord.extractLsb' 8 3 = e.code := by
    rw [herr, ErrCode.code_inj]
  obtain ⟨h0, h1, h2, h3, h4, h5⟩ := statusWord_flags s
  rw [readWord_of_some s hat, readWord_of_some _ hat, writeWord_status s v hat]
  exact ⟨h0, h1, h2, h3, h4, h5, h6, hkind _, hkind _, hkind _, hkind _, hkind _, hkind _, h11, reset_readReg _, rfl⟩

/-! ## REJ (10_state.md R38) -/

theorem store_rej (r : Regs) (v : Word) {x : Reg} (h : x ≠ .status) : (r.store v x).rej = r.rej := by
  cases x with
  | status => exact absurd rfl h
  | cmd | irqen | rx | pinerr | romidLo | romidHi | saddrLo | saddrHi | sdiscLo | sdiscHi | sldi => rfl

/-- A write that is not rejected keeps REJ, a W1C of STATUS apart. -/
theorem store_rej_le (r : Regs) (v : Word) (x : Reg) (h : r.rej = false) : (r.store v x).rej = false := by
  by_cases hx : x = .status
  · subst hx
    simp [Regs.store, Regs.writeStatus, h]
  · rw [store_rej r v hx, h]

/-- REJ stays 0 at a write to a word that is not locked. -/
theorem writeWord_rej_false {s : State} {off : Offset} (v : Word) (h : (regAt off).any Reg.locked = false)
    (hr : s.regs.rej = false) : (s.writeWord off v).regs.rej = false := by
  cases hat : regAt off with
  | none => rwa [writeWord_of_none s v hat]
  | some x =>
    have hx : x.locked = false := by simpa [hat] using h
    rw [writeWord_stored s v hat (by simp [hx])]
    exact store_rej_le _ v x hr

/-- REJ stays 1 at every write but a W1C of STATUS. -/
theorem writeWord_rej_true {s : State} (off : Offset) (v : Word) (hr : s.regs.rej = true) :
    (s.writeWord off v).regs.rej = !(off.extractLsb' 2 4 == 0x1#4 && v.getLsbD 4) := by
  by_cases hst : regAt off = some .status
  · simp [writeWord_status s v hst, regAt_status.1 hst, hr]
  · have hi : (off.extractLsb' 2 4 == 0x1#4) = false := beq_false_of_ne (mt regAt_status.2 hst)
    rw [hi, Bool.false_and, Bool.not_false]
    cases hat : regAt off with
    | none => rwa [writeWord_of_none s v hat]
    | some x =>
      cases hx : s.busy && x.locked with
      | false =>
        rw [writeWord_stored s v hat hx]
        exact (store_rej _ v fun h => hst (h ▸ hat)).trans hr
      | true =>
        obtain ⟨hb, hl⟩ := (Bool.and_eq_true _ _).mp hx
        rw [writeWord_rejected s v hb (by simpa [hat] using hl)]

theorem commit_rej (r : Regs) (h : Hidden) (c : Commit) : (r.commit h c).rej = r.rej := by cases c <;> rfl

theorem recordPinErr_rej (r : Regs) (e : CmdError) : (r.recordPinErr e).rej = r.rej := by cases e <;> rfl

/-- No step of a command that the host leaves alone touches REJ. -/
theorem seqStep_rej {s : State} (hq : s.quiet) : (seqStep s).regs.rej = s.regs.rej := by
  cases hs : s.seq with
  | idle => simp only [seqStep, hs]
  | await r rest => simp only [seqStep, hs]
  | run l =>
    cases l with
    | nil => simp only [seqStep, hs]
    | cons m rest =>
      cases m with
      | pin r =>
        rw [seqStep_eq_pin hs, State.pinStep]
        split
        · rw [State.answeredStep, afterCycles_quiet (by exact hq)]
          rfl
        · rfl
      | wait us => rw [seqStep_eq_wait hs, State.waitStep, afterCycles_quiet hq]; rfl
      | act a => rw [seqStep_eq_act hs]; rfl
      | finish c => rw [seqStep_eq_finish hs, afterCycles_quiet hq]; exact commit_rej ..
      | raise e => rw [seqStep_eq_raise hs, afterCycles_quiet hq]; exact recordPinErr_rej ..

/-- Settles O8: the map says which words are locked; a rejected write is `writeWord_rejected`, and REJ is kept by all else
but a W1C of STATUS. -/
theorem lockedWritesAreRejectedWhileBusy : Obligations.LockedWritesAreRejectedWhileBusy := by
  unfold Obligations.LockedWritesAreRejectedWhileBusy
  intro s off v
  exact ⟨fun hb => ⟨fun h => writeWord_rejected s v hb (regAt_locked.1 h),
      fun h hr => writeWord_rej_false v (regAt_not_locked.1 h) hr⟩,
    fun hr => ⟨writeWord_rej_true off v hr, hr, fun hq => (seqStep_rej hq).trans hr⟩⟩

/-! ## Reserved bits, operands, the interrupt, and reset -/

/-- Settles O9, register by register. -/
theorem reservedBitsReadZeroAndIgnoreWrites : Obligations.ReservedBitsReadZeroAndIgnoreWrites := by
  unfold Obligations.ReservedBitsReadZeroAndIgnoreWrites
  intro s v w
  obtain ⟨h6, -, h11⟩ := statusWord_fields s
  refine ⟨fun off h => ?_, h6, h11, (readReg_irqen s).2, (readReg_rx s).2.2, (readReg_sldi s).2, ?_, ?_,
    writeWord_readOnly s v (.inl rfl), writeWord_readOnly s v (.inr (.inl rfl)), ?_⟩
  · have hat := regAt_none_of_le h
    exact ⟨readWord_of_none s hat, writeWord_of_none s v hat⟩
  · intro h1 h4
    rw [writeWord_status s v rfl, writeWord_status s w rfl, h1, h4]
  · intro h0
    rw [writeWord_irqen s v rfl, writeWord_irqen s w rfl, h0]
  · intro h
    have hat : regAt 0x2C#6 = some .sldi := rfl
    simp only [State.writeWord, hat, Regs.store, h]

/-- Settles O11: what `State.readReg` and `Regs.store` say of each register. -/
theorem operandRegistersHoldHostWrites : Obligations.OperandRegistersHoldHostWrites := by
  unfold Obligations.OperandRegistersHoldHostWrites
  intro s v
  obtain ⟨hbyte, hbit, -⟩ := readReg_rx s
  refine ⟨rfl, (readReg_irqen s).1, hbyte, hbit, rfl, (readReg_sldi s).1, fun j hj => ?_, writeWord_irqen s v rfl,
    fun hb => ?_⟩
  · exact ⟨getLsbD_lowHalf _ hj, getLsbD_highHalf _ hj, getLsbD_lowHalf _ hj, getLsbD_highHalf _ hj,
      getLsbD_lowHalf _ hj, getLsbD_highHalf _ hj⟩
  · have stored (off : Offset) (x : Reg) (h : regAt off = some x) :
        s.writeWord off v = { s with regs := s.regs.store v x } := writeWord_stored s v h (by simp [hb])
    exact ⟨stored _ .romidLo rfl, stored _ .romidHi rfl, stored _ .saddrLo rfl, stored _ .saddrHi rfl,
      stored _ .sdiscLo rfl, stored _ .sdiscHi rfl, stored _ .sldi rfl⟩

/-- Settles O12: DONE and DONE_IE are the two bits read, and each of the three events clears one of them. -/
theorem interruptIsDoneAndEnable : Obligations.InterruptIsDoneAndEnable := by
  unfold Obligations.InterruptIsDoneAndEnable
  intro s v
  obtain ⟨-, hdone, -⟩ := statusWord_flags s
  refine ⟨?_, fun h => ?_, fun h => ?_, fun h => ?_, rfl⟩
  · rw [readWord_of_some s (x := .status) rfl, readWord_of_some s (x := .irqen) rfl, (readReg_irqen s).1]
    exact congrArg (· && s.regs.doneIe) hdone.symm
  · rw [writeWord_status s v rfl]
    simp only [State.irq, h, if_true, Bool.false_and]
  · rw [writeWord_irqen s v rfl]
    simp only [State.irq, h, Bool.and_false]
  · rw [writeWord_irqen s v rfl]
    simp only [State.irq, h, Bool.and_true]

/-- Settles O13: each register reads 0 (`reset_readReg`), and so does an unmapped word. -/
theorem resetValues : Obligations.ResetValues := by
  unfold Obligations.ResetValues
  refine ⟨fun off => ?_, rfl, rfl, rfl⟩
  cases hat : regAt off with
  | none => exact readWord_of_none _ hat
  | some x => exact (readWord_of_some _ hat).trans (reset_readReg x)

/-! ## The line while the engine drives it (10_state.md R51) -/

/-- A driven line is low, whatever the bus agent does. -/
@[simp] theorem lineHigh_driven (d : PinDraw) : d.lineHigh true = false := by simp [PinDraw.lineHigh]

/-- Settles O26: the three sense requests see the level of `lineHigh_driven`. -/
theorem drivenLineReadsLow : Obligations.DrivenLineReadsLow := by
  unfold Obligations.DrivenLineReadsLow
  intro d p h
  refine ⟨?_, ?_, ?_⟩ <;> simp [PinDraw.answer, PinDraw.waitAnswer, h]

/-! ## An engine that the port holds (10_state.md R50; logs 2, 9) -/

/-- A running engine at a request with no draw to come issues it and is held: the run of its step stops there. -/
theorem step_unanswered {s : State} {r : PinReq} {rest : List Micro} (hs : s.seq = .run (.pin r :: rest))
    (ha : s.answers r = false) : step s = .next (s.awaitAnswer r rest) := by
  have hrun : s.resumeStep = runSeq (stepBound - 1) (seqStep s) := runSeq_succ (stopped_run hs) _
  rw [seqStep_unanswered hs ha, runSeq_stopped rfl] at hrun
  simp only [step, hs, hrun]

section held

variable {s : State} {r : PinReq} {rest : List Micro}

theorem step_held (hs : s.seq = .await r rest) : step s = .next s.heldStep := by
  simp only [step, hs]

/-- With no reset to come, a held engine lets a cycle pass while the host has nothing to do before the end. -/
theorem heldStep_waits (hr : s.resets = [])
    (hh : s.host.queue = [] ∨ ∃ op queue, s.host.queue = ⟨.whenIdle, op⟩ :: queue) : s.heldStep = s.tick := by
  have ht : s.resetOrTick = s.tick := by simp only [State.resetOrTick, hr]
  rcases hh with hh | ⟨op, queue, hh⟩ <;> simp only [State.heldStep, hh, ht]

/-- With no reset to come, the access of a held engine's host takes effect at its cycle. -/
theorem heldStep_access {c : Nat} {op : HostOp} {queue : List Input} (hr : s.resets = [])
    (hh : s.host.queue = ⟨.atCycle c, op⟩ :: queue) : s.heldStep = (s.takeInput (.atCycle c) queue).access op := by
  have hn : s.resetBy (max s.now c) = none := by simp only [State.resetBy, hr]
  simp only [State.heldStep, hh, hn]

end held

/-- Settles O25: the request is issued by `step_unanswered`; a held engine waits by `heldStep_waits`, and each access has
the effect that the register map gives it. -/
theorem silentPortHoldsTheEngine : Obligations.SilentPortHoldsTheEngine := by
  unfold Obligations.SilentPortHoldsTheEngine
  refine ⟨fun s r rest hs hne hd => ⟨_, step_unanswered hs (answers_false.2 ⟨hne, hd⟩), rfl, rfl⟩, ?_⟩
  intro s r rest hs hr
  have hb : s.busy = true := by simp only [State.busy, hs]
  have hbit : (s.readWord 0x04#6).getLsbD 0 = s.busy := (statusWord_flags s).1
  rw [step_held hs]
  refine ⟨hbit.trans hb, fun hh => congrArg _ (heldStep_waits hr hh),
    fun c off queue hh => congrArg _ (heldStep_access hr hh), fun c off w queue hh => ?_⟩
  rw [heldStep_access hr hh]
  exact ⟨fun h => congrArg _ (writeWord_rejected _ w hb (regAt_locked.1 h)),
    fun h => congrArg _ (writeWord_status _ w (regAt_status.2 h)),
    fun h => congrArg _ (writeWord_irqen _ w (regAt_irqen.2 h)),
    fun h => congrArg _ (writeWord_readOnly _ w (regAt_readOnly.1 h))⟩

end Sys2Proof.Machine
end

section
/-!
PROOFS. The statements of 20_memory.md: what an access reaches (R82, R83), and when the results of a command become
visible (R89, R90).
-/

namespace Sys2Proof.Machine

/-! ## The word an access reaches (R82, R83) -/

/-- The register map sees offset bits 5:2 only. -/
theorem regAt_congr {off off' : Offset} (h : off.extractLsb' 2 4 = off'.extractLsb' 2 4) : regAt off = regAt off' := by
  unfold regAt
  rw [h]

/-- Settles O10: reads and writes go through the register map (`regAt_congr`), and a read appends to what the host has
read. -/
theorem accessesReachWholeWords : Obligations.AccessesReachWholeWords := by
  unfold Obligations.AccessesReachWholeWords
  intro s off off' v
  refine ⟨fun h => ?_, rfl, rfl, rfl, rfl, rfl⟩
  have hat := regAt_congr h
  exact ⟨by simp only [State.readWord, hat], by simp only [State.writeWord, hat]⟩

/-! ## When the results become visible (R89, R90) -/

/-- The sequencer does not move where it has no step to take. -/
theorem seqStep_stopped {s : State} (hs : s.stopped = true) : seqStep s = s := by
  rcases stopped_cases hs with hi | hr | hh
  · simp only [seqStep, hi]
  · simp only [seqStep, hr]
  · obtain ⟨r, rest, ha⟩ := held_iff.1 hh
    simp only [seqStep, ha]

/-- A step that does not end the command leaves to the host all that changes in the registers. The steps that write
results, `finish`, `raise` and a block reset, leave the sequencer idle. -/
theorem seqStep_sameLocked {s : State} (hb : (seqStep s).busy = true) : (seqStep s).regs.sameLocked s.regs := by
  cases hs : s.stopped with
  | true => rw [seqStep_stopped hs]; exact .refl _
  | false =>
    obtain ⟨m, rest, hm⟩ := not_stopped_run hs
    have hstep := seqStep_cases hm
    generalize seqStep s = u at hstep hb ⊢
    cases hstep with
    | pin t q w _ h => exact h.locked
    | wait t us _ h => exact h.locked
    | silent q _ _ _ => exact .refl _
    | act a _ => exact .refl _
    | reset t r _ _ _ => cases hb
    | finish t c _ _ => cases hb
    | raise t e _ _ => cases hb

/-- Settles O19: every other register is one that no host access can change while a command runs
(`seqStep_sameLocked`). -/
theorem resultsAppearOnlyAtTheEnd : Obligations.ResultsAppearOnlyAtTheEnd := by
  unfold Obligations.ResultsAppearOnlyAtTheEnd
  intro s _ hb
  exact (seqStep_sameLocked hb).eq

end Sys2Proof.Machine
end

section
/-!
PROOFS. The statements of 30_encoding.md: the decoder and the encoder (R101 to R112), acceptance (R114), the end of
every command (R116), and the host's pseudo-instructions (R113).
-/

namespace Sys2Proof.Machine

/-! ## The fields of a command word (30_encoding.md R101 to R105) -/

section fields

variable (byte : Byte) (bit byMatch alarm resume : Bool) (op : BitVec 4)

/-- A command word from its flags, the bytes above them apart. -/
theorem packWord_eq : packWord byte bit byMatch alarm resume op =
    ((((0#16 ++ byte : BitVec 24).concat bit).concat byMatch).concat alarm).concat resume ++ op := rfl

@[simp] theorem packWord_op : Word.op (packWord byte bit byMatch alarm resume op) = op :=
  BitVec.extractLsb'_append_eq_right

/-- A bit above OP. -/
theorem packWord_getLsbD (n : Nat) : (packWord byte bit byMatch alarm resume op).getLsbD (n + 4) =
    (((((0#16 ++ byte : BitVec 24).concat bit).concat byMatch).concat alarm).concat resume).getLsbD n := by
  rw [packWord_eq, BitVec.getLsbD_append, if_neg (by omega), Nat.add_sub_cancel]

@[simp] theorem packWord_resume : Word.resume (packWord byte bit byMatch alarm resume op) = resume := by
  rw [Word.resume, packWord_getLsbD (n := 0), BitVec.getLsbD_concat_zero]

@[simp] theorem packWord_alarm : Word.alarm (packWord byte bit byMatch alarm resume op) = alarm := by
  rw [Word.alarm, packWord_getLsbD (n := 1), BitVec.getLsbD_concat_succ, BitVec.getLsbD_concat_zero]

@[simp] theorem packWord_byMatch : Word.byMatch (packWord byte bit byMatch alarm resume op) = byMatch := by
  rw [Word.byMatch, packWord_getLsbD (n := 2)]
  simp only [BitVec.getLsbD_concat_succ, BitVec.getLsbD_concat_zero]

@[simp] theorem packWord_bit : Word.bit (packWord byte bit byMatch alarm resume op) = bit := by
  rw [Word.bit, packWord_getLsbD (n := 3)]
  simp only [BitVec.getLsbD_concat_succ, BitVec.getLsbD_concat_zero]

/-- A field above the flags. -/
theorem packWord_extractLsb' (n len : Nat) : (packWord byte bit byMatch alarm resume op).extractLsb' (n + 8) len =
    (0#16 ++ byte : BitVec 24).extractLsb' n len := by
  rw [packWord_eq, BitVec.extractLsb'_append_eq_of_le (by omega), show n + 8 - 4 = n + 3 + 1 by omega]
  simp only [extractLsb'_concat_succ]

@[simp] theorem packWord_byte : Word.byte (packWord byte bit byMatch alarm resume op) = byte :=
  (packWord_extractLsb' ..).trans BitVec.extractLsb'_append_eq_right

@[simp] theorem packWord_rsvd : Word.rsvd (packWord byte bit byMatch alarm resume op) = 0#16 :=
  (packWord_extractLsb' (n := 8) ..).trans BitVec.extractLsb'_append_eq_left

end fields

section parts

variable (rsvd : BitVec 16) (low : BitVec 12) (op : BitVec 4)

/-! A command word from RSVD, the operand bits and OP. -/

theorem append_rsvd : Word.rsvd (rsvd ++ low ++ op : BitVec 32) = rsvd :=
  (BitVec.extractLsb'_append_eq_of_le (by decide)).trans BitVec.extractLsb'_append_eq_left

theorem append_low : (rsvd ++ low ++ op : BitVec 32).extractLsb' 4 12 = low :=
  (BitVec.extractLsb'_append_eq_of_le (by decide)).trans BitVec.extractLsb'_append_eq_right

theorem append_op : Word.op (rsvd ++ low ++ op : BitVec 32) = op := BitVec.extractLsb'_append_eq_right

end parts

/-- The mask 0xFFFF000F of the opcode table leaves RSVD and OP. -/
theorem and_rowMask (w : Word) : w &&& 0xFFFF000F#32 = (Word.rsvd w ++ 0x000#12 ++ Word.op w : BitVec 32) := by
  have hw : w = (Word.rsvd w ++ w.extractLsb' 4 12 ++ Word.op w : BitVec 32) := by
    have h1 : (Word.rsvd w ++ w.extractLsb' 4 12 : BitVec 28) = w.extractLsb' 4 28 :=
      BitVec.extractLsb'_append_extractLsb'_eq_extractLsb' rfl
    have h2 : (w.extractLsb' 4 28 ++ Word.op w : BitVec 32) = w.extractLsb' 0 32 :=
      BitVec.extractLsb'_append_extractLsb'_eq_extractLsb' rfl
    rw [h1, h2, BitVec.extractLsb'_eq_self]
  have hm : 0xFFFF000F#32 = (BitVec.allOnes 16 ++ 0x000#12 ++ BitVec.allOnes 4 : BitVec 32) := by decide
  conv_lhs => rw [hw, hm]
  rw [BitVec.and_append, BitVec.and_append, BitVec.and_allOnes, BitVec.and_zero, BitVec.and_allOnes]

/-! ## The decoder, by the fields it reads (30_encoding.md R107, R108, R110) -/

section decode

variable {w : Word}

theorem decode_of_rsvd (h : Word.rsvd w = 0#16) : decode w = decodeOp w := if_pos h

theorem decode_of_op_zero (h : Word.op w = 0x0#4) : decode w = .illegalOp0 (w.extractLsb' 4 28) := by
  unfold decode
  rw [decodeOp, h]
  split <;> rfl

theorem decode_of_op_fifteen (h : Word.op w = 0xF#4) : decode w = .illegalOpF (w.extractLsb' 4 28) := by
  unfold decode
  rw [decodeOp, h]
  split <;> rfl

theorem decode_of_rsvd_ne (hr : Word.rsvd w ≠ 0#16) (h0 : Word.op w ≠ 0x0#4) (hf : Word.op w ≠ 0xF#4) :
    decode w = .illegalRsvd (Word.rsvd w) (w.extractLsb' 4 12) (Word.op w) := by
  rw [decode, if_neg hr, if_neg h0, if_neg hf]

/-- RSVD nonzero is ILLEGAL, whatever OP is. -/
theorem decode_isIllegal_of_rsvd_ne (hr : Word.rsvd w ≠ 0#16) : (decode w).isIllegal = true := by
  by_cases h0 : Word.op w = 0x0#4
  · rw [decode_of_op_zero h0]; rfl
  · by_cases hf : Word.op w = 0xF#4
    · rw [decode_of_op_fifteen hf]; rfl
    · rw [decode_of_rsvd_ne hr h0 hf]; rfl

end decode

/-- Settles O3: `and_rowMask` for the mask, `decode_isIllegal_of_rsvd_ne` for RSVD, and the row of `decodeOp` for each
OP. -/
theorem decodeFollowsTheOpcodeMap : Obligations.DecodeFollowsTheOpcodeMap := by
  unfold Obligations.DecodeFollowsTheOpcodeMap
  intro w
  refine ⟨fun op => ?_, decode_isIllegal_of_rsvd_ne, fun hr => ?_⟩
  · have hz : (0#28 ++ op : BitVec 32) = (0#16 ++ 0x000#12 ++ op : BitVec 32) := rfl
    change _ ↔ Word.rsvd w = 0#16 ∧ Word.op w = op
    rw [and_rowMask, hz]
    refine ⟨fun h => ⟨?_, ?_⟩, fun ⟨hr, ho⟩ => by rw [hr, ho]⟩
    · simpa only [append_rsvd] using congrArg Word.rsvd h
    · simpa only [append_op] using congrArg Word.op h
  · rw [decode_of_rsvd hr]
    and_intros
    all_goals
      intro ho
      rw [decodeOp, Word.op, ho]
      rfl

/-- Settles O2: the decoder reads back each field of `packWord`, and each part of an illegal word. -/
theorem decodeEncodeAgree : Obligations.DecodeEncodeAgree := by
  unfold Obligations.DecodeEncodeAgree
  intro i hi
  cases i
  case illegalOp0 x =>
    rw [encode, decode_of_op_zero BitVec.extractLsb'_append_eq_right, BitVec.extractLsb'_append_eq_left]
  case illegalOpF x =>
    rw [encode, decode_of_op_fifteen BitVec.extractLsb'_append_eq_right, BitVec.extractLsb'_append_eq_left]
  case illegalRsvd rsvd low op =>
    simp only [Instr.wf, Bool.and_eq_true, bne_iff_ne] at hi
    obtain ⟨⟨hr, h0⟩, hf⟩ := hi
    rw [encode, decode_of_rsvd_ne (by rwa [append_rsvd]) (by rwa [append_op]) (by rwa [append_op]), append_rsvd,
      append_low, append_op]
  all_goals simp [encode, packOp, decode_of_rsvd, decodeOp]

/-- An illegal command runs the procedure of R108, whatever makes it illegal. -/
theorem procedureOf_illegal {i : Instr} (h : i.isIllegal = true) : procedureOf i = procIllegal := by
  cases i
  case illegalOp0 | illegalOpF | illegalRsvd => rfl
  all_goals cases h

/-- Settles O4: illegal commands run the same procedure, and of the other rows four read fields besides OP. -/
theorem unusedFieldsAreIgnored : Obligations.UnusedFieldsAreIgnored := by
  unfold Obligations.UnusedFieldsAreIgnored
  refine ⟨fun v w s hv hw => ?_, fun v w hv hw ho h0 hf hbit hbyte hmatch hsearch => ?_⟩
  · rw [exec_eq, exec_eq, procedureOf_illegal hv, procedureOf_illegal hw]
  · rw [decode_of_rsvd hv, decode_of_rsvd hw]
    have op_eq {n : Nat} (h : (Word.op v).toNat = n) : v.extractLsb' 0 4 = BitVec.ofNat 4 n := by
      rw [← h, BitVec.ofNat_toNat, BitVec.setWidth_eq]
      rfl
    unfold decodeOp
    rw [show Word.op w = Word.op v from ho.symm]
    generalize hn : (Word.op v).toNat = n
    split
    case h_8 => exact congrArg Instr.writeBit (hbit (op_eq hn))
    case h_10 => exact congrArg Instr.writeByte (hbyte (.inl (op_eq hn)))
    case h_13 => exact congrArg₂ Instr.sendCommand (hbyte (.inr (op_eq hn))) (hmatch (op_eq hn))
    case h_14 =>
      obtain ⟨hr, ha⟩ := hsearch (op_eq hn)
      exact congrArg₂ Instr.search hr ha
    case h_15 => exact absurd (op_eq hn) hf
    case h_16 =>
      have hne : n ≠ 0 := fun h => h0 (op_eq (hn.trans h))
      have hlt : n < 16 := hn ▸ (Word.op v).isLt
      interval_cases n <;> contradiction
    all_goals rfl

/-- Settles O1: the decoder, evaluated at each word of the table. -/
theorem specWordsDecode : Obligations.SpecWordsDecode := by
  unfold Obligations.SpecWordsDecode
  decide

/-! ## Acceptance and the step (30_encoding.md R114) -/

theorem regAt_cmd {off : Offset} : regAt off = some .cmd ↔ off.extractLsb' 2 4 = 0x0#4 := by
  revert off
  decide

/-- Settles O5: the write reaches CMD (`regAt_cmd`), so that the idle engine accepts it. -/
theorem stepRunsTheAcceptedCommand : Obligations.StepRunsTheAcceptedCommand := by
  unfold Obligations.StepRunsTheAcceptedCommand
  intro s off w due queue hi hq hoff hr
  simp only [step, hi, State.idleStep, hq, hr, State.idleWrite, regAt_cmd.2 hoff, if_true]
  rfl

/-- No block reset comes before a placed word. -/
theorem withFetchWord_resetBy (s : State) (nbits w : Nat) : (s.withFetchWord nbits w).resetBy s.now = none := by
  unfold State.resetBy
  split
  next => rfl
  next r rs h =>
    have hr := List.head?_dropWhile_not (· ≤ s.now) s.resets
    rw [show s.resets.dropWhile (· ≤ s.now) = r :: rs from h] at hr
    exact if_neg (by simpa using hr)

/-- Settles O6: the placed word is the host's next access, and the step accepts it (`stepRunsTheAcceptedCommand`). -/
theorem placedWordRunsNext : Obligations.PlacedWordRunsNext := by
  unfold Obligations.PlacedWordRunsNext
  intro s nbits w hn
  exact ⟨_, _, if_pos hn, stepRunsTheAcceptedCommand _ 0x00#6 _ .whenIdle s.host.queue rfl rfl rfl
    (withFetchWord_resetBy s nbits w), rfl, ⟨rfl, rfl, rfl, rfl⟩, rfl, rfl, rfl, rfl, rfl, rfl, rfl, rfl⟩

/-- Settles O56: the procedure of an illegal command is the one step `raise` (`procedureOf_illegal`, `run_raise`). -/
theorem illegalCommandsEndAtOnce : Obligations.IllegalCommandsEndAtOnce := by
  unfold Obligations.IllegalCommandsEndAtOnce
  intro i s ⟨hq, ha⟩ hi
  obtain ⟨-, -, hf, hp⟩ := ha
  refine ⟨_, exec_eq i s, ?_⟩
  rw [procedureOf_illegal hi, State.runCommand, start_moved, procIllegal, stepBound, run_raise hq]
  simp [Regs.latchPresence, hp, Regs.recordPinErr, Regs.raiseFlags, hf, cycles, CmdError.kind]

/-! ## The end of every command (30_encoding.md R116, 10_state.md R50) -/

section StepsLeft

/-- The steps that a pass still takes from the loop head of step 5 at position i: 21 for each position, and the loop
head, `validate` and the end of the command. -/
def walkSteps (i : Nat) : Nat := 21 * (64 - i) + 3

/-- The steps that a procedure still takes at most, with the counters k, j and i: a loop takes its body once for each
count still to come (R115), whatever the bus answers. A point of SEARCH stands for all that the pass goes on with; its
replay and its walk are each taken for 64 positions, whatever L is. It is never 0, so that a run with 0 steps left has
stopped. -/
def stepsLeft : List Micro → (k j i : Nat) → Nat
  | [], _, _, _ => 1
  | .pin _ :: rest, k, j, i => 1 + stepsLeft rest k j i
  | .wait _ :: rest, k, j, i => 1 + stepsLeft rest k j i
  | .finish _ :: _, _, _, _ => 1
  | .raise _ :: _, _, _, _ => 1
  | .act a :: rest, k, j, i =>
    match a with
    | .loadShift _ => 1 + stepsLeft rest 0 j i
    | .sendBits => 6 * (8 - k) + 1 + stepsLeft rest (max 8 k) j i
    | .recvBits => 9 * (8 - k) + 1 + stepsLeft rest (max 8 k) j i
    | .nextBit => 1 + stepsLeft rest (countUp 8 k) j i
    | .startMatch => 1 + stepsLeft rest k 0 i
    | .sendRom => 52 * (8 - j) + 1 + stepsLeft rest (if j < 8 then 8 else k) (max 8 j) i
    | .nextByte => 1 + stepsLeft rest k (countUp 8 j) i
    | .searchEnter _ _ => 91 + 21 * 64 + walkSteps 0
    | .searchPresence _ _ => 82 + 21 * 64 + walkSteps 0
    | .searchStart _ => 31 + 21 * 64 + walkSteps 0
    | .replay => 21 * (64 - i) + 30 + walkSteps 0
    | .replayWrite => 5 + stepsLeft rest k j i
    | .confirm => 10 + walkSteps 0
    | .beginWalk => 1 + walkSteps 0
    | .walk => walkSteps i
    | .choose => 6 + walkSteps (i + 1)
    | .nextPos => 1 + stepsLeft rest k j (countUp 64 i)
    | .validate => 2
    | _ => 1 + stepsLeft rest k j i

/-- The steps that the running command still takes at most. -/
def State.stepsLeft (s : State) : Nat :=
  match s.seq with
  | .idle => 0
  | .run l => Machine.stepsLeft l s.hid.k s.hid.j s.hid.i
  | .await _ _ => 0

theorem stepsLeft_pos (l : List Micro) (k j i : Nat) : 0 < stepsLeft l k j i := by
  cases l with
  | nil => exact Nat.one_pos
  | cons m rest =>
    cases m with
    | act a => cases a <;> simp only [stepsLeft, walkSteps] <;> omega
    | pin r | wait us | finish c | raise e => simp only [stepsLeft]; omega

theorem stepsLeft_run {s : State} {l : List Micro} (hs : s.seq = .run l) :
    s.stepsLeft = stepsLeft l s.hid.k s.hid.j s.hid.i := by
  simp only [State.stepsLeft, hs]

section append

variable (l : List Micro) (k j i : Nat)

theorem stepsLeft_writeSlot (b : Bool) : stepsLeft (writeSlot b ++ l) k j i = 4 + stepsLeft l k j i := by
  simp only [writeSlot, List.cons_append, List.nil_append, stepsLeft]
  omega

theorem stepsLeft_readSlot : stepsLeft (readSlot ++ l) k j i = 6 + stepsLeft l k j i := by
  simp only [readSlot, List.cons_append, List.nil_append, stepsLeft]
  omega

theorem stepsLeft_twoRead : stepsLeft (twoRead ++ l) k j i = 14 + stepsLeft l k j i := by
  simp only [twoRead, List.append_assoc, stepsLeft_readSlot, List.cons_append, List.nil_append, stepsLeft]
  omega

theorem stepsLeft_resetSeq : stepsLeft (resetSeq ++ l) k j i = 8 + stepsLeft l k j i := by
  simp only [resetSeq, waitForHigh, List.cons_append, List.nil_append, stepsLeft]
  omega

theorem stepsLeft_writeByteSeq (v : Byte) : stepsLeft (writeByteSeq v ++ l) k j i = 50 + stepsLeft l 8 j i := by
  simp only [writeByteSeq, List.cons_append, List.nil_append, stepsLeft, Nat.max_zero]
  omega

end append

/-- A counter within its loop steps by 1. -/
theorem countUp_of_lt {stop n : Nat} (h : n < stop) : countUp stop n = n + 1 := by
  simp only [countUp]
  omega

/-- A loop leaves its counter at the count of the loop, whichever of its bodies it has come to. -/
theorem max_succ_of_lt {stop n : Nat} (h : n < stop) : max stop (n + 1) = max stop n := by
  rw [Nat.max_eq_left h, Nat.max_eq_left h.le]

/-- An act leaves fewer steps to take. -/
theorem stepsLeft_act (a : Act) (rest : List Micro) (s : State) :
    stepsLeft (a.next s ++ rest) (a.hid s).k (a.hid s).j (a.hid s).i <
      stepsLeft (.act a :: rest) s.hid.k s.hid.j s.hid.i := by
  cases a
  case sendBits | recvBits =>
    simp only [Act.next, Act.hid]
    split
    next hk =>
      simp only [List.append_assoc, stepsLeft_writeSlot, stepsLeft_readSlot, List.cons_append, List.nil_append,
        stepsLeft, countUp_of_lt hk, max_succ_of_lt hk]
      omega
    next hk =>
      simp only [List.nil_append, stepsLeft, Nat.max_eq_right (Nat.le_of_not_lt hk)]
      omega
  case sendRom =>
    simp only [Act.next, Act.hid]
    split
    next hj =>
      simp only [List.append_assoc, stepsLeft_writeByteSeq, List.cons_append, List.nil_append, stepsLeft,
        countUp_of_lt hj, max_succ_of_lt hj, hj, if_true, ite_self]
      omega
    next hj =>
      simp only [List.nil_append, stepsLeft, Nat.max_eq_right (Nat.le_of_not_lt hj), hj, if_false]
      omega
  case searchStart resume =>
    cases resume <;> simp [Act.next, Act.hid, stepsLeft, walkSteps]
  case replay =>
    rw [hid_replay]
    simp only [Act.next]
    split
    next hi =>
      have hL : s.resumeAt < 64 := s.regs.sldi.isLt
      simp only [List.append_assoc, stepsLeft_twoRead, List.cons_append, List.nil_append, stepsLeft,
        countUp_of_lt (hi.trans hL)]
      omega
    next =>
      simp only [List.append_assoc, stepsLeft_twoRead, List.cons_append, List.nil_append, stepsLeft]
      omega
  case choose =>
    rw [hid_choose]
    simp only [Act.next]
    split
    next => simp only [List.cons_append, stepsLeft]; omega
    next =>
      simp only [List.append_assoc, stepsLeft_writeSlot, List.cons_append, stepsLeft, walkSteps, countUp]
      omega
  case confirm =>
    rw [hid_confirm]
    simp only [Act.next]
    split
    next => simp only [List.append_assoc, stepsLeft_writeSlot, List.cons_append, stepsLeft]; omega
    next => simp only [List.cons_append, stepsLeft]; omega
  case walk =>
    simp only [Act.next, Act.hid]
    split
    next hi =>
      simp only [lastPos] at hi
      simp only [List.append_assoc, stepsLeft_twoRead, List.cons_append, stepsLeft, walkSteps]
      omega
    next => simp only [List.cons_append, stepsLeft, walkSteps]; omega
  case searchEnter | searchPresence | validate =>
    simp only [Act.next, Act.hid]
    split
    all_goals
      simp only [List.append_assoc, stepsLeft_resetSeq, stepsLeft_writeByteSeq, List.cons_append, stepsLeft]
      omega
  all_goals
    simp only [Act.next, Act.hid, stepsLeft_writeSlot, List.cons_append, List.nil_append, stepsLeft, walkSteps]
    omega

/-- Behind an answered request, no more steps are left than the rest of the procedure takes. -/
theorem stepsLeft_stepAfter (a : PinAns) (rest : List Micro) (k j i : Nat) :
    stepsLeft (stepAfter a rest) k j i ≤ stepsLeft rest k j i := by
  cases a with
  | ok | level b | high => exact Nat.le_refl _
  | timeout | err c => exact stepsLeft_pos rest k j i

theorem seqStep_stepsLeft {s : State} (hs : s.stopped = false) : (seqStep s).stepsLeft < s.stepsLeft := by
  obtain ⟨m, rest, hm⟩ := not_stopped_run hs
  have hpos : 0 < s.stepsLeft := stepsLeft_run hm ▸ stepsLeft_pos ..
  have hstep := seqStep_cases hm
  generalize seqStep s = u at hstep ⊢
  cases hstep with
  | pin t q w hq h =>
    rw [stepsLeft_run hm, hq, stepsLeft_run (State.takeAnswer_seq ..)]
    simp only [State.takeAnswer_hid, State.mapHid_hid, h.hid, stepsLeft]
    exact Nat.lt_one_add_iff.2 (stepsLeft_stepAfter ..)
  | wait t us hw h =>
    rw [stepsLeft_run hm, hw, stepsLeft_run rfl]
    simp only [State.log_hid, State.mapHid_hid, h.hid, stepsLeft]
    omega
  | act a ha =>
    rw [stepsLeft_run hm, ha, stepsLeft_run (State.runAct_seq ..)]
    exact stepsLeft_act a rest s
  | reset t r _ _ _ => exact hpos
  | silent q _ _ _ => exact hpos
  | finish t c _ _ => exact hpos
  | raise t e _ _ => exact hpos

theorem runSeq_stops (n : Nat) : ∀ s : State, s.stepsLeft ≤ n → (runSeq n s).stopped = true := by
  induction n with
  | zero =>
    intro s h
    by_contra hs
    obtain ⟨m, rest, hm⟩ := not_stopped_run (by simpa using hs)
    exact absurd (stepsLeft_run hm ▸ stepsLeft_pos ..) (Nat.not_lt.2 h)
  | succ n ih =>
    intro s h
    by_cases hs : s.stopped = true
    · rwa [runSeq_stopped hs]
    · have hs' : s.stopped = false := by simpa using hs
      rw [runSeq_succ hs']
      exact ih _ (by have := seqStep_stepsLeft hs'; omega)

theorem procedureOf_stepsLeft (i : Instr) (k j p : Nat) : stepsLeft (procedureOf i) k j p ≤ stepBound := by
  cases i
  case' sendCommand byte byMatch => cases byMatch
  all_goals
    simp [procedureOf, procReleaseBus, procDriveLow, procSenseHigh, procSenseLow, procWaitHigh, procReset, procReadBit,
      procWriteBit, procReadByte, procWriteByte, procMatchRom, procSkipRom, procSendCommand, procSearch, procIllegal,
      readSlot, writeSlot, resetSeq, waitForHigh, matchSeq, skipSeq, readByteSeq, writeByteSeq, stepsLeft, walkSteps,
      stepBound]

/-- A running command keeps a step pointer with an end. -/
theorem seqStep_sound {s : State} (hs : s.stopped = false) (h : s.seq.sound s.cfg) : (seqStep s).seq.sound s.cfg := by
  obtain ⟨m, rest, hm⟩ := not_stopped_run hs
  rw [hm] at h
  have hstep := seqStep_cases hm
  generalize seqStep s = u at hstep ⊢
  cases hstep with
  | reset t r _ _ _ => trivial
  | pin t q w hq _ => subst hq; exact sound_stepAfter h _ _
  | silent q _ hq _ => exact hq
  | wait t us hw _ => subst hw; exact sound_tail h rfl
  | act a ha => subst ha; exact sound_act s h
  | finish t c _ _ => trivial
  | raise t e _ _ => trivial

end StepsLeft

/-- Settles O17: a procedure has at most as many steps left as the bound allows (`procedureOf_stepsLeft`), each step
leaves fewer (`seqStep_stepsLeft`), and a running command always has a step to take (`seqStep_sound`). -/
theorem everyCommandEndsOrIsHeld : Obligations.EveryCommandEndsOrIsHeld := by
  unfold Obligations.EveryCommandEndsOrIsHeld
  intro i s
  refine ⟨_, exec_eq i s, ?_⟩
  have hstop : (s.runCommand (procedureOf i)).stopped = true :=
    runSeq_stops stepBound _ ((stepsLeft_run rfl).trans_le (procedureOf_stepsLeft i _ _ _))
  have hsound : (s.runCommand (procedureOf i)).seq.sound s.cfg :=
    (runSeq_induct (fun u => u.cfg = s.cfg ∧ u.seq.sound s.cfg)
      (fun u hu ⟨hc, h⟩ => ⟨(seqStep_cfg hu).trans hc, hc ▸ seqStep_sound hu (hc ▸ h)⟩) stepBound
      { s with seq := .run (procedureOf i) } ⟨rfl, procedureOf_sound s.cfg i⟩).2
  rcases stopped_cases hstop with hi | hr | hh
  · exact .inl hi
  · rw [hr] at hsound
    obtain ⟨⟨m, hm, -⟩, -⟩ := hsound
    cases hm
  · exact .inr hh

/-! ## A command line of the host, with nothing to come from outside (30_encoding.md R112) -/

/-- What the host finds after a command line from s that succeeded (10_state.md R35), with the trace evs added and the
draws rest left. -/
structure State.lineSucceeds (s t : State) (evs : List TraceEv) (rest : List PinDraw) : Prop where
  seq : t.seq = .idle
  quiet : t.quiet
  cfg : t.cfg = s.cfg
  done : t.regs.done = true
  err : t.regs.err = .none
  port : t.port = { draws := rest, trace := s.port.trace ++ evs }

/-- What the host finds after a command line that a pin error with the code c ended (60_exceptions.md R275). -/
structure State.lineFails (t : State) (c : Word) (trace : List TraceEv) (rest : List PinDraw) : Prop where
  seq : t.seq = .idle
  done : t.regs.done = true
  err : t.regs.err = .pinFailure
  pinerr : t.regs.pinerr = c
  port : t.port = { draws := rest, trace := trace }

section line

variable {s t : State} {i : Instr} {c : Word} {evs : List TraceEv} {v : Byte} {ds rest : List PinDraw} {d : PinDraw}

theorem State.lineSucceeds.succeeded (h : s.lineSucceeds t evs rest) : t.succeeded = true := by
  simp [State.succeeded, busy_idle h.seq, h.done, h.err]

theorem State.lineFails.not_succeeded (h : t.lineFails c evs rest) : t.succeeded = false := by
  simp [State.succeeded, h.err]

/-- A command line runs the procedure of its command from the state of R114. -/
theorem issue_of_run (hw : i.wf = true) (hi : s.seq = .idle) (hq : s.quiet) (hd : s.port.draws = ds)
    (hrun : runSeq stepBound
      ((s.acceptedAt (encode i)).moved (procedureOf i) (s.acceptedAt (encode i)).hid [] ds 0) = t)
    (ht : t.seq = .idle) (hh : t.host = s.host) : issue i s = .next t := by
  refine issue_idle hi hq.2 ?_ (by rw [hh]) ht
  rw [decodeEncodeAgree i hw, exec_eq, State.runCommand, start_moved]
  exact congrArg Host.Outcome.next (hd ▸ hrun)

/-- WRITE_BYTE as a command line. -/
theorem issue_writeByte (v : Byte) (hi : s.seq = .idle) (hq : s.quiet) (hd : s.port.draws = ds ++ rest)
    (hl : ds.length = 16) (hok : allOk s.cfg ds) :
    ∃ t, issue (.writeByte v) s = .next t ∧ s.lineSucceeds t (byteEvs v) rest := by
  have hqa : (s.acceptedAt (encode (.writeByte v))).quiet := hq
  obtain ⟨tm, hrun⟩ := run_writeByteSeq (rest := [.finish .nothing]) hqa v _ [] ds rest 0 4046 hl hok
  rw [run_finish hqa] at hrun
  exact ⟨_, issue_of_run rfl hi hq hd hrun rfl rfl, rfl, hq, rfl, rfl, rfl, rfl⟩

/-- WRITE_BYTE as a command line, at a request that fails. -/
theorem issue_writeByte_fails (v : Byte) (hi : s.seq = .idle) (hq : s.quiet) (hd : s.port.draws = ds ++ d :: rest)
    (hl : ds.length < 16) (hok : allOk s.cfg ds) (hf : d.fault s.cfg = some c) :
    ∃ t, issue (.writeByte v) s = .next t ∧ t.lineFails c (s.port.trace ++ (byteEvs v).take (2 * ds.length) ++
      [.pin (if ds.length % 2 = 0 then .driveLow else .release) (.err c)]) rest := by
  have hqa : (s.acceptedAt (encode (.writeByte v))).quiet := hq
  obtain ⟨h, n, -, -, hrun⟩ :=
    run_writeByteSeq_fails (rest := [.finish .nothing]) hqa v _ [] ds d rest 0 4046 c hl hok hf
  refine ⟨_, issue_of_run rfl hi hq hd hrun rfl rfl, rfl, rfl, rfl, rfl, ?_⟩
  rw [failed_port, List.nil_append, List.append_assoc]
  rfl

/-- READ_BYTE as a command line. -/
theorem issue_readByte (hi : s.seq = .idle) (hq : s.quiet) (hd : s.port.draws = ds ++ rest)
    (hl : ds.length = 24) (hok : allOk s.cfg ds) (hv : ∀ j, j < 8 → v.getLsbD j = (drawAt ds (3 * j + 2)).high) :
    ∃ t, issue .readByte s = .next t ∧ s.lineSucceeds t (readEvs ds 8) rest ∧ t.regs.rxByte = v := by
  have hqa : (s.acceptedAt (encode .readByte)).quiet := hq
  obtain ⟨tm, bit, hrun⟩ := run_readByteSeq (rest := [.finish .rxByte]) hqa _ [] ds rest 0 4022 v hl hok hv
  rw [run_finish hqa] at hrun
  exact ⟨_, issue_of_run rfl hi hq hd hrun rfl rfl, ⟨rfl, hq, rfl, rfl, rfl, rfl⟩, rfl⟩

/-- READ_BYTE as a command line, at a request that fails. -/
theorem issue_readByte_fails (hi : s.seq = .idle) (hq : s.quiet) (hd : s.port.draws = ds ++ d :: rest)
    (hl : ds.length < 24) (hok : allOk s.cfg ds) (hf : d.fault s.cfg = some c) :
    ∃ t trace, issue .readByte s = .next t ∧ t.lineFails c trace rest := by
  have hqa : (s.acceptedAt (encode .readByte)).quiet := hq
  obtain ⟨h, n, evs, hrun, -, -⟩ :=
    run_readByteSeq_fails (rest := [.finish .rxByte]) hqa _ [] ds d rest 0 4022 c hl hok hf
  exact ⟨_, _, issue_of_run rfl hi hq hd hrun rfl rfl, rfl, rfl, rfl, rfl, rfl⟩

end line

/-! ## The pseudo-instructions (30_encoding.md R113) -/

section pseudo

variable {s t : State} {vs : List Byte} {v : Byte}

theorem writeBytes_cons (h : issue (.writeByte v) s = .next t) (ht : t.succeeded = true) :
    writeBytes (v :: vs) s = writeBytes vs t := by
  simp only [writeBytes, h, andThen_next, ht, if_true]

theorem writeBytes_cons_fails (h : issue (.writeByte v) s = .next t) (ht : t.succeeded = false) :
    writeBytes (v :: vs) s = .next t := by
  simp only [writeBytes, h, andThen_next, ht, Bool.false_eq_true, if_false]

theorem readBytes_succ (n : Nat) (h : issue .readByte s = .next t) (ht : t.succeeded = true) :
    (readBytes (n + 1) s).1 = t.regs.rxByte :: (readBytes n (t.hostRead rxOffset)).1 ∧
      (readBytes (n + 1) s).2 = (readBytes n (t.hostRead rxOffset)).2 := by
  have hrx : (t.readWord rxOffset).extractLsb' 0 8 = t.regs.rxByte := by
    rw [readWord_of_some t (x := .rx) rfl]
    exact (readReg_rx t).1
  simp only [readBytes, h, ht, if_true, hrx, and_self]

theorem readBytes_succ_fails (n : Nat) (h : issue .readByte s = .next t) (ht : t.succeeded = false) :
    readBytes (n + 1) s = ([], .next t) := by
  simp only [readBytes, h, ht, Bool.false_eq_true, if_false]

/-- A byte on the wire is 32 entries of the trace. -/
theorem byteEvs_length (v : Byte) : (byteEvs v).length = 32 := by
  have hslot (b : Bool) : (writeSlotEvs b).length = 4 := by cases b <;> rfl
  simp [byteEvs, bitsEvs, List.length_flatMap, hslot]

/-- The draws of one byte, and those behind them. -/
theorem exists_append_of_le_length {ds : List PinDraw} {n : Nat} (h : n ≤ ds.length) :
    ∃ xs ys, ds = xs ++ ys ∧ xs.length = n :=
  ⟨ds.take n, ds.drop n, (List.take_append_drop ..).symm, List.length_take_of_le h⟩

/-- WRITE_BYTES with no pin error. -/
theorem writeBytes_ok (vs : List Byte) : ∀ (s : State) (ds rest : List PinDraw), s.seq = .idle → s.quiet →
    s.regs.err = .none → s.port.draws = ds ++ rest → ds.length = 16 * vs.length → allOk s.cfg ds →
    ∃ t, writeBytes vs s = .next t ∧ t.seq = .idle ∧ t.regs.err = .none ∧
      t.port = { draws := rest, trace := s.port.trace ++ vs.flatMap byteEvs } := by
  induction vs with
  | nil =>
    intro s ds rest hi hq he hd hl hok
    obtain rfl := List.eq_nil_of_length_eq_zero hl
    subst hd
    exact ⟨s, rfl, hi, he, by rw [List.flatMap_nil, List.append_nil]⟩
  | cons v vs ih =>
    intro s ds rest hi hq he hd hl hok
    rw [List.length_cons] at hl
    obtain ⟨xs, ys, rfl, hx⟩ := exists_append_of_le_length (n := 16) (ds := ds) (by omega)
    rw [List.length_append] at hl
    rw [allOk_append] at hok
    rw [List.append_assoc] at hd
    obtain ⟨t, ht, hline⟩ := issue_writeByte v hi hq hd hx hok.1
    obtain ⟨u, hu, hidle, herr, hport⟩ := ih t ys rest hline.seq hline.quiet hline.err (by rw [hline.port])
      (by omega) (hline.cfg ▸ hok.2)
    refine ⟨u, (writeBytes_cons ht hline.succeeded).trans hu, hidle, herr, ?_⟩
    rw [hport, hline.port, List.flatMap_cons, List.append_assoc]

/-- WRITE_BYTES at a request that fails: of the first byte, or of a later one. -/
theorem writeBytes_fails {d : PinDraw} {c : Word} (vs : List Byte) : ∀ (s : State) (ds rest : List PinDraw),
    s.seq = .idle → s.quiet → s.port.draws = ds ++ d :: rest → ds.length < 16 * vs.length → allOk s.cfg ds →
    d.fault s.cfg = some c →
    ∃ t, writeBytes vs s = .next t ∧ t.lineFails c (s.port.trace ++ (vs.flatMap byteEvs).take (2 * ds.length) ++
      [.pin (if ds.length % 2 = 0 then .driveLow else .release) (.err c)]) rest := by
  induction vs with
  | nil => intro s ds rest _ _ _ hl; exact absurd hl (Nat.not_lt_zero _)
  | cons v vs ih =>
    intro s ds rest hi hq hd hl hok hf
    rw [List.length_cons] at hl
    by_cases hlt : ds.length < 16
    · obtain ⟨t, ht, hline⟩ := issue_writeByte_fails v hi hq hd hlt hok hf
      refine ⟨t, writeBytes_cons_fails ht hline.not_succeeded, ?_⟩
      rwa [List.flatMap_cons, List.take_append_of_le_length (by rw [byteEvs_length]; omega)]
    · obtain ⟨xs, ys, rfl, hx⟩ := exists_append_of_le_length (Nat.le_of_not_lt hlt)
      rw [List.length_append, hx] at hl
      rw [allOk_append] at hok
      rw [List.append_assoc] at hd
      obtain ⟨t, ht, hline⟩ := issue_writeByte v hi hq hd hx hok.1
      obtain ⟨u, hu, hfail⟩ := ih t ys rest hline.seq hline.quiet (by rw [hline.port]) (by omega)
        (hline.cfg ▸ hok.2) (hline.cfg ▸ hf)
      refine ⟨u, (writeBytes_cons ht hline.succeeded).trans hu, ?_⟩
      have htake : ((v :: vs).flatMap byteEvs).take (2 * (xs ++ ys).length) =
          byteEvs v ++ (vs.flatMap byteEvs).take (2 * ys.length) := by
        rw [List.flatMap_cons, List.length_append, hx, Nat.mul_add,
          show 2 * 16 = (byteEvs v).length from (byteEvs_length v).symm, List.take_length_add_append]
      have hmod : (xs ++ ys).length % 2 = ys.length % 2 := by rw [List.length_append, hx]; omega
      rw [hline.port, List.append_assoc s.port.trace] at hfail
      rwa [htake, hmod]

/-- The draws that echo a list of bits: three a bit, none an error, the third with its level. -/
theorem echoDraws_length (bits : List Bool) : (echoDraws bits).length = 3 * bits.length := by
  simp [echoDraws, List.length_flatMap, Nat.mul_comm]

theorem echoDraws_ok (p : Params) (bits : List Bool) : allOk p (echoDraws bits) := by
  intro d hd
  simp only [echoDraws, List.mem_flatMap, List.mem_cons, List.not_mem_nil, or_false] at hd
  obtain ⟨b, -, rfl | rfl | rfl⟩ := hd <;> rfl

theorem echoDraws_high (bits : List Bool) : ∀ j, (drawAt (echoDraws bits) (3 * j + 2)).high = bits.getD j false := by
  induction bits with
  | nil => intro j; rfl
  | cons b bits ih =>
    intro j
    cases j with
    | zero => rfl
    | succ j => exact ih j

/-- The draws of a read of the byte v. -/
theorem echoDraws_byte (v : Byte) {j : Nat} (hj : j < 8) :
    v.getLsbD j = (drawAt (echoDraws ((List.range 8).map v.getLsbD)) (3 * j + 2)).high := by
  rw [echoDraws_high]
  simp [hj]

/-- A line of READ_BYTE on draws that carry a byte reads it. -/
theorem issue_readByte_echo {rest : List PinDraw} (hi : s.seq = .idle) (hq : s.quiet)
    (hd : s.port.draws = echoDraws ((List.range 8).map v.getLsbD) ++ rest) :
    ∃ t evs, issue .readByte s = .next t ∧ s.lineSucceeds t evs rest ∧ t.regs.rxByte = v := by
  obtain ⟨t, h⟩ :=
    issue_readByte hi hq hd (by rw [echoDraws_length]; rfl) (echoDraws_ok _ _) fun j => echoDraws_byte v
  exact ⟨t, _, h⟩

/-- The host's read of RX leaves what it has found. -/
theorem State.lineSucceeds.hostRead {evs : List TraceEv} {rest : List PinDraw} (h : s.lineSucceeds t evs rest)
    (off : Offset) : s.lineSucceeds (t.hostRead off) evs rest :=
  ⟨h.seq, h.quiet, h.cfg, h.done, h.err, h.port⟩

/-- READ_BYTES with no pin error. -/
theorem readBytes_ok (vs : List Byte) : ∀ (s : State) (rest : List PinDraw), s.seq = .idle → s.quiet →
    s.port.draws = vs.flatMap (fun v => echoDraws ((List.range 8).map v.getLsbD)) ++ rest →
    (readBytes vs.length s).1 = vs ∧
    ∃ t, (readBytes vs.length s).2 = .next t ∧ t.seq = .idle ∧ t.port.draws = rest ∧
      (vs ≠ [] ∨ s.regs.err = .none → t.regs.err = .none) := by
  induction vs with
  | nil => exact fun s rest hi _ hd => ⟨rfl, s, rfl, hi, hd, fun h => h.resolve_left fun h => h rfl⟩
  | cons v vs ih =>
    intro s rest hi hq hd
    rw [List.flatMap_cons, List.append_assoc] at hd
    obtain ⟨t, evs, ht, hline, hrx⟩ := issue_readByte_echo hi hq hd
    have hread := hline.hostRead rxOffset
    obtain ⟨hvs, u, hu, hidle, hrest, herr⟩ := ih (t.hostRead rxOffset) rest hread.seq hread.quiet
      (by rw [hread.port])
    obtain ⟨h1, h2⟩ := readBytes_succ vs.length ht hline.succeeded
    rw [List.length_cons, h1, h2, hvs, hrx]
    exact ⟨rfl, u, hu, hidle, hrest, fun _ => herr (.inr hread.err)⟩

/-- READ_BYTES at a request that fails, after the bytes vs. -/
theorem readBytes_fails {d : PinDraw} {c : Word} (vs : List Byte) : ∀ (n : Nat) (s : State) (ds rest : List PinDraw),
    s.seq = .idle → s.quiet → vs.length < n →
    s.port.draws = vs.flatMap (fun v => echoDraws ((List.range 8).map v.getLsbD)) ++ ds ++ d :: rest →
    ds.length < 24 → allOk s.cfg ds → d.fault s.cfg = some c →
    (readBytes n s).1 = vs ∧ ∃ t, (readBytes n s).2 = .next t ∧ ∃ trace, t.lineFails c trace rest := by
  induction vs with
  | nil =>
    intro n s ds rest hi hq hn hd hl hok hf
    obtain ⟨n, rfl⟩ := Nat.exists_eq_succ_of_ne_zero (Nat.ne_of_gt hn)
    obtain ⟨t, trace, ht, hline⟩ := issue_readByte_fails hi hq hd hl hok hf
    rw [readBytes_succ_fails n ht hline.not_succeeded]
    exact ⟨rfl, t, rfl, trace, hline⟩
  | cons v vs ih =>
    intro n s ds rest hi hq hn hd hl hok hf
    obtain ⟨n, rfl⟩ := Nat.exists_eq_succ_of_ne_zero (Nat.ne_of_gt (Nat.zero_lt_of_lt hn))
    simp only [List.flatMap_cons, List.append_assoc] at hd
    obtain ⟨t, evs, ht, hline, hrx⟩ := issue_readByte_echo hi hq hd
    have hread := hline.hostRead rxOffset
    obtain ⟨hvs, hfail⟩ := ih n (t.hostRead rxOffset) ds rest hread.seq hread.quiet (Nat.lt_of_succ_lt_succ hn)
      (by rw [hread.port, List.append_assoc]) hl (hread.cfg ▸ hok) (hread.cfg ▸ hf)
    obtain ⟨h1, h2⟩ := readBytes_succ n ht hline.succeeded
    rw [h1, h2, hvs, hrx]
    exact ⟨rfl, hfail⟩

end pseudo

/-- Settles O57: byte by byte (`writeBytes_ok`), and up to the byte whose request fails (`writeBytes_fails`). -/
theorem writeBytesSendsInOrder : Obligations.WriteBytesSendsInOrder := by
  unfold Obligations.WriteBytesSendsInOrder
  refine ⟨writeBytes_ok, fun vs s ds rest d c hi hq hd hl hok hf => ?_⟩
  obtain ⟨t, ht, hline⟩ := writeBytes_fails vs s ds rest hi hq hd hl hok hf
  exact ⟨t, ht, hline.seq, hline.done, hline.err, hline.pinerr, hline.port⟩

/-- Settles O58: byte by byte (`readBytes_ok`), and up to the byte whose request fails (`readBytes_fails`). -/
theorem readBytesKeepsWhatWasRead : Obligations.ReadBytesKeepsWhatWasRead := by
  unfold Obligations.ReadBytesKeepsWhatWasRead
  refine ⟨readBytes_ok, fun n vs s ds rest d c hi hq hn hd hl hok hf => ?_⟩
  obtain ⟨hvs, t, ht, trace, hline⟩ := readBytes_fails vs n s ds rest hi hq hn hd hl hok hf
  exact ⟨hvs, t, ht, hline.seq, hline.done, hline.err, hline.pinerr, by rw [hline.port]⟩

end Sys2Proof.Machine
end

section
/-!
PROOFS. The statements of 40_signal_primitives.md: how the commands that drive, release and sense the line end (R131 to
R134), WAIT_HIGH (R135 to R137), and the reset sequence (R138, R139).
-/

namespace Sys2Proof.Machine

section ends

variable {s : State} {i : Instr} {h : Hidden} {l : List Micro} {evs : List TraceEv} {d : PinDraw}
  {ds ds0 : List PinDraw} {n k : Nat}

/-! ## The two ends of an undisturbed command (60_exceptions.md R274, R275) -/

/-- What a command leaves is what the run of its procedure leaves. -/
theorem endsWith_of_runSeq {regs : Regs} (hd : s.port.draws = ds0)
    (hrun : runSeq stepBound (s.moved (procedureOf i) s.hid [] ds0 0) =
      { s with
        regs
        seq := .idle
        hid := h
        port := { draws := ds, trace := s.port.trace ++ evs }
        now := s.now + n }) :
    endsWith i s regs h.drv evs ds n := by
  rw [← hd, ← start_moved] at hrun
  exact ⟨_, (exec_eq i s).trans (congrArg _ hrun), rfl, rfl, rfl, rfl, rfl, rfl, rfl, rfl⟩

/-- With no presence sample taken, PRESENCE stays. -/
theorem latchPresence_of_not_sampled (r : Regs) (hp : h.presV = false) : r.latchPresence h = r := by
  simp [Regs.latchPresence, hp]

/-- A command that reaches `finish` with no presence sample taken since the acceptance: its results and DONE. -/
theorem endsWith_of_finish {c : Commit} (hr : s.ready) (hd : s.port.draws = ds0)
    (hrun : runSeq stepBound (s.moved (procedureOf i) s.hid [] ds0 0) =
      runSeq (k + 1) (s.moved (.finish c :: l) h evs ds n)) (hp : h.presV = s.hid.presV) :
    endsWith i s { s.regs.commit h c with done := true } h.drv evs ds (n + 1) := by
  obtain ⟨hq, -, -, -, hv⟩ := hr
  rw [run_finish hq, latchPresence_of_not_sampled _ (hp.trans hv)] at hrun
  exact endsWith_of_runSeq hd hrun

/-- `raise` with no presence sample taken and FOUND clear, as R114 leaves it: PINERR for PinFailure, ERR and DONE. -/
theorem raise_of_not_sampled {r : Regs} (e : CmdError) (hp : h.presV = false) (hf : r.found = false) :
    ((r.latchPresence h).recordPinErr e).raiseFlags e = { r.recordPinErr e with done := true, err := e.kind } := by
  have hf' : (r.recordPinErr e).found = false := by cases e <;> exact hf
  rw [latchPresence_of_not_sampled r hp, Regs.raiseFlags, ← hf']

/-- A command whose first request the port answers with an error (R14): PinFailure with its code. -/
theorem endsWith_of_pinErr {r : PinReq} {c : Word} (hr : s.ready) (hd : s.port.draws = d :: ds)
    (hi : procedureOf i = .pin r :: l) (hw : r ≠ .waitHigh) (hf : d.fault s.cfg = some c) :
    endsWith i s { s.regs with done := true, err := .pinFailure, pinerr := c } s.hid.drv [.pin r (.err c)] ds
      (cycles s.cfg 0 0 1) := by
  obtain ⟨hq, -, -, hfound, hp⟩ := hr
  have hrun := run_pinErr (rest := l) (h := s.hid) (evs := []) (ds := ds) (n := 0) (k := 4094) hq hf r hw
  rw [State.failed, raise_of_not_sampled _ hp hfound, ← hi] at hrun
  simpa [cycles, Regs.recordPinErr, CmdError.kind] using endsWith_of_runSeq hd hrun

/-- A command that comes to WAIT_FOR_HIGH first, on a line not sensed high in time (R135): BusNotHigh after 250 µs. -/
theorem endsWith_of_timeout (hr : s.ready) (hm : s.missesHigh)
    (hrun : runSeq stepBound (s.moved (procedureOf i) s.hid [] s.port.draws 0) =
      runSeq (k + 2) (s.moved (.pin .waitHigh :: l) s.hid [] s.port.draws 0)) :
    endsWith i s { s.regs with done := true, err := .busNotHigh } s.hid.drv [.pin .waitHigh .timeout]
      s.port.draws.tail (cycles s.cfg 250 0 1) := by
  obtain ⟨hq, -, -, hfound, hp⟩ := hr
  rw [run_timeout hq hm, raise_of_not_sampled _ hp hfound] at hrun
  simpa [cycles, timeoutCycles, usCycles, tWaitHighTimeout, Regs.recordPinErr, CmdError.kind] using
    endsWith_of_runSeq rfl hrun

/-! ## The way to a reset sequence (40_signal_primitives.md R139, 42_addressing.md R204, 43_search.md R223) -/

/-- `pres_v <- 0` changes nothing right after the acceptance, which cleared it (30_encoding.md R114). -/
theorem run_clearPresV (ha : s.accepted) : runSeq (k + 1) (s.moved (.act .clearPresV :: l) s.hid evs ds n) =
    runSeq k (s.moved l s.hid evs ds n) := by
  obtain ⟨-, -, -, hp⟩ := ha
  have hh : Act.clearPresV.hid (s.moved (.act .clearPresV :: l) s.hid evs ds n) = s.hid := by
    simp only [Act.hid, moved_hid, ← hp]
  rw [run_act, hh]
  rfl

/-- A search that is not exhausted starts with a reset sequence (R222, R223). -/
theorem run_searchEnter {resume alarm : Bool} (hx : resume = true → s.regs.sdisc ≠ 0#64) :
    runSeq (k + 1) (s.moved [.act (.searchEnter resume alarm)] h evs ds n) =
      runSeq k (s.moved (resetSeq ++ [.act (.searchPresence resume alarm)]) h evs ds n) := by
  have hne : ¬(resume && s.regs.sdisc == 0#64) = true := by simpa using hx
  rw [run_act, Act.next, moved_regs, if_neg hne, List.append_nil]
  rfl

/-- The commands with a reset sequence come to its WAIT_FOR_HIGH with nothing issued and nothing changed. -/
theorem run_to_waitHigh (ha : s.accepted) (hi : i = .reset ∨ (∃ b m, i = .sendCommand b m) ∨
      ∃ r a, i = .search r a ∧ (r = true → s.regs.sdisc ≠ 0#64)) :
    ∃ l, runSeq stepBound (s.moved (procedureOf i) s.hid [] ds 0) =
      runSeq 4095 (s.moved (.pin .waitHigh :: l) s.hid [] ds 0) := by
  rcases hi with rfl | ⟨b, m, rfl⟩ | ⟨r, a, rfl, hx⟩
  · exact ⟨_, run_clearPresV ha⟩
  · exact ⟨_, run_clearPresV ha⟩
  · exact ⟨_, run_searchEnter hx⟩

end ends

/-! ## Driving, releasing and sensing the line (40_signal_primitives.md R131 to R134) -/

/-- Settles O30: the request, acknowledged (`run_release`) or answered with an error (`endsWith_of_pinErr`). -/
theorem releaseBusReleasesTheLine : Obligations.ReleaseBusReleasesTheLine := by
  unfold Obligations.ReleaseBusReleasesTheLine
  refine ⟨rfl, fun s d ds hr hd => ⟨fun hf => ?_, fun c => endsWith_of_pinErr hr hd rfl (by decide)⟩⟩
  simpa [cycles, Regs.commit] using endsWith_of_finish (i := .releaseBus) hr hd (run_release hr.1 hf) rfl

/-- Settles O31: the request, acknowledged (`run_driveLow`) or answered with an error (`endsWith_of_pinErr`). -/
theorem driveLowDrivesTheLine : Obligations.DriveLowDrivesTheLine := by
  unfold Obligations.DriveLowDrivesTheLine
  refine ⟨rfl, fun s d ds hr hd => ⟨fun hf => ?_, fun c => endsWith_of_pinErr hr hd rfl (by decide)⟩⟩
  simpa [cycles, Regs.commit] using endsWith_of_finish (i := .driveLow) hr hd (run_driveLow hr.1 hf) rfl

/-- Settles O32: the request, answered with the line's level (`run_isHigh`) or with an error (`endsWith_of_pinErr`). -/
theorem senseHighReportsTheLevel : Obligations.SenseHighReportsTheLevel := by
  unfold Obligations.SenseHighReportsTheLevel
  refine ⟨rfl, fun s d ds hr hd => ⟨fun hf => ?_, fun c => endsWith_of_pinErr hr hd rfl (by decide)⟩⟩
  simpa [cycles, Regs.commit, PinDraw.lineHigh] using
    endsWith_of_finish (i := .senseHigh) hr hd (run_isHigh hr.1 hf) rfl

/-- Settles O33: the request, answered with the complement of the line's level (`run_isLow`) or with an error
(`endsWith_of_pinErr`). -/
theorem senseLowReportsTheLevel : Obligations.SenseLowReportsTheLevel := by
  unfold Obligations.SenseLowReportsTheLevel
  refine ⟨rfl, fun s d ds hr hd => ⟨fun hf => ?_, fun c => endsWith_of_pinErr hr hd rfl (by decide)⟩⟩
  simpa [cycles, Regs.commit, PinDraw.lineHigh] using
    endsWith_of_finish (i := .senseLow) hr hd (run_isLow hr.1 hf) rfl

/-! ## WAIT_HIGH (40_signal_primitives.md R135 to R137) -/

/-- Settles O34: the request is answered `high` (`run_waitHigh`), and `finish` follows. -/
theorem waitHighSucceedsWithinTheWindow : Obligations.WaitHighSucceedsWithinTheWindow := by
  unfold Obligations.WaitHighSucceedsWithinTheWindow
  intro s d ds hr hd hf hi hv
  simpa [cycles, Regs.commit, hv] using endsWith_of_finish (i := .waitHigh) hr hd (run_waitHigh hr.1 hf hi hv) rfl

/-- Settles O35: WAIT_HIGH comes to WAIT_FOR_HIGH with no step taken (`endsWith_of_timeout`). -/
theorem waitHighTimesOut : Obligations.WaitHighTimesOut := by
  unfold Obligations.WaitHighTimesOut
  exact fun s hr hm => endsWith_of_timeout hr hm rfl

/-! ## The reset sequence (40_signal_primitives.md R138, R139) -/

/-- Settles O36: `run_clearPresV`, then the reset sequence (`run_resetSeq`), whose sample `finish` commits to
PRESENCE. -/
theorem resetSamplesPresence : Obligations.ResetSamplesPresence := by
  unfold Obligations.ResetSamplesPresence
  intro s d0 d1 d2 d3 ds ⟨hq, ha⟩ hd hok hi hv
  obtain ⟨h0, h1, h2, h3, -⟩ : d0.fault s.cfg = none ∧ d1.fault s.cfg = none ∧ d2.fault s.cfg = none ∧
      d3.fault s.cfg = none ∧ allOk s.cfg [] := by simpa only [allOk_cons] using hok
  have hreset : runSeq stepBound (s.moved procReset s.hid [] (d0 :: d1 :: d2 :: d3 :: ds) 0) = _ :=
    (run_clearPresV ha).trans (run_resetSeq hq h0 h1 h2 h3 hi hv)
  rw [run_finish hq] at hreset
  simpa [cycles, Regs.commit, Regs.latchPresence, Regs.finishFlags] using endsWith_of_runSeq (i := .reset) hd hreset

/-- Settles O37: each of the commands comes to WAIT_FOR_HIGH (`run_to_waitHigh`), and ends there
(`endsWith_of_timeout`). -/
theorem resetSequenceOnALowLineFails : Obligations.ResetSequenceOnALowLineFails := by
  unfold Obligations.ResetSequenceOnALowLineFails
  intro i s hr hm hi
  obtain ⟨l, hrun⟩ := run_to_waitHigh hr.2 hi
  exact endsWith_of_timeout hr hm hrun

end Sys2Proof.Machine
end

section
/-!
PROOFS. The statements of 41_bit_byte.md: how the bit and byte commands end (R170 to R177), and a byte sent and read
back over a fixture that echoes the slots (R178).
-/

namespace Sys2Proof.Machine

/-! ## The slots of a command (41_bit_byte.md R179, R313 of 70_reset_and_hazards.md) -/

/-- The cycles of a command of m slots with n requests each, from none passed to its end: 70 µs a slot. -/
theorem slotCycles_mul_eq_cycles (p : Params) (m n : Nat) :
    0 + m * slotCycles p n + 1 = cycles p (m * 70) 0 (m * n) := by
  simp only [slotCycles, cycles]
  ring

/-- The low times of a slot tell its bit (41_bit_byte.md R172). -/
theorem slotBits_writeSlotEvs (b : Bool) (evs : List TraceEv) :
    slotBits (writeSlotEvs b ++ evs) = b :: slotBits evs := by
  cases b with
  | false => rfl
  | true => rfl

/-- The bits a run of write slots sends. -/
theorem slotBits_flatMap (f : Nat → Bool) (ks : List Nat) :
    slotBits (ks.flatMap fun k => writeSlotEvs (f k)) = ks.map f := by
  induction ks with
  | nil => rfl
  | cons k ks ih => rw [List.flatMap_cons, slotBits_writeSlotEvs, ih, List.map_cons]

/-! ## One bit (41_bit_byte.md R170 to R173) -/

/-- Settles O38: one read slot (`run_readSlot`), whose sample `finish` commits to RX.BIT. -/
theorem readBitReturnsTheSample : Obligations.ReadBitReturnsTheSample := by
  unfold Obligations.ReadBitReturnsTheSample
  intro s d0 d1 d2 ds hr hd hok
  obtain ⟨h0, h1, h2, -⟩ : d0.fault s.cfg = none ∧ d1.fault s.cfg = none ∧ d2.fault s.cfg = none ∧
      allOk s.cfg [] := by
    simpa only [allOk_cons] using hok
  simpa [cycles, Regs.commit] using endsWith_of_finish (i := .readBit) hr hd (run_readSlot hr.1 h0 h1 h2) rfl

/-- Settles O39: one write slot (`run_writeSlot`), and `finish` follows. -/
theorem writeBitSendsOneSlot : Obligations.WriteBitSendsOneSlot := by
  unfold Obligations.WriteBitSendsOneSlot
  intro b s d0 d1 ds hr hd hok
  obtain ⟨h0, h1, -⟩ : d0.fault s.cfg = none ∧ d1.fault s.cfg = none ∧ allOk s.cfg [] := by
    simpa only [allOk_cons] using hok
  simpa [cycles, Regs.commit] using endsWith_of_finish (i := .writeBit b) hr hd (run_writeSlot hr.1 b h0 h1) rfl

/-! ## One byte (41_bit_byte.md R174 to R177) -/

/-- Settles O40: eight read slots (`run_readByteSeq`), whose shift register `finish` commits to RX.BYTE. -/
theorem readByteAssemblesLsbFirst : Obligations.ReadByteAssemblesLsbFirst := by
  unfold Obligations.ReadByteAssemblesLsbFirst
  intro s ds rest v hr hd hl hok hv
  obtain ⟨tm, bit, hrun⟩ :=
    run_readByteSeq (rest := [.finish .rxByte]) hr.1 s.hid [] ds rest 0 4022 v hl hok hv
  have hends := endsWith_of_finish (i := .readByte) hr hd hrun rfl
  rwa [slotCycles_mul_eq_cycles] at hends

/-- Settles O41: eight write slots (`run_writeByteSeq`), and `finish` follows. -/
theorem writeByteSendsLsbFirst : Obligations.WriteByteSendsLsbFirst := by
  unfold Obligations.WriteByteSendsLsbFirst
  intro v s ds rest hr hd hl hok
  obtain ⟨tm, hrun⟩ := run_writeByteSeq (rest := [.finish .nothing]) hr.1 v s.hid [] ds rest 0 4046 hl hok
  have hends := endsWith_of_finish (i := .writeByte v) hr hd hrun rfl
  rwa [slotCycles_mul_eq_cycles] at hends

/-! ## Loopback (41_bit_byte.md R178) -/

/-- Settles O42: WRITE_BYTE leaves the slots of the byte in the trace (O41), they tell its bits (`slotBits_flatMap`),
and READ_BYTE assembles the bits echoed (O40). -/
theorem loopbackReturnsTheByte : Obligations.LoopbackReturnsTheByte := by
  unfold Obligations.LoopbackReturnsTheByte
  intro v s ds hs hd hl hok
  obtain ⟨t, ht, -, -, -, hport, -⟩ :=
    writeByteSendsLsbFirst v s ds [] hs (hd.trans (List.append_nil ds).symm) hl hok
  have hbits : slotBits (t.port.trace.drop s.port.trace.length) = (List.range 8).map v.getLsbD := by
    rw [hport, List.drop_left]
    exact slotBits_flatMap v.getLsbD _
  refine ⟨t, ht, fun u rest hu hdu => ?_⟩
  rw [hbits] at hdu
  obtain ⟨x, hx, hseq, hregs, -⟩ := readByteAssemblesLsbFirst u _ rest v hu hdu (by rw [echoDraws_length]; rfl)
    (echoDraws_ok _ _) fun _ => echoDraws_byte v
  obtain ⟨-, -, herr, -⟩ := hu
  exact ⟨x, hx, hseq, by rw [hregs]; exact herr, by rw [hregs]⟩

end Sys2Proof.Machine
end

section
/-!
PROOFS. The statements of 42_addressing.md: how MATCH_ROM (R200, R201), SKIP_ROM (R202, R203) and SEND_COMMAND (R204,
R205) end.
-/

namespace Sys2Proof.Machine

section selection

variable {s : State} {i : Instr} {h : Hidden} {l : List Micro} {evs : List TraceEv} {ds ds0 : List PinDraw} {n k : Nat}

/-! ## Selecting a device, or all of them (42_addressing.md R200, R202) -/

/-- The write slots of a selection: MATCH_SEQ sends nine bytes, SKIP_SEQ one. -/
def selectionSlots (byMatch : Bool) : Nat := if byMatch then 72 else 8

/-- The sequencer steps of a selection. -/
def selectionSteps (byMatch : Bool) : Nat := if byMatch then 468 else 50

/-- The selection of SEND_COMMAND (R204), by match or by skip: two draws a slot, and the presence sample stays. -/
theorem run_selection (hq : s.quiet) (byMatch : Bool) (hl : ds0.length = 2 * selectionSlots byMatch)
    (hok : allOk s.cfg ds0) :
    ∃ h',
      runSeq (k + selectionSteps byMatch)
          (s.moved ((if byMatch then matchSeq else skipSeq) ++ l) h evs (ds0 ++ ds) n) =
        runSeq k (s.moved l h' (evs ++ if byMatch then matchEvs s.regs.romid else byteEvs 0xCC#8) ds
          (n + selectionSlots byMatch * slotCycles s.cfg 2)) ∧
      h'.pres = h.pres ∧ h'.presV = h.presV := by
  cases byMatch with
  | false =>
    obtain ⟨tm, hrun⟩ := run_writeByteSeq (rest := l) hq cmdSkipRom h evs ds0 ds n k hl hok
    exact ⟨_, hrun, rfl, rfl⟩
  | true =>
    obtain ⟨tm, j, sh, hrun⟩ := run_matchSeq (rest := l) hq h evs ds0 ds n k hl hok
    exact ⟨_, hrun, rfl, rfl⟩

/-- What SEND_COMMAND sends after its reset sequence (R204): a selection, then the command byte. -/
theorem run_selectAndSend (hq : s.quiet) (byMatch : Bool) (byte : Byte) {ds1 : List PinDraw}
    (hl0 : ds0.length = 2 * selectionSlots byMatch) (hok0 : allOk s.cfg ds0)
    (hl1 : ds1.length = 16) (hok1 : allOk s.cfg ds1) :
    ∃ h',
      runSeq (k + 50 + selectionSteps byMatch)
          (s.moved ((if byMatch then matchSeq else skipSeq) ++ (writeByteSeq byte ++ l)) h evs
            (ds0 ++ (ds1 ++ ds)) n) =
        runSeq k (s.moved l h'
          (evs ++ (if byMatch then matchEvs s.regs.romid else byteEvs 0xCC#8) ++ byteEvs byte) ds
          (n + selectionSlots byMatch * slotCycles s.cfg 2 + 8 * slotCycles s.cfg 2)) ∧
      h'.drv = false ∧ h'.pres = h.pres ∧ h'.presV = h.presV := by
  obtain ⟨h', hselect, hpres, hpresV⟩ := run_selection (l := writeByteSeq byte ++ l) (h := h) (evs := evs)
    (ds := ds1 ++ ds) (n := n) (k := k + 50) hq byMatch hl0 hok0
  obtain ⟨tm, hbyte⟩ := run_writeByteSeq (rest := l) hq byte h' _ ds1 ds _ k hl1 hok1
  exact ⟨_, hselect.trans hbyte, rfl, hpres, hpresV⟩

/-- A command that reaches `finish` with a presence sample taken: its results, PRESENCE and DONE (60_exceptions.md
R274). -/
theorem endsWith_of_sampled_finish {c : Commit} (hq : s.quiet) (hd : s.port.draws = ds0)
    (hrun : runSeq stepBound (s.moved (procedureOf i) s.hid [] ds0 0) =
      runSeq (k + 1) (s.moved (.finish c :: l) h evs ds n)) (hp : h.presV = true) :
    endsWith i s { s.regs.commit h c with done := true, presence := h.pres } h.drv evs ds (n + 1) := by
  rw [run_finish hq, Regs.latchPresence, if_pos hp] at hrun
  exact endsWith_of_runSeq hd hrun

/-- The draws of SEND_COMMAND: RESET_SEQ, a selection with m draws, the command byte. -/
theorem sendCommandDraws {m : Nat} (hl : ds.length = m + 20) :
    ∃ d0 d1 d2 d3 xs ys, ds = d0 :: d1 :: d2 :: d3 :: (xs ++ ys) ∧ xs.length = m ∧ ys.length = 16 := by
  match ds, hl with
  | d0 :: d1 :: d2 :: d3 :: tl, hl =>
    simp only [List.length_cons] at hl
    obtain ⟨xs, ys, rfl, hx, hy⟩ := take_drop_split tl m (by omega)
    exact ⟨d0, d1, d2, d3, xs, ys, rfl, hx, by omega⟩

/-- SEND_COMMAND's procedure as its parts, one after another. -/
theorem procSendCommand_eq (byte : Byte) (byMatch : Bool) :
    procSendCommand byte byMatch = .act .clearPresV ::
      (resetSeq ++ ((if byMatch then matchSeq else skipSeq) ++ (writeByteSeq byte ++ [.finish .nothing]))) := by
  simp only [procSendCommand, List.append_assoc, List.cons_append, List.nil_append]

/-- The steps of SEND_COMMAND are within the bound of a run. -/
theorem stepBound_sendCommand (byMatch : Bool) :
    ∃ k, stepBound = k + 1 + 50 + selectionSteps byMatch + 8 + 1 := by
  cases byMatch with
  | false => exact ⟨3986, rfl⟩
  | true => exact ⟨3568, rfl⟩

/-- The cycles of SEND_COMMAND (70_reset_and_hazards.md R313): the reset sequence, the selection, the command byte. -/
theorem sendCommand_cycles (p : Params) (byMatch : Bool) (w : Nat) :
    0 + (960 * p.ticksPerUs + w + 4 * p.actLat) + selectionSlots byMatch * slotCycles p 2 + 8 * slotCycles p 2 + 1 =
      cycles p (if byMatch then 6560 else 2080) w (if byMatch then 164 else 36) := by
  cases byMatch with
  | false => simp only [selectionSlots, slotCycles, cycles, Bool.false_eq_true, if_false]; ring
  | true => simp only [selectionSlots, slotCycles, cycles, if_true]; ring

/-- SEND_COMMAND up to `finish` (R204, R205): it goes on whatever the presence sample, which the hidden registers
keep. -/
theorem run_sendCommand (hr : s.ready) (byte : Byte) (byMatch : Bool) {d0 d1 d2 d3 : PinDraw} {ds1 : List PinDraw}
    (hok : allOk s.cfg (d0 :: d1 :: d2 :: d3 :: (ds0 ++ ds1))) (hl0 : ds0.length = 2 * selectionSlots byMatch)
    (hl1 : ds1.length = 16) (hi : d0.idlesHigh s.cfg) (hv : s.hid.drv = false) :
    ∃ k h',
      runSeq stepBound (s.moved (procSendCommand byte byMatch) s.hid []
          (d0 :: d1 :: d2 :: d3 :: (ds0 ++ (ds1 ++ ds))) 0) =
        runSeq (k + 1) (s.moved [.finish .nothing] h'
          (resetEvs (!d3.high) ++ (if byMatch then matchEvs s.regs.romid else byteEvs 0xCC#8) ++ byteEvs byte) ds
          (0 + (960 * s.cfg.ticksPerUs + d0.delay + 4 * s.cfg.actLat) + selectionSlots byMatch * slotCycles s.cfg 2 +
            8 * slotCycles s.cfg 2)) ∧
      h'.drv = false ∧ h'.pres = !d3.high ∧ h'.presV = true := by
  obtain ⟨hq, ha⟩ := hr
  obtain ⟨hok4, hok0, hok1⟩ := allOk_pass hok
  obtain ⟨f0, f1, f2, f3, -⟩ : d0.fault s.cfg = none ∧ d1.fault s.cfg = none ∧ d2.fault s.cfg = none ∧
      d3.fault s.cfg = none ∧ allOk s.cfg [] := by simpa only [allOk_cons] using hok4
  obtain ⟨k, hk⟩ := stepBound_sendCommand byMatch
  refine ⟨k, ?_⟩
  rw [procSendCommand_eq, hk, run_clearPresV ha, run_resetSeq hq f0 f1 f2 f3 hi hv]
  exact run_selectAndSend hq byMatch byte hl0 hok0 hl1 hok1

end selection

/-! ## The addressing commands (42_addressing.md R200 to R205) -/

/-- Settles O43: the 72 slots of MATCH_SEQ (`run_matchSeq`), and `finish` follows. -/
theorem matchRomSendsTheAddress : Obligations.MatchRomSendsTheAddress := by
  unfold Obligations.MatchRomSendsTheAddress
  intro s ds rest hr hd hl hok
  obtain ⟨tm, k, sh, hrun⟩ := run_matchSeq (rest := [.finish .nothing]) hr.1 s.hid [] ds rest 0 3628 hl hok
  have hends := endsWith_of_finish (i := .matchRom) hr hd hrun rfl
  rwa [slotCycles_mul_eq_cycles] at hends

/-- Settles O44: the eight slots of SKIP_SEQ (`run_writeByteSeq`), and `finish` follows. -/
theorem skipRomSendsTheSkipByte : Obligations.SkipRomSendsTheSkipByte := by
  unfold Obligations.SkipRomSendsTheSkipByte
  intro s ds rest hr hd hl hok
  obtain ⟨tm, hrun⟩ := run_writeByteSeq (rest := [.finish .nothing]) hr.1 cmdSkipRom s.hid [] ds rest 0 4046 hl hok
  have hends := endsWith_of_finish (i := .skipRom) hr hd hrun rfl
  rwa [slotCycles_mul_eq_cycles] at hends

/-- Settles O45: the reset sequence, the selection and the command byte (`run_sendCommand`), and `finish` commits the
presence sample (`endsWith_of_sampled_finish`). -/
theorem sendCommandSelectsAndSends : Obligations.SendCommandSelectsAndSends := by
  unfold Obligations.SendCommandSelectsAndSends
  intro byte byMatch s ds rest hr hd hl hok hi hv
  have hl' : ds.length = 2 * selectionSlots byMatch + 20 := by rw [hl]; cases byMatch <;> rfl
  obtain ⟨d0, d1, d2, d3, ds0, ds1, rfl, hl0, hl1⟩ := sendCommandDraws hl'
  simp only [List.cons_append, List.append_assoc] at hd
  obtain ⟨k, h', hrun, hdrv, hpres, hpresV⟩ := run_sendCommand hr byte byMatch hok hl0 hl1 hi hv
  have hends := endsWith_of_sampled_finish (i := .sendCommand byte byMatch) hr.1 hd hrun hpresV
  rwa [sendCommand_cycles, hdrv, hpres] at hends

end Sys2Proof.Machine
end

section
/-!
PROOFS. The statements of 43_search.md: how a pass of SEARCH ends (R222 to R240), and which devices of the reference bus
the passes find (R243, R244).
-/

namespace Sys2Proof.Machine

/-! ## The ends of a pass (R222, R223, R237 to R239) -/

section passEnds

variable {s : State} {i : Instr} {h : Hidden} {l : List Micro} {evs : List TraceEv} {ds ds0 : List PinDraw} {n k : Nat}

/-- A command that raises with a presence sample taken and FOUND clear, as R114 leaves it: PRESENCE, PINERR for
PinFailure, ERR and DONE (60_exceptions.md R275). -/
theorem endsWith_of_sampled_raise {e : CmdError} (hr : s.ready) (hd : s.port.draws = ds0)
    (hrun : runSeq stepBound (s.moved (procedureOf i) s.hid [] ds0 0) =
      runSeq (k + 1) (s.moved (.raise e :: l) h evs ds n)) (hp : h.presV = true) :
    endsWith i s { s.regs.recordPinErr e with done := true, presence := h.pres, err := e.kind } h.drv evs ds
      (n + 1) := by
  obtain ⟨hq, -, -, hfound, -⟩ := hr
  have hregs : ((s.regs.latchPresence h).recordPinErr e).raiseFlags e =
      { s.regs.recordPinErr e with done := true, presence := h.pres, err := e.kind } := by
    cases e <;> simp only [Regs.latchPresence, Regs.recordPinErr, Regs.raiseFlags, hp, if_true, hfound]
  rw [run_raise hq, hregs] at hrun
  exact endsWith_of_runSeq hd hrun

/-- Step 1 of a resumed search with SDISC = 0 (R222): on to `finish`. -/
theorem run_searchEnter_exhausted {alarm : Bool} (hx : s.regs.sdisc = 0#64) :
    runSeq (k + 1) (s.moved [.act (.searchEnter true alarm)] h evs ds n) =
      runSeq k (s.moved [.finish .nothing] h evs ds n) := by
  rw [run_act]
  simp only [Act.next, Act.hid, moved_regs, moved_hid, hx, Bool.true_and, beq_self_eq_true, if_true, List.cons_append,
    List.nil_append]

/-- Step 2 with no presence sampled (R223): on to `finish`. -/
theorem run_searchPresence_none {resume alarm : Bool} (hp : h.pres = false) :
    runSeq (k + 1) (s.moved [.act (.searchPresence resume alarm)] h evs ds n) =
      runSeq k (s.moved [.finish .nothing] h evs ds n) := by
  rw [run_act]
  simp only [Act.next, Act.hid, moved_hid, hp, Bool.false_eq_true, if_false, List.cons_append, List.nil_append]

/-- Step 6 (R237, R238): the validator's verdict on w_addr. -/
theorem run_validate :
    runSeq (k + 1) (s.moved (.act .validate :: l) h evs ds n) =
      runSeq k (s.moved ((if crcValid s.cfg h.wAddr then .finish .searchState else .raise .checksumMismatch) :: l) h
        evs ds n) := by
  rw [run_act]
  by_cases hc : crcValid s.cfg h.wAddr = true
  · simp only [Act.next, Act.hid, moved_hid, moved_cfg, hc, if_true, List.cons_append, List.nil_append]
  · simp only [Act.next, Act.hid, moved_hid, moved_cfg, hc, Bool.false_eq_true, if_false, List.cons_append,
      List.nil_append]

end passEnds

/-- Settles O46: step 1 comes to `finish` (`run_searchEnter_exhausted`). -/
theorem exhaustedSearchReturnsNone : Obligations.ExhaustedSearchReturnsNone := by
  unfold Obligations.ExhaustedSearchReturnsNone
  intro alarm s hr hx
  simpa [cycles, Regs.commit] using
    endsWith_of_finish (i := .search true alarm) hr rfl (run_searchEnter_exhausted hx) rfl

/-- Settles O47: the reset sequence (`run_resetSeq`), and step 2 comes to `finish` (`run_searchPresence_none`). -/
theorem searchOnAnEmptyBusReturnsNone : Obligations.SearchOnAnEmptyBusReturnsNone := by
  unfold Obligations.SearchOnAnEmptyBusReturnsNone
  intro resume alarm s d0 d1 d2 d3 ds ⟨hq, ha⟩ hx hd hok hi hv hp
  obtain ⟨h0, h1, h2, h3, -⟩ : d0.fault s.cfg = none ∧ d1.fault s.cfg = none ∧ d2.fault s.cfg = none ∧
      d3.fault s.cfg = none ∧ allOk s.cfg [] := by simpa only [allOk_cons] using hok
  have hrun : runSeq stepBound (s.moved (procSearch resume alarm) s.hid [] (d0 :: d1 :: d2 :: d3 :: ds) 0) = _ :=
    (run_searchEnter hx).trans <| (run_resetSeq hq h0 h1 h2 h3 hi hv).trans <|
      run_searchPresence_none (k := 4086) (by simp only [hp, Bool.not_true])
  have hends := endsWith_of_sampled_finish (i := .search resume alarm) hq hd hrun rfl
  simpa [cycles, Regs.commit, hp] using hends

/-- Settles O48: the whole pass (`run_pass`), whose address the validator accepts (`run_validate`); `finish` commits the
working values and the presence sample. -/
theorem searchFindsAnAddress : Obligations.SearchFindsAnAddress := by
  unfold Obligations.SearchFindsAnAddress
  intro resume alarm s ds rest p hr hx hd hl hok hi hv hp3 hp hc
  obtain ⟨h, hdrv, hpres, hpresV, haddr, hdisc, hldi, hrun⟩ :=
    run_pass hr.1 resume alarm ds rest p hx hl hok hi hv hp3 hp 2690
  rw [run_validate, haddr, if_pos hc] at hrun
  have hends := endsWith_of_sampled_finish (i := .search resume alarm) hr.1 hd hrun hpresV
  rwa [Regs.commit, haddr, hdisc, hldi, hpres, hdrv] at hends

/-- Settles O49: the whole pass (`run_pass`), whose address the validator rejects (`run_validate`). -/
theorem searchDiscardsABadChecksum : Obligations.SearchDiscardsABadChecksum := by
  unfold Obligations.SearchDiscardsABadChecksum
  intro resume alarm s ds rest p hr hx hd hl hok hi hv hp3 hp hc
  obtain ⟨h, hdrv, hpres, hpresV, haddr, -, -, hrun⟩ :=
    run_pass hr.1 resume alarm ds rest p hx hl hok hi hv hp3 hp 2690
  rw [run_validate, haddr, if_neg (by simp only [hc, Bool.false_eq_true, not_false_iff])] at hrun
  have hends := endsWith_of_sampled_raise (i := .search resume alarm) hr hd hrun hpresV
  rwa [Regs.recordPinErr, hpres, hdrv] at hends

/-! ## A pass to one of its positions (R227 to R235) -/

section position

variable {s : State} {h : Hidden} {evs : List TraceEv} {ds ds0 : List PinDraw} {n k i : Nat}
  {resp : Nat → Bool × Bool} {b : Rom} {p : Pass}

theorem respIn_append_left {xs : List PinDraw} (ys : List PinDraw) {m j : Nat} (hx : xs.length = 8 * m) (hj : j < m) :
    respIn (xs ++ ys) j = respIn xs j := by
  simp only [respIn]
  rw [drawAt_append_left _ (by omega), drawAt_append_left _ (by omega)]

theorem respIn_append_right {xs : List PinDraw} (ys : List PinDraw) {m : Nat} (hx : xs.length = 8 * m) (j : Nat) :
    respIn (xs ++ ys) (m + j) = respIn ys j := by
  simp only [respIn]
  rw [show 8 * (m + j) + 2 = xs.length + (8 * j + 2) by omega,
    show 8 * (m + j) + 5 = xs.length + (8 * j + 5) by omega, drawAt_append_right, drawAt_append_right]

/-- The trace of m positions from i on, by the responses and the bits written. -/
def positionEvs (resp : Nat → Bool × Bool) (b : Rom) (i m : Nat) : List TraceEv :=
  (List.range' i m).flatMap fun j => posEvs (resp j) (b.getLsbD j)

theorem passEvsTo_eq_positionEvs (ds : List PinDraw) (b : Rom) (n : Nat) :
    passEvsTo ds b n = positionEvs (respAt ds) b 0 n := by
  rw [positionEvs, ← List.range_eq_range']
  rfl

/-- The values of a resumed pass at its first position above L (R229, R231). -/
def flipped (a d : Rom) (l : Nat) : Pass := ⟨assignBit a l true, assignBit d l false, rederive d l⟩

/-- The trace of a resumed pass to a position above L: the replay, the flip, and the walk. -/
theorem positionEvs_above {a d : Rom} {l m : Nat} (hl : l < 64) (hL : resp l = (true, true))
    (hp : walkPass resp m (l + 1) (flipped a d l) = some p) :
    positionEvs resp p.addr 0 (l + 1 + m) =
      positionEvs resp a 0 l ++ posEvs (true, true) true ++ positionEvs resp p.addr (l + 1) m := by
  have hbelow := walkPass_below _ _ _ _ _ hp
  have hbit : p.addr.getLsbD l = true := by
    rw [hbelow l (Nat.lt_succ_self l), flipped, getLsbD_assignBit, if_pos ⟨rfl, hl⟩]
  have hreplay : positionEvs resp p.addr 0 l = positionEvs resp a 0 l := by
    refine List.flatMap_congr fun j hj => ?_
    have hj : j < l := by simpa using hj
    rw [hbelow j (by omega), flipped, getLsbD_assignBit, if_neg (by omega)]
  have hrange : List.range' 0 (l + 1 + m) = List.range' 0 l ++ (l :: List.range' (l + 1) m) := by
    rw [← List.range'_succ, Nat.add_assoc, Nat.add_comm 1 m, ← List.range'_append_1, Nat.zero_add]
  rw [← hreplay]
  simp only [positionEvs, hrange, List.flatMap_append, List.flatMap_cons, hL, hbit, List.append_assoc]

/-- A fresh pass from its starting point (R227) to position i. -/
theorem run_fresh_to (hq : s.quiet) (hv : h.drv = false) (hi : i ≤ 64) (hl : ds0.length = 8 * i)
    (hok : allOk s.cfg ds0) (hr : ∀ j, j < i → respIn ds0 j = resp j)
    (hp : walkPass resp i 0 ⟨0#64, 0#64, 0#6⟩ = some p) :
    ∃ h',
      runSeq (k + 21 * i + 1) (s.moved [.act (.searchStart false)] h evs (ds0 ++ ds) n) =
        runSeq k (s.moved [.act .walk] h' (evs ++ positionEvs resp p.addr 0 i) ds (n + i * posCycles s.cfg)) ∧
      h'.i = i ∧ h'.drv = false ∧ h'.pres = h.pres ∧ h'.presV = h.presV := by
  obtain ⟨tm, bit, r0, r1, hrun⟩ := run_walk_steps (rest := []) hq resp i
    { h with wLdi := 0#6, wAddr := 0#64, wDisc := 0#64, i := 0 } evs ds0 ds n k p ((Nat.zero_add i).le.trans hi) hl hok
    (by simpa only [Nat.zero_add] using hr) hp
  rw [run_act]
  exact ⟨_, hrun, Nat.zero_add i, by simp only [hv, ite_self], rfl, rfl⟩

/-- The replay (R228), from the starting point of a resumed pass to L. -/
theorem run_resumed_to_L (hq : s.quiet) (hv : h.drv = false) (hl : ds0.length = 8 * s.resumeAt)
    (hok : allOk s.cfg ds0) (hr : ∀ j, j < s.resumeAt → respIn ds0 j = resp j) :
    ∃ h',
      runSeq (k + 21 * s.resumeAt + 1) (s.moved [.act (.searchStart true)] h evs (ds0 ++ ds) n) =
        runSeq k (s.moved [.act .replay] h' (evs ++ positionEvs resp s.regs.saddr 0 s.resumeAt) ds
          (n + s.resumeAt * posCycles s.cfg)) ∧
      h'.i = s.resumeAt ∧ h'.wLdi = rederive s.regs.sdisc s.resumeAt ∧ h'.drv = false ∧ h'.pres = h.pres ∧
      h'.presV = h.presV := by
  obtain ⟨tm, bit, r0, r1, hrun⟩ := run_replay (rest := []) hq resp s.resumeAt { h with wLdi := 0#6, i := 0 } evs ds0
    ds n k (Nat.zero_add _) hl hok (by simpa only [Nat.zero_add] using hr)
  rw [run_act]
  exact ⟨_, hrun, rfl, replayLdi_rederive _ _, by simp only [hv, ite_self], rfl, rfl⟩

/-- The draws of a resumed pass that comes to a position above L: those of the replay, the eight of L, where both
respond, and those of the walk. -/
theorem drawsAround_L {q : Params} {l m : Nat} (hl : ds0.length = 8 * (l + 1 + m)) (hok : allOk q ds0)
    (hr : ∀ j, j < l + 1 + m → respIn ds0 j = resp j) (hL : resp l = (true, true)) :
    ∃ us e0 e1 e2 e3 e4 e5 e6 e7 ws, ds0 = us ++ e0 :: e1 :: e2 :: e3 :: e4 :: e5 :: e6 :: e7 :: ws ∧
      us.length = 8 * l ∧ ws.length = 8 * m ∧
      allOk q us ∧ allOk q [e0, e1, e2, e3, e4, e5, e6, e7] ∧ allOk q ws ∧ e2.high = false ∧ e5.high = false ∧
      (∀ j, j < l → respIn us j = resp j) ∧ ∀ j, j < m → respIn ws j = resp (l + 1 + j) := by
  obtain ⟨us, vs, rfl, hul, hvl⟩ := take_drop_split ds0 (8 * l) (by omega)
  obtain ⟨e0, e1, e2, e3, e4, e5, e6, e7, ws, rfl, hwl⟩ := eight_draws (m := m) (ds0 := vs) (by omega)
  rw [allOk_append] at hok
  obtain ⟨hok8, hokw⟩ : allOk q [e0, e1, e2, e3, e4, e5, e6, e7] ∧ allOk q ws := allOk_append.1 hok.2
  have hrv (j : Nat) (hj : j < m + 1) :
      respIn (e0 :: e1 :: e2 :: e3 :: e4 :: e5 :: e6 :: e7 :: ws) j = resp (l + j) := by
    rw [← hr (l + j) (by omega), respIn_append_right _ hul]
  obtain ⟨he2, he5⟩ : e2.high = false ∧ e5.high = false := by
    have h0 : ((!e2.high, !e5.high) : Bool × Bool) = (true, true) := (hrv 0 (by omega)).trans hL
    simpa using h0
  refine ⟨us, e0, e1, e2, e3, e4, e5, e6, e7, ws, rfl, hul, hwl, hok.1, hok8, hokw, he2, he5, fun j hj => ?_,
    fun j hj => ?_⟩
  · rw [← hr j (by omega), respIn_append_left _ hul hj]
  · rw [← respIn_cons8 e0 e1 e2 e3 e4 e5 e6 e7, hrv (j + 1) (by omega), Nat.add_assoc, Nat.add_comm 1 j]

/-- A resumed pass from its starting point to a position above L (R228 to R231, R232). -/
theorem run_resumed_above (hq : s.quiet) (hv : h.drv = false) {m : Nat} (hi : s.resumeAt + 1 + m ≤ 64)
    (hl : ds0.length = 8 * (s.resumeAt + 1 + m)) (hok : allOk s.cfg ds0)
    (hr : ∀ j, j < s.resumeAt + 1 + m → respIn ds0 j = resp j) (hL : resp s.resumeAt = (true, true))
    (hp : walkPass resp m (s.resumeAt + 1) (flipped s.regs.saddr s.regs.sdisc s.resumeAt) = some p) :
    ∃ h',
      runSeq (k + 21 * (s.resumeAt + 1 + m) + 1) (s.moved [.act (.searchStart true)] h evs (ds0 ++ ds) n) =
        runSeq k (s.moved [.act .walk] h' (evs ++ positionEvs resp p.addr 0 (s.resumeAt + 1 + m)) ds
          (n + (s.resumeAt + 1 + m) * posCycles s.cfg)) ∧
      h'.i = s.resumeAt + 1 + m ∧ h'.drv = false ∧ h'.pres = h.pres ∧ h'.presV = h.presV := by
  obtain ⟨us, e0, e1, e2, e3, e4, e5, e6, e7, ws, rfl, hul, hwl, hoku, hok8, hokw, he2, he5, hru, hrw⟩ :=
    drawsAround_L hl hok hr hL
  obtain ⟨h1, hreplay, hi1, hw1, hv1, hp1, hpv1⟩ := run_resumed_to_L (h := h) (evs := evs)
    (ds := e0 :: e1 :: e2 :: e3 :: e4 :: e5 :: e6 :: e7 :: (ws ++ ds)) (n := n) (k := k + 21 * m + 21) hq hv hul hoku
    hru
  obtain ⟨tm, hflip⟩ := run_confirm (rest := []) (ds := ws ++ ds) (h := h1)
    (evs := evs ++ positionEvs resp s.regs.saddr 0 s.resumeAt) (n := n + s.resumeAt * posCycles s.cfg) (k := k + 21 * m)
    hq hok8 hi1 he2 he5
  rw [hw1] at hflip
  obtain ⟨tm', bit, r0, r1, hwalk⟩ := run_walk_steps (rest := []) hq resp m
    { h1 with
      i := s.resumeAt + 1, wAddr := assignBit s.regs.saddr s.resumeAt true,
      wDisc := assignBit s.regs.sdisc s.resumeAt false, wLdi := rederive s.regs.sdisc s.resumeAt, drv := false,
      tmr := tm, bit := false, r0 := true, r1 := true }
    (evs ++ positionEvs resp s.regs.saddr 0 s.resumeAt ++ posEvs (true, true) true) ws ds
    (n + s.resumeAt * posCycles s.cfg + posCycles s.cfg) k p hi hwl hokw hrw hp
  have hevs : evs ++ positionEvs resp s.regs.saddr 0 s.resumeAt ++ posEvs (true, true) true ++
      positionEvs resp p.addr (s.resumeAt + 1) m = evs ++ positionEvs resp p.addr 0 (s.resumeAt + 1 + m) := by
    rw [positionEvs_above (l := s.resumeAt) s.regs.sldi.isLt hL hp]
    simp only [List.append_assoc]
  have hcycles : n + s.resumeAt * posCycles s.cfg + posCycles s.cfg + m * posCycles s.cfg =
      n + (s.resumeAt + 1 + m) * posCycles s.cfg := by ring
  rw [← hevs, ← hcycles, List.append_assoc,
    show k + 21 * (s.resumeAt + 1 + m) + 1 = k + 21 * m + 21 + 21 * s.resumeAt + 1 by ring]
  exact ⟨_, hreplay.trans (hflip.trans hwalk), rfl, ite_self _, hp1, hpv1⟩

end position

/-! ## The bits written below a position (R228, R231 to R235) -/

section bits

variable {resp : Nat → Bool × Bool} {a b d : Rom} {l m i : Nat} {p : Pass}

theorem bitsUpTo_fresh : bitsUpTo false a d l resp i = some b ↔
    ∃ p, walkPass resp i 0 ⟨0#64, 0#64, 0#6⟩ = some p ∧ p.addr = b := by
  simp only [bitsUpTo, Bool.false_eq_true, if_false, Option.map_eq_some_iff]

theorem bitsUpTo_at : bitsUpTo true a d l resp l = some a := by
  simp only [bitsUpTo, if_true, le_refl]

theorem bitsUpTo_above : bitsUpTo true a d l resp (l + 1 + m) = some b ↔
    resp l = (true, true) ∧ ∃ p, walkPass resp m (l + 1) (flipped a d l) = some p ∧ p.addr = b := by
  simp only [bitsUpTo, if_true, if_neg (show ¬l + 1 + m ≤ l by omega), Nat.add_sub_cancel_left]
  split
  next hL => simp only [hL, true_and, Option.map_eq_some_iff, flipped]
  next hL => simp only [hL, false_and, reduceCtorEq]

/-- A walk with no outcome is one that comes to a position with no response. -/
theorem walkPass_eq_none_iff (n : Nat) : ∀ (i : Nat) (p : Pass), walkPass resp n i p = none ↔
    ∃ m q, m < n ∧ walkPass resp m i p = some q ∧ resp (i + m) = (false, false) := by
  induction n with
  | zero => intro i p; simp [walkPass]
  | succ n ih =>
    intro i p
    rw [walkPass_succ]
    split
    next h0 => exact iff_of_true rfl ⟨0, p, Nat.succ_pos n, rfl, h0⟩
    next h0 =>
      rw [ih]
      constructor
      · rintro ⟨m, q, hm, hw, hr⟩
        refine ⟨m + 1, q, Nat.succ_lt_succ hm, ?_, ?_⟩
        · rw [walkPass_succ, if_neg h0, hw]
        · rw [← hr]; congr 1; omega
      · rintro ⟨_ | m, q, hm, hw, hr⟩
        · exact absurd hr h0
        · rw [walkPass_succ, if_neg h0] at hw
          refine ⟨m, q, Nat.lt_of_succ_lt_succ hm, hw, ?_⟩
          rw [← hr]; congr 1; omega

theorem searchPass_fresh : searchPass false a d l resp = walkPass resp 64 0 ⟨0#64, 0#64, 0#6⟩ := rfl

theorem searchPass_resumed (hL : resp l = (true, true)) :
    searchPass true a d l resp = walkPass resp (63 - l) (l + 1) (flipped a d l) := by
  simp only [searchPass, if_true, hL, flipped]

/-- A pass gives no address exactly if it comes to an unexpected response. -/
theorem searchPass_eq_none_iff (resume : Bool) (hl : l < 64) : searchPass resume a d l resp = none ↔
    ∃ i b, i < 64 ∧ bitsUpTo resume a d l resp i = some b ∧ unexpectedAt resume l resp i := by
  cases resume with
  | false =>
    simp only [searchPass_fresh, walkPass_eq_none_iff, bitsUpTo_fresh, unexpectedAt, Bool.false_eq_true, if_false,
      Nat.zero_add]
    constructor
    · rintro ⟨i, p, hi, hp, hr⟩
      exact ⟨i, p.addr, hi, ⟨p, hp, rfl⟩, hr⟩
    · rintro ⟨i, b, hi, ⟨p, hp, -⟩, hr⟩
      exact ⟨i, p, hi, hp, hr⟩
  | true =>
    simp only [unexpectedAt, if_true]
    by_cases hL : resp l = (true, true)
    · rw [searchPass_resumed hL, walkPass_eq_none_iff]
      constructor
      · rintro ⟨m, p, hm, hp, hr⟩
        exact ⟨l + 1 + m, p.addr, by omega, bitsUpTo_above.2 ⟨hL, p, hp, rfl⟩, .inr ⟨by omega, hr⟩⟩
      · rintro ⟨i, b, hi, hb, ⟨-, hne⟩ | ⟨hlt, hr⟩⟩
        · exact absurd hL hne
        · obtain ⟨m, rfl⟩ := Nat.exists_eq_add_of_le (show l + 1 ≤ i from hlt)
          obtain ⟨-, p, hp, -⟩ := bitsUpTo_above.1 hb
          exact ⟨m, p, by omega, hp, hr⟩
    · exact iff_of_true (by simp only [searchPass, if_true, if_neg hL]) ⟨l, a, hl, bitsUpTo_at, .inl ⟨rfl, hL⟩⟩

end bits

/-! ## An unexpected response (R230, R232) -/

section unexpected

variable {s : State} {h : Hidden} {evs : List TraceEv} {ds ds0 : List PinDraw} {n k i : Nat} {resume alarm : Bool}
  {resp : Nat → Bool × Bool} {b : Rom}

/-- The loop at whose head a pass stands at position i: the replay up to L of a resumed pass, else the walk. -/
def loopAt (resume : Bool) (l i : Nat) : Act := if resume = true ∧ i ≤ l then .replay else .walk

/-- The two loops' unexpected responses: at L of the replay, any but both (R230); in the walk, none (R232). -/
theorem unexpectedAt_cases {l : Nat} (hu : unexpectedAt resume l resp i) :
    (loopAt resume l i = .replay ∧ i = l ∧ resp i ≠ (true, true)) ∨
      (loopAt resume l i = .walk ∧ resp i = (false, false)) := by
  cases resume with
  | false => exact .inr ⟨rfl, hu⟩
  | true =>
    rcases hu with ⟨rfl, hne⟩ | ⟨hlt, h0⟩
    · exact .inl ⟨if_pos ⟨rfl, le_rfl⟩, rfl, hne⟩
    · exact .inr ⟨if_neg (by omega), h0⟩

/-- A pass from its starting point to a position where it meets an unexpected response. -/
theorem run_to_unexpected (hq : s.quiet) (hv : h.drv = false) (hi : i < 64) (hl : ds0.length = 8 * i)
    (hok : allOk s.cfg ds0) (hr : ∀ j, j < i → respIn ds0 j = resp j)
    (hb : bitsUpTo resume s.regs.saddr s.regs.sdisc s.resumeAt resp i = some b)
    (hu : unexpectedAt resume s.resumeAt resp i) :
    ∃ h',
      runSeq (k + 21 * i + 1) (s.moved [.act (.searchStart resume)] h evs (ds0 ++ ds) n) =
        runSeq k (s.moved [.act (loopAt resume s.resumeAt i)] h' (evs ++ positionEvs resp b 0 i) ds
          (n + i * posCycles s.cfg)) ∧
      h'.i = i ∧ h'.drv = false ∧ h'.pres = h.pres ∧ h'.presV = h.presV := by
  cases resume with
  | false =>
    obtain ⟨p, hp, rfl⟩ := bitsUpTo_fresh.1 hb
    exact run_fresh_to hq hv hi.le hl hok hr hp
  | true =>
    rcases hu with ⟨rfl, -⟩ | ⟨hlt, -⟩
    · obtain ⟨h', hrun, hi', -, hh⟩ :=
        run_resumed_to_L (h := h) (evs := evs) (ds := ds) (n := n) (k := k) hq hv hl hok hr
      obtain rfl : s.regs.saddr = b := Option.some.inj (bitsUpTo_at.symm.trans hb)
      rw [loopAt, if_pos ⟨rfl, le_rfl⟩]
      exact ⟨h', hrun, hi', hh⟩
    · obtain ⟨m, rfl⟩ := Nat.exists_eq_add_of_le (show s.resumeAt + 1 ≤ i from hlt)
      obtain ⟨hL, p, hp, rfl⟩ := bitsUpTo_above.1 hb
      rw [loopAt, if_neg (by omega)]
      exact run_resumed_above hq hv (by omega) hl hok hr hL hp

/-- At such a position: two read slots, and it raises (R230, R232). -/
theorem run_unexpected (hq : s.quiet) {d0 d1 d2 d3 d4 d5 : PinDraw} (hok : allOk s.cfg [d0, d1, d2, d3, d4, d5])
    (hhi : h.i = i) (hi : i < 64) (hr : resp i = (!d2.high, !d5.high))
    (hu : unexpectedAt resume s.resumeAt resp i) :
    ∃ h',
      runSeq (k + 16)
          (s.moved [.act (loopAt resume s.resumeAt i)] h evs (d0 :: d1 :: d2 :: d3 :: d4 :: d5 :: ds) n) =
        runSeq k (s.moved [.raise .unexpectedResponse] h' (evs ++ (readSlotEvs d2.high ++ readSlotEvs d5.high)) ds
          (n + 2 * slotCycles s.cfg 3)) ∧
      h'.drv = false ∧ h'.pres = h.pres ∧ h'.presV = h.presV := by
  rcases unexpectedAt_cases hu with ⟨hloop, rfl, hne⟩ | ⟨hloop, h0⟩
  · obtain ⟨h', h1, h2, h3, hrun⟩ :=
      run_confirm_fails (rest := []) (ds := ds) (evs := evs) (n := n) (k := k) hq hok hhi (by simpa [hr] using hne)
    rw [hloop]
    exact ⟨h', hrun, h1, h2, h3⟩
  · obtain ⟨h2, h5⟩ : d2.high = true ∧ d5.high = true := by simpa [hr] using h0
    obtain ⟨h', h1, h3, h4, hrun⟩ :=
      run_walk_fails (rest := []) (ds := ds) (evs := evs) (n := n) (k := k) hq hok (hhi ▸ hi) h2 h5
    rw [hloop, h2, h5]
    exact ⟨h', hrun, h1, h3, h4⟩

/-- The draws of a pass that ends in the read slots of position i. -/
theorem unexpectedDraws (hl : ds.length = 26 + 8 * i) :
    ∃ d0 d1 d2 d3 xs us e0 e1 e2 e3 e4 e5, ds = d0 :: d1 :: d2 :: d3 :: (xs ++ (us ++ [e0, e1, e2, e3, e4, e5])) ∧
      xs.length = 16 ∧ us.length = 8 * i := by
  obtain ⟨ps, tl, rfl, hp, ht⟩ := take_drop_split ds 4 (by omega)
  obtain ⟨xs, ys, rfl, hx, hy⟩ := take_drop_split tl 16 (by omega)
  obtain ⟨us, vs, rfl, hu, hv⟩ := take_drop_split ys (8 * i) (by omega)
  match ps, hp, vs, (show vs.length = 6 by omega) with
  | [d0, d1, d2, d3], _, [e0, e1, e2, e3, e4, e5], _ =>
    exact ⟨d0, d1, d2, d3, xs, us, e0, e1, e2, e3, e4, e5, rfl, hx, hu⟩

/-- A pass that meets an unexpected response at position i, up to `raise`. -/
theorem run_pass_unexpected (hq : s.quiet) (hx : resume = true → s.regs.sdisc ≠ 0#64) (hi : i < 64)
    (hl : ds.length = 26 + 8 * i) (hok : allOk s.cfg ds) (hw : (drawAt ds 0).idlesHigh s.cfg) (hv : s.hid.drv = false)
    (hp : (drawAt ds 3).high = false)
    (hb : bitsUpTo resume s.regs.saddr s.regs.sdisc s.resumeAt (respAt ds) i = some b)
    (hu : unexpectedAt resume s.resumeAt (respAt ds) i) {rest : List PinDraw} :
    ∃ h',
      runSeq (k + 16 + 21 * i + 1 + 60) (s.moved (procSearch resume alarm) s.hid [] (ds ++ rest) 0) =
        runSeq k (s.moved [.raise .unexpectedResponse] h'
          (resetEvs true ++ byteEvs (searchByte alarm) ++ passEvsTo ds b i ++ twoReadEvs ds i) rest
          ((1660 + 210 * i) * s.cfg.ticksPerUs + (drawAt ds 0).delay + (26 + 8 * i) * s.cfg.actLat)) ∧
      h'.drv = false ∧ h'.pres = true ∧ h'.presV = true := by
  rw [passEvsTo_eq_positionEvs, twoReadEvs]
  obtain ⟨d0, d1, d2, d3, xs, us, e0, e1, e2, e3, e4, e5, rfl, hxl, hul⟩ := unexpectedDraws hl
  obtain ⟨hok4, hokx, hoku⟩ := allOk_pass hok
  rw [allOk_append] at hoku
  have hresp (j : Nat) : respAt (d0 :: d1 :: d2 :: d3 :: (xs ++ (us ++ [e0, e1, e2, e3, e4, e5]))) j =
      respIn (us ++ [e0, e1, e2, e3, e4, e5]) j := respAt_pass hxl j
  generalize respAt (d0 :: d1 :: d2 :: d3 :: (xs ++ (us ++ [e0, e1, e2, e3, e4, e5]))) = resp at hb hu hresp ⊢
  have hri : resp i = (!e2.high, !e5.high) := (hresp i).trans (respIn_append_right _ hul 0)
  obtain ⟨tm, hhead⟩ := run_searchHead (h := s.hid) (evs := []) (n := 0)
    (ds := us ++ e0 :: e1 :: e2 :: e3 :: e4 :: e5 :: rest) (fuel := k + 16 + 21 * i + 1) hq resume alarm hx hok4 hw hv
    hp hxl hokx
  obtain ⟨h1, hto, hi1, -, hp1, hpv1⟩ := run_to_unexpected (k := k + 16)
    (h := { s.hid with
      sh := searchByte alarm, k := 8, drv := false, bit := true, pres := true, presV := true, tmr := tm })
    (evs := [] ++ resetEvs true ++ byteEvs (searchByte alarm)) (ds := e0 :: e1 :: e2 :: e3 :: e4 :: e5 :: rest)
    (n := 0 + (960 * s.cfg.ticksPerUs + d0.delay + 4 * s.cfg.actLat) + 8 * slotCycles s.cfg 2)
    hq rfl hi hul hoku.1 (fun j hj => by rw [hresp, respIn_append_left _ hul hj]) hb hu
  obtain ⟨h2, hraise, hv2, hp2, hpv2⟩ := run_unexpected (k := k) (ds := rest) hq hoku.2 hi1 hi hri hu
  refine ⟨h2, Eq.trans ?_ ((hhead.trans (hto.trans hraise)).trans ?_), hv2, hp2.trans hp1, hpv2.trans hpv1⟩
  · simp only [procSearch, List.cons_append, List.append_assoc, List.nil_append]
  · rw [hri, Bool.not_not, Bool.not_not]
    congr 2
    simp only [posCycles, slotCycles, drawAt, List.getD_cons_zero]
    ring

end unexpected

/-- Settles O50: the pass up to `raise` (`run_pass_unexpected`), and which passes those are
(`searchPass_eq_none_iff`). -/
theorem searchFailsOnAnUnexpectedResponse : Obligations.SearchFailsOnAnUnexpectedResponse := by
  unfold Obligations.SearchFailsOnAnUnexpectedResponse
  refine ⟨fun resume alarm s ds rest i b hr hx hd hi hl hok hw hv hp hb hu => ?_,
    fun resume a d l resp hl => searchPass_eq_none_iff resume hl⟩
  obtain ⟨k, hk⟩ : ∃ k, stepBound = k + 1 + 16 + 21 * i + 1 + 60 :=
    ⟨4018 - 21 * i, by rw [stepBound]; omega⟩
  obtain ⟨h', hrun, hdrv, hpres, hpresV⟩ :=
    run_pass_unexpected (k := k + 1) (alarm := alarm) (rest := rest) hr.1 hx hi hl hok hw hv hp hb hu
  rw [← hk] at hrun
  have hends := endsWith_of_sampled_raise (i := .search resume alarm) hr hd hrun hpresV
  rwa [Regs.recordPinErr, hpres, hdrv] at hends

/-! ## The transmission order (R243) -/

section order

variable {a b d : Rom} {i : Nat}

theorem agreeBelow_iff : agreeBelow i a b = true ↔ ∀ j, j < i → a.getLsbD j = b.getLsbD j := by
  simp only [agreeBelow, List.all_eq_true, List.mem_range, beq_iff_eq]

theorem agreeBelow_comm : agreeBelow i a b = agreeBelow i b a := by
  rw [Bool.eq_iff_iff, agreeBelow_iff, agreeBelow_iff]
  exact forall₂_congr fun _ _ => eq_comm

theorem agreeBelow_self : agreeBelow i a a = true := agreeBelow_iff.2 fun _ _ => rfl

theorem agreeBelow_trans (hab : agreeBelow i a b = true) (hbd : agreeBelow i b d = true) : agreeBelow i a d = true :=
  agreeBelow_iff.2 fun j hj => (agreeBelow_iff.1 hab j hj).trans (agreeBelow_iff.1 hbd j hj)

theorem agreeBelow_mono {k : Nat} (hk : k ≤ i) (h : agreeBelow i a b = true) : agreeBelow k a b = true :=
  agreeBelow_iff.2 fun j hj => agreeBelow_iff.1 h j (hj.trans_le hk)

/-- At the first bit in which they differ, one of the two has 0. -/
theorem txBefore_asymm (hab : txBefore a b) : ¬txBefore b a := by
  rintro ⟨k, -, hk, hb, ha⟩
  obtain ⟨i, -, hi, ha', hb'⟩ := hab
  rcases Nat.lt_trichotomy i k with h | rfl | h
  · rw [agreeBelow_iff.1 hk i h, ha'] at hb'
    cases hb'
  · rw [ha] at ha'
    cases ha'
  · rw [agreeBelow_iff.1 hi k h, hb] at ha
    cases ha

theorem not_txBefore_self : ¬txBefore a a := fun h => txBefore_asymm h h

theorem not_txBefore_of_eq_or_txBefore (h : d = b ∨ txBefore b d) : ¬txBefore d b := by
  rcases h with rfl | h
  · exact not_txBefore_self
  · exact txBefore_asymm h

/-- Of devices in transmission order, those behind one of them come after it. -/
theorem txBefore_iff_mem_of_pairwise {devs pre post : List Rom} (hs : pre ++ a :: post = devs)
    (h : devs.Pairwise txBefore) (hd : d ∈ devs) : txBefore a d ↔ d ∈ post := by
  subst hs
  obtain ⟨-, hpost, hpre⟩ := List.pairwise_append.1 h
  refine ⟨fun had => ?_, List.rel_of_pairwise_cons hpost⟩
  rcases List.mem_append.1 hd with hm | hm
  · exact absurd had (txBefore_asymm (hpre d hm a List.mem_cons_self))
  · rcases List.mem_cons.1 hm with rfl | hm
    · exact absurd had not_txBefore_self
    · exact hm

end order

/-! ## The responses of the reference bus (95_test_vectors.md section 2) -/

section bus

variable {devs : List Rom} {a b d : Rom} {i j l : Nat} {v : Bool}

theorem responds_iff :
    responds devs a i v = true ↔ ∃ d ∈ devs, agreeBelow i a d = true ∧ d.getLsbD i = v := by
  simp only [responds, liveAt, List.any_eq_true, List.mem_filter, beq_iff_eq, and_assoc]

theorem branchLeft_iff : branchLeft devs a i = true ↔
    a.getLsbD i = false ∧ ∃ d ∈ devs, agreeBelow i a d = true ∧ d.getLsbD i = true := by
  rw [branchLeft, Bool.and_eq_true, responds_iff, Bool.not_eq_true']

/-- Addresses that agree below a position have the same devices live there. -/
theorem responds_congr (h : agreeBelow i a b = true) : responds devs a i v = responds devs b i v := by
  have hba : agreeBelow i b a = true := agreeBelow_comm.trans h
  rw [Bool.eq_iff_iff, responds_iff, responds_iff]
  exact exists_congr fun d => and_congr_right fun _ => and_congr_left fun _ =>
    ⟨agreeBelow_trans hba, agreeBelow_trans h⟩

/-- A device behind an unexplored branch comes later in transmission order. -/
theorem exists_txBefore_of_branchLeft (hi : i < 64) (h : branchLeft devs a i = true) :
    ∃ d ∈ devs, txBefore a d ∧ agreeBelow i a d = true := by
  obtain ⟨ha, d, hd, hag, hdi⟩ := branchLeft_iff.1 h
  exact ⟨d, hd, ⟨i, hi, hag, ha, hdi⟩, hag⟩

/-- From position i on, the pass that writes the bits of a takes 1 only where no live device has 0. -/
def leads (devs : List Rom) (a : Rom) (i : Nat) : Prop :=
  ∀ j, i ≤ j → j < 64 → a.getLsbD j = true → responds devs a j false = false

/-- A device behind a 0 where a has 1 comes before a. -/
theorem leads_of_not_txBefore (h : ∀ d ∈ devs, agreeBelow i a d = true → ¬txBefore d a) : leads devs a i := by
  intro j hij hj ha
  refine Bool.eq_false_iff.2 fun hr => ?_
  obtain ⟨d, hd, hag, hdj⟩ := responds_iff.1 hr
  exact h d hd (agreeBelow_mono hij hag) ⟨j, hj, agreeBelow_comm.trans hag, hdj, ha⟩

/-- One position on the way to the device a: it has the bit of a as its choice, and it is a discrepancy exactly if it
leaves a branch (R226). -/
theorem responds_on_the_way (ha : a ∈ devs) (hl : a.getLsbD i = true → responds devs a i false = false) :
    (responds devs a i false, responds devs a i true) ≠ (false, false) ∧
      chosen (responds devs a i false, responds devs a i true) = a.getLsbD i ∧
      (responds devs a i false && responds devs a i true) = branchLeft devs a i := by
  have hself : responds devs a i (a.getLsbD i) = true := responds_iff.2 ⟨a, ha, agreeBelow_self, rfl⟩
  cases hai : a.getLsbD i with
  | false =>
    rw [hai] at hself
    simp [chosen, branchLeft, hself, hai]
  | true =>
    rw [hai] at hself
    simp [chosen, branchLeft, hself, hai, hl hai]

/-- A position records a discrepancy in its own bit only (R234). -/
theorem getLsbD_after_disc (p : Pass) (i : Nat) (r : Bool × Bool) (hj : j < 64) :
    (p.after i r).disc.getLsbD j = (p.disc.getLsbD j || decide (j = i) && (r.1 && r.2)) := by
  rw [Pass.after]
  cases r.1 && r.2 with
  | false => simp
  | true =>
    rw [if_pos rfl, getLsbD_assignBit]
    split
    next h => simp [h.1]
    next h => simp [show j ≠ i from fun e => h ⟨e, hj⟩]

/-- The walk on the bus to the device a: its address, and the branches it leaves. -/
theorem walkPass_bus {resp : Nat → Bool × Bool} (ha : a ∈ devs)
    (hr : ∀ j, j < 64 → resp j = (responds devs a j false, responds devs a j true)) (n : Nat) :
    ∀ (i : Nat) (p : Pass), i + n = 64 → leads devs a i → (∀ j, j < i → p.addr.getLsbD j = a.getLsbD j) →
      ∃ q, walkPass resp n i p = some q ∧ q.addr = a ∧
        ∀ j, j < 64 → q.disc.getLsbD j = (p.disc.getLsbD j || decide (i ≤ j) && branchLeft devs a j) := by
  induction n with
  | zero =>
    rintro i p rfl - hp
    exact ⟨p, rfl, BitVec.eq_of_getLsbD_eq hp, fun j hj => by simp [hj]⟩
  | succ n ih =>
    intro i p hi hl hp
    obtain ⟨hne, hc, hb⟩ := responds_on_the_way ha (hl i le_rfl (by omega))
    obtain ⟨q, hq, haddr, hdisc⟩ := ih (i + 1) (p.after i (resp i)) (by omega) (fun j hj => hl j (by omega)) (by
      intro j hj
      rw [Pass.after, getLsbD_assignBit, hr i (by omega), hc]
      split
      next h => rw [h.1]
      next h => exact hp j (by omega))
    refine ⟨q, ?_, haddr, fun j hj => ?_⟩
    · rw [walkPass_succ, if_neg (by rwa [hr i (by omega)]), hq]
    · rw [hdisc j hj, getLsbD_after_disc _ _ _ hj, hr i (by omega), hb]
      rcases Nat.lt_trichotomy j i with h | rfl | h
      · simp [show j ≠ i by omega, show ¬i + 1 ≤ j by omega, show ¬i ≤ j by omega]
      · simp
      · simp [show j ≠ i by omega, show i + 1 ≤ j by omega, show i ≤ j by omega]

/-- A fresh pass on the bus (R227). -/
theorem searchPass_fresh_bus {resp : Nat → Bool × Bool} {sa sd : Rom} (ha : a ∈ devs)
    (hr : ∀ j, j < 64 → resp j = (responds devs a j false, responds devs a j true)) (hl : leads devs a 0) :
    ∃ p, searchPass false sa sd l resp = some p ∧ p.addr = a ∧ discOf devs a p.disc := by
  obtain ⟨p, hp, haddr, hdisc⟩ := walkPass_bus ha hr 64 0 ⟨0#64, 0#64, 0#6⟩ rfl hl nofun
  exact ⟨p, hp, haddr, fun j hj => by rw [hdisc j hj]; simp⟩

/-- A resumed pass on the bus, from the address a to the next one, b (R228 to R231). -/
theorem searchPass_resumed_bus {resp : Nat → Bool × Bool} {disc : Rom} (ha : a ∈ devs) (hb : b ∈ devs)
    (hr : ∀ j, j < 64 → resp j = (responds devs b j false, responds devs b j true)) (hl : leads devs b (l + 1))
    (hl64 : l < 64) (hab : agreeBelow l a b = true) (hal : a.getLsbD l = false) (hbl : b.getLsbD l = true)
    (hdisc : discOf devs a disc) (htop : ∀ j, l < j → disc.getLsbD j = false) :
    ∃ p, searchPass true a disc l resp = some p ∧ p.addr = b ∧ discOf devs b p.disc := by
  have hL : resp l = (true, true) := by
    rw [hr l hl64, responds_iff.2 ⟨a, ha, agreeBelow_comm.trans hab, hal⟩,
      responds_iff.2 ⟨b, hb, agreeBelow_self, hbl⟩]
  obtain ⟨p, hp, haddr, hpd⟩ := walkPass_bus hb hr (63 - l) (l + 1) (flipped a disc l) (by omega) hl (by
    intro j hj
    rw [flipped, getLsbD_assignBit]
    split
    next h => rw [h.1, hbl]
    next h => exact agreeBelow_iff.1 hab j (by omega))
  refine ⟨p, (searchPass_resumed hL).trans hp, haddr, fun j hj => ?_⟩
  rw [hpd j hj, flipped, getLsbD_assignBit]
  rcases Nat.lt_trichotomy j l with h | rfl | h
  · rw [if_neg (by omega), hdisc j hj, branchLeft, branchLeft, agreeBelow_iff.1 hab j h,
      responds_congr (agreeBelow_mono h.le hab)]
    simp [show ¬l + 1 ≤ j by omega]
  · simp [hj, branchLeft, hbl]
  · rw [if_neg (by omega), htop j h]
    simp [show l + 1 ≤ j by omega]

/-- No branch is left by the last device. -/
theorem disc_eq_zero_of_last {disc : Rom} (hdisc : discOf devs a disc) (hlast : ∀ d ∈ devs, ¬txBefore a d) :
    disc = 0#64 := by
  refine BitVec.eq_of_getLsbD_eq fun i hi => ?_
  rw [hdisc i hi, BitVec.getLsbD_zero, Bool.eq_false_iff]
  intro hb
  obtain ⟨d, hd, had, -⟩ := exists_txBefore_of_branchLeft hi hb
  exact hlast d hd had

/-- The next device branches off at L: below it the two addresses agree (R48 of 10_state.md, R231). -/
theorem sldi_is_first_difference {disc : Rom} {ldi : BitVec 6} (hdisc : discOf devs a disc)
    (hok : searchStateOk disc ldi) (hb : b ∈ devs) (hab : txBefore a b)
    (hnext : ∀ d ∈ devs, txBefore a d → d = b ∨ txBefore b d) :
    disc ≠ 0#64 ∧ agreeBelow ldi.toNat a b = true ∧ a.getLsbD ldi.toNat = false ∧ b.getLsbD ldi.toNat = true ∧
      ∀ j, ldi.toNat < j → disc.getLsbD j = false := by
  obtain ⟨i, hi, hag, hai, hbi⟩ := hab
  have hset : disc.getLsbD i = true := (hdisc i hi).trans (branchLeft_iff.2 ⟨hai, b, hb, hag, hbi⟩)
  have hne : disc ≠ 0#64 := by rintro rfl; simp at hset
  obtain ⟨hL, htop⟩ := hok.1 hne
  have hle : i ≤ ldi.toNat := by
    by_contra h
    rw [htop i (by omega)] at hset
    cases hset
  have heq : i = ldi.toNat := by
    by_contra h
    have hlt : i < ldi.toNat := by omega
    obtain ⟨d, hd, had, hagd⟩ := exists_txBefore_of_branchLeft ldi.isLt ((hdisc _ ldi.isLt).symm.trans hL)
    refine not_txBefore_of_eq_or_txBefore (hnext d hd had) ⟨i, hi, ?_, ?_, hbi⟩
    · exact agreeBelow_trans (agreeBelow_comm.trans (agreeBelow_mono hle hagd)) hag
    · rw [← agreeBelow_iff.1 hagd i hlt, hai]
  subst heq
  exact ⟨hne, hag, hai, hbi, htop⟩

/-- Above L, the way to the next device leads: a device before it there would lie between the two. -/
theorem leads_next (hl64 : l < 64) (hab : agreeBelow l a b = true) (hal : a.getLsbD l = false)
    (hbl : b.getLsbD l = true) (hnext : ∀ d ∈ devs, txBefore a d → d = b ∨ txBefore b d) : leads devs b (l + 1) := by
  refine leads_of_not_txBefore fun d hd hag => not_txBefore_of_eq_or_txBefore (hnext d hd ⟨l, hl64, ?_, hal, ?_⟩)
  · exact agreeBelow_trans hab (agreeBelow_mono (Nat.le_succ l) hag)
  · rw [← agreeBelow_iff.1 hag l (Nat.lt_succ_self l), hbl]

end bus

/-! ## The draws of the reference bus -/

section draws

variable {devs : List Rom} {a : Rom} {i : Nat}

/-- The draws of one position. -/
def positionDraws (devs : List Rom) (a : Rom) (i : Nat) : List PinDraw :=
  [.level true, .level true, .level (!responds devs a i false),
    .level true, .level true, .level (!responds devs a i true),
    .level true, .level true]

theorem busPass_eq (devs : List Rom) (a : Rom) : busPass devs a =
    .level true :: .level true :: .level true :: .level false ::
      (List.replicate 16 (.level true) ++ (List.range' 0 64).flatMap (positionDraws devs a)) := by
  rw [← List.range_eq_range']
  rfl

theorem busPass_length : (busPass devs a).length = 532 := by
  simp [busPass_eq, positionDraws, List.length_flatMap]

/-- No draw of the bus is an error of the pin port. -/
theorem busPass_ok (p : Params) : allOk p (busPass devs a) := by
  intro d hd
  obtain ⟨b, rfl⟩ : ∃ b, d = .level b := by
    simp only [busPass_eq, positionDraws, List.mem_cons, List.mem_append, List.mem_replicate, List.mem_flatMap,
      List.not_mem_nil, or_false] at hd
    grind
  rfl

theorem respIn_positionDraws (n : Nat) : ∀ (i j : Nat), j < n →
    respIn ((List.range' i n).flatMap (positionDraws devs a)) j =
      (responds devs a (i + j) false, responds devs a (i + j) true) := by
  induction n with
  | zero => intro i j hj; exact absurd hj (Nat.not_lt_zero j)
  | succ n ih =>
    intro i j hj
    rw [List.range'_succ, List.flatMap_cons]
    cases j with
    | zero => simp [respIn, drawAt, positionDraws, PinDraw.level]
    | succ j =>
      refine (respIn_cons8 _ _ _ _ _ _ _ _ _ j).trans ((ih (i + 1) j (by omega)).trans ?_)
      rw [show i + 1 + j = i + (j + 1) by omega]

/-- The responses of a pass on the bus. -/
theorem respAt_busPass (hi : i < 64) :
    respAt (busPass devs a) i = (responds devs a i false, responds devs a i true) := by
  rw [busPass_eq, respAt_pass (by rw [List.length_replicate]), respIn_positionDraws 64 0 i hi, Nat.zero_add]

end draws

/-! ## A search on the reference bus (R243, R244) -/

section enumeration

variable {s : State} {devs : List Rom} {a b : Rom} {rest : List PinDraw} {resume alarm : Bool}

/-- A search on the bus has ended Found with the device a, SDISC the set of the branches left, and the draws rest. -/
structure State.foundOn (t : State) (q : Params) (devs : List Rom) (a : Rom) (rest : List PinDraw) : Prop where
  seq : t.seq = .idle
  quiet : t.quiet
  cfg : t.cfg = q
  drv : t.hid.drv = false
  done : t.regs.done = true
  err : t.regs.err = .none
  found : t.regs.found = true
  saddr : t.regs.saddr = a
  disc : discOf devs a t.regs.sdisc
  searchOk : searchStateOk t.regs.sdisc t.regs.sldi
  draws : t.port.draws = rest

/-- A search whose pass on the bus leads to the device a (O48), which leaves a search state that meets R48 (O51). -/
theorem search_finds (hr : s.ready) (hv : s.hid.drv = false) (hx : resume = true → s.regs.sdisc ≠ 0#64)
    (hok : resume = true → searchStateOk s.regs.sdisc s.regs.sldi) (hc : crcValid s.cfg a = true)
    (hd : s.port.draws = busPass devs a ++ rest)
    (hp : ∃ p, searchPass resume s.regs.saddr s.regs.sdisc s.regs.sldi.toNat (respAt (busPass devs a)) = some p ∧
      p.addr = a ∧ discOf devs a p.disc) :
    ∃ t, exec (.search resume alarm) s = .next t ∧ t.foundOn s.cfg devs a rest := by
  obtain ⟨p, hp, rfl, hdisc⟩ := hp
  obtain ⟨t, he, hseq, hregs, hdrv, hport, -, hhost, hresets, hcfg⟩ :=
    searchFindsAnAddress resume alarm s _ rest p hr hx hd busPass_length (busPass_ok _) ⟨rfl, Nat.zero_le _⟩ hv rfl hp
      hc
  have hfound : t.regs.found = true := by rw [hregs]
  refine ⟨t, he, ?_⟩
  exact
    { seq := hseq
      quiet := ⟨hhost ▸ hr.1.1, hresets ▸ hr.1.2⟩
      cfg := hcfg
      drv := hdrv
      done := by rw [hregs]
      err := by rw [hregs]; exact hr.2.2.1
      found := hfound
      saddr := by rw [hregs]
      disc := by rw [hregs]; exact hdisc
      searchOk := (foundKeepsTheSearchStateInvariant resume alarm s t hr.2 hr.1.2 hok he hfound).1
      draws := by rw [hport] }

/-- A fresh search, to the first device. -/
theorem fresh_search_finds (hr : s.ready) (hv : s.hid.drv = false) (ha : a ∈ devs)
    (hfirst : ∀ d ∈ devs, d = a ∨ txBefore a d) (hc : crcValid s.cfg a = true)
    (hd : s.port.draws = busPass devs a ++ rest) :
    ∃ t, exec (.search false alarm) s = .next t ∧ t.foundOn s.cfg devs a rest :=
  search_finds hr hv nofun nofun hc hd <| searchPass_fresh_bus ha (fun _ => respAt_busPass) <|
    leads_of_not_txBefore fun d hd _ => not_txBefore_of_eq_or_txBefore (hfirst d hd)

/-- A resumed search, to the next device. -/
theorem resumed_search_finds (hr : s.ready) (hv : s.hid.drv = false) (ha : s.regs.saddr ∈ devs)
    (hdisc : discOf devs s.regs.saddr s.regs.sdisc) (hok : searchStateOk s.regs.sdisc s.regs.sldi) (hb : b ∈ devs)
    (hab : txBefore s.regs.saddr b) (hnext : ∀ d ∈ devs, txBefore s.regs.saddr d → d = b ∨ txBefore b d)
    (hc : crcValid s.cfg b = true) (hd : s.port.draws = busPass devs b ++ rest) :
    ∃ t, exec (.search true alarm) s = .next t ∧ t.foundOn s.cfg devs b rest := by
  obtain ⟨hne, hag, hal, hbl, htop⟩ := sldi_is_first_difference hdisc hok hb hab hnext
  have hL : s.regs.sldi.toNat < 64 := s.regs.sldi.isLt
  exact search_finds hr hv (fun _ => hne) (fun _ => hok) hc hd <|
    searchPass_resumed_bus ha hb (fun _ => respAt_busPass) (leads_next hL hag hal hbl hnext) hL hag hal hbl hdisc htop

end enumeration

/-- Settles O52: the pass to the first device (`fresh_search_finds`). -/
theorem freshSearchFindsTheFirstDevice : Obligations.FreshSearchFindsTheFirstDevice := by
  unfold Obligations.FreshSearchFindsTheFirstDevice
  intro alarm s devs a rest hr hv ha hfirst hc hd
  obtain ⟨t, he, ht⟩ := fresh_search_finds hr hv ha hfirst hc hd
  exact ⟨t, he, ht.seq, ht.err, ht.found, ht.saddr, ht.disc, ht.searchOk, ht.draws⟩

/-- Settles O53: the pass to the next device (`resumed_search_finds`), which branches off at L
(`sldi_is_first_difference`). -/
theorem resumedSearchFindsTheNextDevice : Obligations.ResumedSearchFindsTheNextDevice := by
  unfold Obligations.ResumedSearchFindsTheNextDevice
  intro alarm s devs b rest hr hv ha hdisc hok hb hab hnext hc hd
  obtain ⟨t, he, ht⟩ := resumed_search_finds hr hv ha hdisc hok hb hab hnext hc hd
  exact ⟨t, he, ht.seq, ht.err, ht.found, ht.saddr, ht.disc, ht.searchOk, ht.draws⟩

/-! ## SEARCH_ALL (30_encoding.md R113) -/

section searchAll

variable {s t : State} {q : Params} {devs : List Rom} {a : Rom} {rest : List PinDraw} {resume alarm : Bool}

/-- A command line's command starts from a ready state (30_encoding.md R114). -/
theorem acceptedAt_ready (hq : s.quiet) (w : Word) : (s.acceptedAt w).ready := ⟨hq, rfl, rfl, rfl, rfl⟩

/-- A command line runs its command from the state of R114. -/
theorem issue_of_exec {i : Instr} (hw : i.wf = true) (hi : s.seq = .idle) (hq : s.quiet)
    (he : exec i (s.acceptedAt (encode i)) = .next t) (ht : t.seq = .idle) (htq : t.quiet) : issue i s = .next t :=
  issue_idle hi hq.2 (by rwa [decodeEncodeAgree i hw]) (by rw [htq.1]; exact Nat.zero_le _) ht

theorem readSaddr_eq (t : State) : t.readSaddr = t.regs.saddr := by
  rw [State.readSaddr, readWord_of_some t (x := .saddrHi) rfl, readWord_of_some t (x := .saddrLo) rfl]
  exact BitVec.extractLsb'_append_extractLsb'

/-- The state in which SEARCH_ALL goes on: the host has read SADDR. -/
def State.afterReads (t : State) : State := (t.hostRead saddrLoOffset).hostRead saddrHiOffset

theorem searchAll_found (n : Nat) (h : issue (.search resume alarm) s = .next t) (ht : t.foundOn q devs a rest) :
    searchAll alarm (n + 1) resume s =
      (a :: (searchAll alarm n true t.afterReads).1, (searchAll alarm n true t.afterReads).2) := by
  have hs : t.succeeded = true := by simp [State.succeeded, busy_idle ht.seq, ht.done, ht.err]
  simp only [searchAll, h, hs, ht.found, Bool.and_self, if_true, readSaddr_eq, ht.saddr, State.afterReads]

theorem searchAll_not_found (n : Nat) (h : issue (.search resume alarm) s = .next t) (ht : t.regs.found = false) :
    searchAll alarm (n + 1) resume s = ([], .next t) := by
  simp only [searchAll, h, ht, Bool.and_false, Bool.false_eq_true, if_false]

/-- The host's reads leave the outcome of the search. -/
theorem State.foundOn.afterReads (h : t.foundOn q devs a rest) : t.afterReads.foundOn q devs a rest :=
  ⟨h.seq, h.quiet, h.cfg, h.drv, h.done, h.err, h.found, h.saddr, h.disc, h.searchOk, h.draws⟩

/-- The resumed passes of SEARCH_ALL from the state that found a: the devices behind it, then None (R222). -/
theorem searchAll_resumed {post : List Rom} : ∀ {pre : List Rom} {s : State} {a : Rom}, pre ++ a :: post = devs →
    devs.Pairwise txBefore → (∀ d ∈ devs, crcValid q d = true) →
    s.foundOn q devs a (post.flatMap (busPass devs) ++ rest) →
    (searchAll alarm (post.length + 1) true s).1 = post ∧
    ∃ t, (searchAll alarm (post.length + 1) true s).2 = .next t ∧ t.seq = .idle ∧ t.regs.err = .none ∧
      t.regs.found = false ∧ t.regs.sdisc = 0#64 ∧ t.port.draws = rest := by
  induction post with
  | nil =>
    intro pre s a hdevs hsorted _ hs
    have hx : s.regs.sdisc = 0#64 := disc_eq_zero_of_last hs.disc fun d hd h =>
      absurd ((txBefore_iff_mem_of_pairwise hdevs hsorted hd).1 h) List.not_mem_nil
    obtain ⟨t, he, hseq, hregs, -, hport, -, hhost, hresets, -⟩ := exhaustedSearchReturnsNone alarm
      (s.acceptedAt (encode (.search true alarm))) (acceptedAt_ready hs.quiet _) hx
    have hissue := issue_of_exec rfl hs.seq hs.quiet he hseq ⟨hhost ▸ hs.quiet.1, hresets ▸ hs.quiet.2⟩
    rw [searchAll_not_found _ hissue (by rw [hregs]; rfl)]
    exact ⟨rfl, t, rfl, hseq, by rw [hregs]; rfl, by rw [hregs]; rfl, by rw [hregs]; exact hx,
      by rw [hport]; exact hs.draws⟩
  | cons b post ih =>
    intro pre s a hdevs hsorted hcrc hs
    have hdevs' : (pre ++ [a]) ++ b :: post = devs := by rw [← hdevs, List.append_assoc]; rfl
    obtain ⟨ha, hb⟩ : a ∈ devs ∧ b ∈ devs := by simp [← hdevs]
    have hab : txBefore a b := (txBefore_iff_mem_of_pairwise hdevs hsorted hb).2 List.mem_cons_self
    have hnext (d : Rom) (hd : d ∈ devs) (had : txBefore a d) : d = b ∨ txBefore b d :=
      (List.mem_cons.1 ((txBefore_iff_mem_of_pairwise hdevs hsorted hd).1 had)).imp_right
        (txBefore_iff_mem_of_pairwise hdevs' hsorted hd).2
    obtain rfl := hs.saddr
    obtain rfl := hs.cfg
    obtain ⟨t, he, ht⟩ := resumed_search_finds (s := s.acceptedAt (encode (.search true alarm)))
      (acceptedAt_ready hs.quiet _) hs.drv ha hs.disc hs.searchOk hb hab hnext (hcrc b hb)
      (hs.draws.trans (by rw [List.flatMap_cons, List.append_assoc]))
    have hissue := issue_of_exec rfl hs.seq hs.quiet he ht.seq ht.quiet
    obtain ⟨hlist, hend⟩ := ih hdevs' hsorted hcrc ht.afterReads
    rw [List.length_cons, searchAll_found _ hissue ht, hlist]
    exact ⟨rfl, hend⟩

end searchAll

/-- Settles O54: the fresh pass finds the first device (`fresh_search_finds`), and the resumed ones the others
(`searchAll_resumed`). -/
theorem searchAllListsEveryDeviceInOrder : Obligations.SearchAllListsEveryDeviceInOrder := by
  unfold Obligations.SearchAllListsEveryDeviceInOrder
  intro alarm s devs rest hi hq hv hne hsorted hcrc hd
  obtain ⟨a, post, hdevs⟩ := List.exists_cons_of_ne_nil hne
  have hfirst : ∀ d ∈ devs, d = a ∨ txBefore a d := by
    subst hdevs
    exact fun d hd => (List.mem_cons.1 hd).imp_right fun h => List.rel_of_pairwise_cons hsorted h
  have ha : a ∈ devs := hdevs ▸ List.mem_cons_self
  have hdraws : s.port.draws = busPass devs a ++ (post.flatMap (busPass devs) ++ rest) := by
    rw [hd, ← List.append_assoc, ← List.flatMap_cons, ← hdevs]
  obtain ⟨t, he, ht⟩ := fresh_search_finds (alarm := alarm) (s := s.acceptedAt (encode (.search false alarm)))
    (acceptedAt_ready hq _) hv ha hfirst (hcrc a ha) hdraws
  have hissue := issue_of_exec rfl hi hq he ht.seq ht.quiet
  obtain ⟨hlist, hend⟩ := searchAll_resumed (alarm := alarm) (pre := []) hdevs.symm hsorted hcrc ht.afterReads
  rw [show devs.length + 1 = post.length + 1 + 1 by rw [hdevs, List.length_cons], searchAll_found _ hissue ht, hlist]
  exact ⟨hdevs.symm, hend⟩

/-! ## The default checksum (R241) -/

section checksum

/-- One bit of the checksum (R241): fed with the low bit of x, it comes to the rest of x exactly from x. -/
theorem crcBit_eq_shift_iff {c x : Byte} : crcBit c (x.getLsbD 0) = x >>> 1 ↔ c = x := by
  have hx : (x >>> 1).getLsbD 7 = false := by simp
  have hbits (h0 : c.getLsbD 0 = x.getLsbD 0) : c >>> 1 = x >>> 1 ↔ c = x := by
    refine ⟨fun h => BitVec.eq_of_getLsbD_eq fun j hj => ?_, fun h => by rw [h]⟩
    cases j with
    | zero => exact h0
    | succ j => simpa [Nat.add_comm 1 j] using congrArg (·.getLsbD j) h
  unfold crcBit
  cases h : c.getLsbD 0 ^^ x.getLsbD 0 with
  | false =>
    rw [if_neg Bool.false_ne_true]
    exact hbits (by simpa using h)
  | true =>
    rw [if_pos rfl]
    refine iff_of_false (fun he => ?_) (fun he => ?_)
    · rw [← he] at hx
      simp at hx
    · rw [he, Bool.xor_self] at h
      cases h

/-- The checksum fed with the low bits of v comes to the rest of v exactly from v. -/
theorem crcBits_eq_shift_iff {c v : Byte} (n : Nat) :
    (List.range n).foldl (fun c k => crcBit c (v.getLsbD k)) c = v >>> n ↔ c = v := by
  induction n with
  | zero => simp
  | succ n ih =>
    have hbit : v.getLsbD n = (v >>> n).getLsbD 0 := by rw [BitVec.getLsbD_ushiftRight, Nat.add_zero]
    rw [List.range_succ, List.foldl_append, List.foldl_cons, List.foldl_nil, hbit, BitVec.shiftRight_add,
      crcBit_eq_shift_iff, ih]

/-- One more byte brings the checksum to 0 exactly if it is the checksum so far. -/
theorem crcByte_eq_zero_iff {c v : Byte} : crcByte c v = 0x00#8 ↔ c = v := by
  rw [crcByte, ← BitVec.ushiftRight_eq_zero (x := v) (le_refl 8)]
  exact crcBits_eq_shift_iff 8

theorem crc8_romBytes_succ (a : Rom) (n : Nat) :
    crc8 (romBytes a (n + 1)) = crcByte (crc8 (romBytes a n)) (romByte a n) := by
  simp only [crc8, romBytes, List.range_succ, List.map_append, List.foldl_append, List.map_cons, List.map_nil,
    List.foldl_cons, List.foldl_nil]

end checksum

/-- Settles O55: the check value is computed, and the check byte is the last of eight (`crcByte_eq_zero_iff`). -/
theorem defaultChecksumValues : Obligations.DefaultChecksumValues := by
  unfold Obligations.DefaultChecksumValues
  refine ⟨by decide +kernel, fun p a hp => ?_⟩
  rw [crc8_romBytes_succ a 7, crcByte_eq_zero_iff]
  simp only [crcValid, hp, beq_iff_eq]

end Sys2Proof.Machine
end

section
/-!
PROOFS. The statements of 60_exceptions.md: no step faults (R281), what a command that fails leaves (R275), a host access in
the cycle of a command's end (R280), and the idle engine (R289).
-/

namespace Sys2Proof.Machine

/-! ## The idle engine (60_exceptions.md R289) -/

section idle

variable {s : State}

theorem step_idle (hs : s.seq = .idle) : step s = s.idleStep := by
  simp only [step, hs]

/-- No write changes more than the host registers. -/
theorem writeWord_regs_only (s : State) (off : Offset) (v : Word) : ∃ r, s.writeWord off v = { s with regs := r } := by
  unfold State.writeWord
  split
  · exact ⟨_, rfl⟩
  · exact ⟨s.regs, rfl⟩

/-- An idle engine takes the host's next access, if no block reset comes by its cycle and it starts no command. -/
theorem idleStep_access {due : Due} {op : HostOp} {queue : List Input} (hq : s.host.queue = ⟨due, op⟩ :: queue)
    (hr : s.resetBy (due.cycle s.now) = none) (hc : ∀ off v, op = .write off v → regAt off ≠ some .cmd) :
    s.idleStep = .next ((s.takeInput due queue).access op) := by
  cases op with
  | read off => simp only [State.idleStep, hq, hr, State.access]
  | write off v => simp only [State.idleStep, hq, hr, State.idleWrite, hc off v rfl, if_false, State.access]

/-- A write to an idle engine has a next state: even a write to CMD only runs a command (`exec_eq`). -/
theorem idleWrite_next (s : State) (off : Offset) (v : Word) : ∃ t, s.idleWrite off v = .next t := by
  unfold State.idleWrite
  split
  · exact ⟨_, exec_eq _ _⟩
  · exact ⟨_, rfl⟩

theorem idleStep_next (s : State) : ∃ t, s.idleStep = .next t := by
  unfold State.idleStep
  split
  next => exact ⟨_, rfl⟩
  next inp queue _ =>
    split
    next r _ => exact ⟨_, rfl⟩
    next =>
      split
      next off v _ => exact idleWrite_next _ off v
      next off _ => exact ⟨_, rfl⟩

end idle

/-- Settles O29: an access that starts no command is taken by `idleStep_access`, and a write changes registers only
(`writeWord_regs_only`). -/
theorem idleEngineIssuesNoRequest : Obligations.IdleEngineIssuesNoRequest := by
  unfold Obligations.IdleEngineIssuesNoRequest
  intro s hs
  rw [step_idle hs]
  refine ⟨fun hq hr => ?_, fun due off queue hq hr => ?_, fun due off w queue hq hr hoff => ?_⟩
  · simp only [State.idleStep, hq, State.resetOrTick, hr, State.tick]
  · exact idleStep_access hq hr nofun
  · have hc : regAt off ≠ some .cmd := mt regAt_cmd.1 hoff
    obtain ⟨r, hw⟩ := writeWord_regs_only (s.takeInput due queue) off w
    refine ⟨_, idleStep_access hq hr (by rintro _ _ ⟨⟩; exact hc), rfl, ?_⟩
    simp only [State.access, hw]
    exact ⟨hs, rfl, rfl, rfl, rfl, rfl, rfl⟩

/-! ## No traps (60_exceptions.md R281) -/

/-- Settles O16: the one fault is a step pointer that names no step, which the invariant rules out. -/
theorem invariantStatesAreSafe : Obligations.InvariantStatesAreSafe := by
  unfold Obligations.InvariantStatesAreSafe
  intro s h
  unfold State.safe
  cases hs : s.seq with
  | idle => exact step_idle hs ▸ idleStep_next s
  | await r rest => exact ⟨_, step_held hs⟩
  | run l =>
    cases l with
    | nil =>
      have hsound := h.sound
      rw [hs] at hsound
      obtain ⟨⟨m, hm, -⟩, -⟩ := hsound
      cases hm
    | cons m rest => exact ⟨s.resumeStep, by simp only [step, hs]⟩

/-! ## What a failed command leaves (60_exceptions.md R275, R281) -/

/-- Where a run can stand that began with the registers r: on its way, or at one of the three ends of a command, each taken
from registers in which only the host has changed DONE, REJ and DONE_IE. -/
inductive RunEnd (r : Regs) : State → Prop where
  | going (t : State) (h : t.regs.sameLocked r) : RunEnd r t
  | reset (t : State) (c : Nat) : RunEnd r (t.resetNow c)
  | finish (t : State) (c : Commit) (h : t.regs.sameLocked r) : RunEnd r (t.endFinish c)
  | raise (t : State) (e : CmdError) (h : t.regs.sameLocked r) : RunEnd r (t.endRaise e)

theorem seqStep_runEnd {s : State} {r : Regs} (hs : s.stopped = false) (hl : s.regs.sameLocked r) :
    RunEnd r (seqStep s) := by
  obtain ⟨m, rest, hm⟩ := not_stopped_run hs
  have hstep := seqStep_cases hm
  generalize seqStep s = u at hstep ⊢
  cases hstep with
  | reset t c _ _ _ => exact .reset t c
  | pin t q w _ h => exact .going _ (h.locked.trans hl)
  | silent q _ _ _ => exact .going _ hl
  | wait t us _ h => exact .going _ (h.locked.trans hl)
  | act a _ => exact .going _ hl
  | finish t c _ h => exact .finish t c (h.locked.trans hl)
  | raise t e _ h => exact .raise t e (h.locked.trans hl)

/-- A run goes on only from a state on its way: the three ends leave the sequencer idle. -/
theorem runSeq_runEnd (n : Nat) (s : State) : RunEnd s.regs (runSeq n s) := by
  refine runSeq_induct (RunEnd s.regs) (fun u hu k => ?_) n s (.going s (.refl _))
  cases k with
  | going _ h => exact seqStep_runEnd hu h
  | reset t c => cases hu
  | finish t c h => cases hu
  | raise t e h => cases hu

/-- `finish` keeps ERR (R274). -/
theorem endFinish_err (t : State) (c : Commit) : (t.endFinish c).regs.err = t.regs.err := by
  cases c <;> rfl

/-- What `raise` leaves in the registers: beside the host's own bits, it writes DONE, FOUND, ERR and PRESENCE, and PINERR on
a pin failure. -/
theorem endRaise_regs_eq {t u : State} {r : Regs} {e : CmdError} (hu : u = t.endRaise e) (h : t.regs.sameLocked r)
    (hf : r.found = false) :
    u.regs =
      { r with
        done := u.regs.done, presence := u.regs.presence, rej := u.regs.rej, err := u.regs.err
        doneIe := u.regs.doneIe, pinerr := u.regs.pinerr } ∧
    (u.regs.err ≠ .pinFailure → u.regs.pinerr = r.pinerr) := by
  subst hu
  rw [State.endRaise_regs, h.eq]
  cases e with
  | pinFailure c => exact ⟨by simp [Regs.recordPinErr, Regs.raiseFlags, Regs.latchPresence, hf], fun h => absurd rfl h⟩
  | busNotHigh | unexpectedResponse | checksumMismatch | illegalCommand =>
    exact ⟨by simp [Regs.recordPinErr, Regs.raiseFlags, Regs.latchPresence, hf], fun _ => rfl⟩

/-- Settles O21: of the places where a run can stand (`runSeq_runEnd`), `raise` alone leaves an error, and a block reset
leaves none. -/
theorem failedCommandKeepsResults : Obligations.FailedCommandKeepsResults := by
  unfold Obligations.FailedCommandKeepsResults
  intro i s t _ ⟨_, herr, hfound, _⟩ he hne
  rw [exec_eq] at he
  injection he with he
  have hk : RunEnd s.regs t := he ▸ runSeq_runEnd stepBound { s with seq := .run (procedureOf i) }
  cases hk with
  | going _ h => exact absurd (h.err.trans herr) hne
  | reset t c => exact absurd rfl hne
  | finish t c h => exact absurd ((endFinish_err t c).trans (h.err.trans herr)) hne
  | raise t e h => exact ⟨rfl, rfl, rfl, endRaise_regs_eq rfl h hfound⟩

/-! ## A host access in the cycle of a command's end (60_exceptions.md R280) -/

section ending

variable {s : State} {m : Micro} {rest : List Micro}

/-- What a step of a procedure does at the end of the command: only `finish` and `raise` do anything. -/
def Micro.ending : Micro → State → State
  | .finish c, t => t.endFinish c
  | .raise e, t => t.endRaise e
  | .pin _, t => t
  | .wait _, t => t
  | .act _, t => t

/-- The step that ends a command ends it after the host's accesses of that cycle (20_memory.md R92). -/
theorem seqStep_ending (hs : s.seq = .run (m :: rest)) (hm : (∃ c, m = .finish c) ∨ ∃ e, m = .raise e)
    (hr : s.resets = []) : seqStep s = m.ending (elapseTo (s.now + endCycles) s.host.queue s) := by
  rcases hm with ⟨c, rfl⟩ | ⟨e, rfl⟩
  · rw [seqStep_eq_finish hs, afterCycles_noReset hr]; rfl
  · rw [seqStep_eq_raise hs, afterCycles_noReset hr]; rfl

/-- The end u of a command at the step m, from the state t: the results are committed from the hidden registers, the
operands of the host are kept. -/
structure EndOf (m : Micro) (t u : State) : Prop where
  seq : u.seq = .idle
  done : u.regs.done = true
  host : u.host = t.host
  cmd : u.regs.cmd = t.regs.cmd
  romid : u.regs.romid = t.regs.romid
  committed : m = .finish .searchState →
    u.regs.saddr = t.hid.wAddr ∧ u.regs.sdisc = t.hid.wDisc ∧ u.regs.sldi = t.hid.wLdi
  kept : m ≠ .finish .searchState →
    u.regs.saddr = t.regs.saddr ∧ u.regs.sdisc = t.regs.sdisc ∧ u.regs.sldi = t.regs.sldi

theorem ending_endOf (hm : (∃ c, m = .finish c) ∨ ∃ e, m = .raise e) (t : State) : EndOf m t (m.ending t) := by
  rcases hm with ⟨c, rfl⟩ | ⟨e, rfl⟩
  · cases c with
    | searchState => exact ⟨rfl, rfl, rfl, rfl, rfl, fun _ => ⟨rfl, rfl, rfl⟩, fun h => absurd rfl h⟩
    | nothing | rxBit | rxByte => exact ⟨rfl, rfl, rfl, rfl, rfl, nofun, fun _ => ⟨rfl, rfl, rfl⟩⟩
  · cases e <;> exact ⟨rfl, rfl, rfl, rfl, rfl, nofun, fun _ => ⟨rfl, rfl, rfl⟩⟩

/-- The end of a command neither reads nor writes REJ. -/
theorem ending_rej (m : Micro) (t : State) (b : Bool) : m.ending { t with regs := { t.regs with rej := b } } =
    { m.ending t with regs := { (m.ending t).regs with rej := b } } := by
  cases m with
  | pin _ | wait _ | act _ => rfl
  | finish c => cases c <;> rfl
  | raise e => cases e <;> rfl

/-- The one access due in the cycle of the end is taken in that cycle. -/
theorem elapseTo_endCycle {op : HostOp} (hq : s.host.queue = [⟨.atCycle s.now, op⟩]) :
    elapseTo (s.now + endCycles) s.host.queue s =
      elapseTo (s.now + endCycles) [] ((s.takeInput (.atCycle s.now) []).access op) := by
  have hd : (Due.atCycle s.now).before (s.now + endCycles) = true := decide_eq_true (Nat.lt_succ_self _)
  simp only [hq, elapseTo, hd, if_true]

end ending

/-- Settles O28: the access comes before the end (`seqStep_ending`); a read sees the state before it, and a rejected write
changes REJ alone, which the end leaves as it is (`ending_rej`). -/
theorem endCycleAccessesSeeTheStateBefore : Obligations.EndCycleAccessesSeeTheStateBefore := by
  unfold Obligations.EndCycleAccessesSeeTheStateBefore
  intro s m rest op hs hm hr hq
  have hstep := seqStep_ending hs hm hr
  rw [elapseTo_endCycle hq] at hstep
  have hend := hstep ▸ ending_endOf hm _
  refine ⟨hend.seq, hend.done, ?_, ?_⟩
  · rintro off rfl
    rw [hend.host]
    rfl
  · rintro off w rfl hoff
    have hquiet : seqStep { s with host := { s.host with queue := [] } } =
        m.ending (elapseTo (s.now + endCycles) [] (s.takeInput (.atCycle s.now) [])) := seqStep_ending hs hm hr
    have hbefore := hquiet ▸ ending_endOf hm _
    refine ⟨_, rfl, ?_, hbefore.cmd, hbefore.romid, hbefore.committed, hbefore.kept⟩
    have hw := writeWord_rejected (s.takeInput (.atCycle s.now) []) w (busy_run hs) (regAt_locked.1 hoff)
    rw [hstep, hquiet, State.access, hw]
    exact ending_rej m (elapseTo (s.now + endCycles) [] (s.takeInput (.atCycle s.now) [])) true

end Sys2Proof.Machine
end

section
/-!
PROOFS. The statement of 70_reset_and_hazards.md: the block reset, in any cycle (R300).
-/

namespace Sys2Proof.Machine

/-! ## The block reset (R300) -/

section blockReset

variable {s t : State} {m : Micro} {rest : List Micro} {q : PinReq} {d : PinDraw} {ds : List PinDraw} {r : Nat}
  {rs : List Nat}

/-- A block reset at cycle r restores the reset values, whatever the host's accesses did before it; the trace adds what
had been issued, and the draws ds are left. -/
theorem resetNow_wasReset (hr : s.resets = r :: rs)
    (h : ({ s with port := { s.port with draws := ds } } : State).accessEffect t) :
    s.wasReset (t.resetNow (max s.now r)) r rs s.seq.begun ds := by
  have hseq : t.seq = s.seq := h.seq
  have hport : t.port = { s.port with draws := ds } := h.port
  have hresets : t.resets = r :: rs := h.resets.trans hr
  refine ⟨rfl, rfl, rfl, ?_, ?_, rfl, h.cfg⟩
  · rw [State.resetNow_port, hseq, hport]
  · rw [State.resetNow_resets, hresets, List.tail_cons]

/-- A block reset of an engine that has begun no request or wait cuts nothing off, and leaves the draws. -/
theorem resetNow_wasReset_of_begun_nil (hr : s.resets = r :: rs) (hb : s.seq.begun = []) :
    s.wasReset (s.resetNow (max s.now r)) r rs [] s.port.draws :=
  hb ▸ resetNow_wasReset hr (.refl s)

/-! ### Idle, or held by the pin port -/

theorem resetBy_eq_some {c : Nat} (hr : s.resets = r :: rs) (hc : r ≤ c) : s.resetBy c = some (max s.now r) := by
  simp only [State.resetBy, hr, hc, if_true]

theorem resetOrTick_eq_resetNow (hr : s.resets = r :: rs) : s.resetOrTick = s.resetNow (max s.now r) := by
  simp only [State.resetOrTick, hr]

/-- The step of an idle engine is the block reset, if the host's next access comes no earlier. -/
theorem idleStep_eq_resetNow (hr : s.resets = r :: rs)
    (hq : ∀ inp queue, s.host.queue = inp :: queue → r ≤ inp.due.cycle s.now) :
    s.idleStep = .next (s.resetNow (max s.now r)) := by
  cases hh : s.host.queue with
  | nil => simp only [State.idleStep, hh, resetOrTick_eq_resetNow hr]
  | cons inp queue => simp only [State.idleStep, hh, resetBy_eq_some hr (hq inp queue hh)]

/-- The step of a held engine is the block reset too: an access that waits for the command's end does not come before
it. -/
theorem heldStep_eq_resetNow (hr : s.resets = r :: rs)
    (hq : ∀ c op queue, s.host.queue = ⟨.atCycle c, op⟩ :: queue → r ≤ max s.now c) :
    s.heldStep = s.resetNow (max s.now r) := by
  cases hh : s.host.queue with
  | nil => simp only [State.heldStep, hh, resetOrTick_eq_resetNow hr]
  | cons inp queue =>
    obtain ⟨due, op⟩ := inp
    cases due with
    | whenIdle => simp only [State.heldStep, hh, resetOrTick_eq_resetNow hr]
    | atCycle c => simp only [State.heldStep, hh, resetBy_eq_some hr (hq c op queue hh)]

/-! ### Within a step of a running command -/

theorem resetBefore_eq_some {c : Nat} (hr : s.resets = r :: rs) (hc : r < c) :
    s.resetBefore c = some (max s.now r) := by
  simp only [State.resetBefore, hr, hc, if_true]

/-- Cycles in which a block reset falls pass up to it, with the host's accesses due before it. -/
theorem afterCycles_eq_resetNow {n : Nat} {f : State → State} (hr : s.resets = r :: rs) (hn : r < s.now + n) :
    s.afterCycles n f = (elapseTo (max s.now r) s.host.queue s).resetNow (max s.now r) := by
  simp only [State.afterCycles, resetBefore_eq_some hr hn]

/-- A step that takes n cycles, and has taken its draw from the port, is cut off by a block reset within them. -/
theorem cutOff_of_afterCycles {n : Nat} {f : State → State} (hs : s.seq = .run (m :: rest)) (hr : s.resets = r :: rs)
    (hstep : seqStep s = ({ s with port := { s.port with draws := ds } } : State).afterCycles n f)
    (hn : r < s.now + n) : s.cutOff r rs (Sequencer.run (m :: rest)).begun ds := by
  have hcut := hstep.trans (afterCycles_eq_resetNow hr hn)
  rw [State.cutOff, hcut, ← hs]
  exact ⟨resetNow_wasReset hr (elapseTo_effect _ _ _ (busy_run hs)), elapseTo_queue _ _ _⟩

/-- A request that is answered is cut off in the cycles until its answer, ACT_LAT included. -/
theorem cutOff_of_pin (hs : s.seq = .run (.pin q :: rest)) (hr : s.resets = r :: rs) (ha : s.answers q = true)
    (hn : r < s.now + s.nextDraw.waitCycles s.cfg s.hid.drv q + s.cfg.actLat) :
    s.cutOff r rs [.issued q] s.port.draws.tail := by
  have hstep : seqStep s = s.answeredStep q rest := by rw [seqStep_eq_pin hs, State.pinStep, if_pos ha]
  rw [State.answeredStep] at hstep
  exact cutOff_of_afterCycles hs hr hstep (by rwa [← Nat.add_assoc])

/-- The step that ends a command is cut off by a block reset in its cycle. -/
theorem cutOff_of_end (hs : s.seq = .run (m :: rest)) (hr : s.resets = r :: rs)
    (hm : (∃ c, m = .finish c) ∨ ∃ e, m = .raise e) (hn : r ≤ s.now) : s.cutOff r rs [] s.port.draws := by
  have hlt : r < s.now + endCycles := Nat.lt_succ_of_le hn
  rcases hm with ⟨c, rfl⟩ | ⟨e, rfl⟩
  · exact cutOff_of_afterCycles hs hr (seqStep_eq_finish hs) hlt
  · exact cutOff_of_afterCycles hs hr (seqStep_eq_raise hs) hlt

/-! ### The cycles of timebase in a request (R313) -/

theorem nextDraw_of_draws (hd : s.port.draws = d :: ds) : s.nextDraw = d := by
  rw [State.nextDraw, hd, List.headD_cons]

/-- A request other than WAIT_HIGH takes none. -/
theorem waitCycles_of_ne_waitHigh (d : PinDraw) (p : Params) (drv : Bool) (hq : q ≠ .waitHigh) :
    d.waitCycles p drv q = 0 := by
  cases q with
  | waitHigh => exact absurd rfl hq
  | driveLow | release | isHigh | isLow => rfl

/-- A WAIT_HIGH that is answered, with high or with an error, takes the cycles until the answer. -/
theorem waitCycles_of_answered {p : Params} {drv : Bool}
    (h : d.fault p = none ∧ d.idlesHigh p ∧ drv = false ∨ d.fault p ≠ none ∧ d.delay ≤ 250 * p.ticksPerUs) :
    d.waitCycles p drv .waitHigh = d.delay := by
  rcases h with ⟨hf, ⟨hhigh, hdelay⟩, rfl⟩ | ⟨hf, hdelay⟩
  · have ha : d.waitAnswer p false = .high := by
      simp [PinDraw.waitAnswer, hf, PinDraw.lineHigh, hhigh, timeoutCycles, usCycles, tWaitHighTimeout, hdelay]
    simp only [PinDraw.waitCycles, ha]
  · obtain ⟨c, hc⟩ := Option.ne_none_iff_exists'.1 hf
    have ha : d.waitAnswer p drv = .err c := answer_of_fault (r := .waitHigh) hc drv fun _ => hdelay
    simp only [PinDraw.waitCycles, ha]

/-- A WAIT_HIGH that misses the high takes the cycles of the timeout. -/
theorem waitCycles_of_missesHigh (h : s.missesHigh) :
    s.nextDraw.waitCycles s.cfg s.hid.drv .waitHigh = timeoutCycles s.cfg := by
  have ha : s.nextDraw.waitAnswer s.cfg s.hid.drv = .timeout := missesHigh_answer h
  simp only [PinDraw.waitCycles, ha]

end blockReset

/-- Settles O27: an idle or held engine takes the block reset as its step (`idleStep_eq_resetNow`,
`heldStep_eq_resetNow`), and a step of a running command is cut off in any of its cycles (`cutOff_of_afterCycles`), as
many as the draw gives a request. -/
theorem blockResetRestoresTheResetValues : Obligations.BlockResetRestoresTheResetValues := by
  unfold Obligations.BlockResetRestoresTheResetValues
  intro s r rs hr
  refine ⟨fun hs hq => ?idle, fun hs hq => ?held, fun us rest hs hn => ?wait,
    fun q rest d ds hq hs hd hn => ?request, fun rest d ds hs hd ha hn => ?answered, fun rest hs hm hn => ?missed,
    fun m rest hs hm hn => cutOff_of_end hs hr hm hn⟩
  case idle =>
    exact ⟨_, (step_idle hs).trans (idleStep_eq_resetNow hr hq),
      resetNow_wasReset_of_begun_nil hr (by rw [hs]; rfl), rfl⟩
  case held =>
    obtain ⟨p, rest, hp⟩ := held_iff.1 hs
    exact ⟨_, (step_held hp).trans (congrArg _ (heldStep_eq_resetNow hr hq)),
      resetNow_wasReset_of_begun_nil hr (by rw [hp]; rfl), rfl⟩
  case wait => exact cutOff_of_afterCycles hs hr (seqStep_eq_wait hs) hn
  case request =>
    have hcut := cutOff_of_pin hs hr (answers_of (.inr (by simp [hd])))
      (by rwa [waitCycles_of_ne_waitHigh _ _ _ hq, Nat.add_zero])
    rwa [hd] at hcut
  case answered =>
    have hcut := cutOff_of_pin hs hr (answers_of (.inl rfl))
      (by rwa [nextDraw_of_draws hd, waitCycles_of_answered ha])
    rwa [hd] at hcut
  case missed =>
    exact cutOff_of_pin hs hr (answers_of (.inl rfl)) (by rwa [waitCycles_of_missesHigh hm])

end Sys2Proof.Machine
end
